-- ==== Sys2Proof/Word.lean ====
section
/-! DEFINITION. The 9-bit Word of the bus and the byte (00_scope.md R11, R12; 30_encoding.md R81). -/

namespace Sys2Proof

/-- A link byte, a payload, a byte of a medium. -/
abbrev Byte := BitVec 8

/-- A Word (R12): bit 8 is the `is_address` flag, bits 7:0 are the payload. -/
abbrev Word := BitVec 9

/-- The `is_address` flag `w[8]` (R12). -/
def Word.isAddress (w : Word) : Bool := w.getLsbD 8

/-- The payload `w[7:0]` (R12). -/
def Word.payload (w : Word) : Byte := w.setWidth 8

/-- `Address(a)` = `0x100 | a` (R12). -/
def Word.address (a : Byte) : Word := 0x100#9 ||| a.setWidth 9

/-- `Data(d)` = `zext_9(d)` (R12). -/
def Word.data (d : Byte) : Word := d.setWidth 9

end Sys2Proof
end

