-- ==== Sys2Proof/Config.lean ====
section
/-! DEFINITION. What an instance of the hardware fixes (00_scope.md R8, 10_state.md R44), as plain data, and the values the
spec leaves free. -/

namespace Sys2Proof

/-- Which firmware image a slave runs (R27). -/
inductive Mode where
  | app
  | boot
deriving DecidableEq, Repr, Inhabited

/-- The three region classes (R54); the fourth value `Unmapped` is `none` of `Option Region`. -/
inductive Region where
  | appArea
  | bootloaderArea
  | eepromArea
deriving DecidableEq, Repr, Inhabited

/-- A medium or its launch contents: address and byte pairs in canonical form (addresses strictly rising, no entry
equal to what an unlisted address reads as). -/
abbrev Memory := List Host.Cell

/-- The value of `S.dev_state` (R34), held as a byte list (log 9). -/
abbrev DevState := List Byte

/-- One range of a board's memory map (R54, R55), in whole pages (log 22): pages `firstPage` ..
`firstPage + pages - 1` are of class `kind`; for EepromArea the first of them is EEPROM offset `eeBase`. -/
structure MapRange where
  kind : Region
  firstPage : Nat
  pages : Nat
  eeBase : Nat
deriving DecidableEq, Repr, Inhabited

/-- A registered device-specific handler (R182): the opcode, the number of reply words its contract promises, the
number of operand words it would read (0 in the admitted subset, R183), and the part of its function that is known:
(state before, state after, reply bytes). Where `known` is silent the function is a free value (log 9). -/
structure Handler where
  opcode : Byte
  replies : Nat
  operands : Nat
  known : List (DevState × DevState × List Byte)
deriving DecidableEq, Repr, Inhabited

/-- The parameters of R8 that belong to one slave: its board and its firmware images. -/
structure Board where
  /-- Names the application image, so that two images may have different handlers (log 9). -/
  image : Nat
  /-- `PAGE_SIZE` = 2 ^ (pageExp + 1): a power of two, at least 2 (R9), at most 2 ^ 32 (log 21). -/
  pageExp : Fin 32
  /-- The memory map: `classify` and `ee_offset` (R54, R55). -/
  ranges : List MapRange
  /-- `DESC[k]` (R22, R23). -/
  desc : List Byte
  /-- `CMD_TABLE_APP[k]` (R181). -/
  appTable : List Handler
  /-- `RESET_MODE[k]` (R43). -/
  resetMode : Mode
  /-- `DEV_RX_TIMEOUT`; `none` is infinite (R8). -/
  devRxTimeout : Option Nat
  /-- `BAUD[k]`; no rule of a step reads it (R8), and a launch premise makes it the same for all (R283). -/
  baud : Nat
  /-- `FLASH_INIT[k]` (R33). -/
  flashInit : Memory
  /-- `EEPROM_INIT[k]` (R33); its byte 0 is `NV0_INIT[k]`. -/
  eepromInit : Memory
  /-- `DEV_INIT[k]` (R34). -/
  devInit : DevState
deriving DecidableEq, Repr, Inhabited

/-- The parameters of R8 that belong to the link. -/
structure Params where
  /-- `XFIFO_DEPTH` = xfifoRoom + 1: at least 1. -/
  xfifoRoom : Nat
  /-- `HOST_LINK_TIMEOUT`; the model has no clock, no rule reads the value (R259). -/
  hostLinkTimeout : Nat
  /-- `HOST_WORD_DEADLINE`; no rule reads the value (R259). -/
  hostWordDeadline : Nat
  /-- `SETTLE_DELAY`; no rule reads the value (R225, R286). -/
  settleDelay : Nat
deriving DecidableEq, Repr, Inhabited

/-- `XFIFO_DEPTH`, at least 1 (R8). -/
def Params.xfifoDepth (p : Params) : Nat := p.xfifoRoom + 1

/-- Whose turn it is (R266), and which of its alternatives it takes: a timeout is an alternative of the waiting step
(R259). -/
inductive Turn where
  /-- Slave `k` takes its step. -/
  | slave (k : Nat)
  /-- Slave `k`'s receive timeout elapses (R112). -/
  | slaveTimeout (k : Nat)
  /-- The link codec takes its step (R120). -/
  | link
  /-- The master takes its step. -/
  | master
  /-- `HOST_LINK_TIMEOUT` or `HOST_WORD_DEADLINE` elapses while the master is in an operation, or as it starts one (R221, R222). -/
  | masterTimeout
deriving DecidableEq, Repr, Inhabited

/-- FREE VALUE (log 3): the turn taken when no turn is listed in the state's agenda, one for each value of the counter
`State.ticks`. Nothing constrains it. -/
opaque Config.freeTurn : Nat → Turn

/-- FREE VALUE (log 9): the device state after a handler whose function is not listed: by image, opcode and device state
before. -/
opaque Config.devState : Nat → Byte → DevState → DevState

/-- FREE VALUE (log 9): reply byte `i` of a handler whose function is not listed: by image, opcode, device state before
and `i`. -/
opaque Config.devReply : Nat → Byte → DevState → Nat → Byte

/-- DESIGN CHOICE (log 2): the example configuration of 95_test_vectors.md, for a slave whose address byte is `a`: `PAGE_SIZE` = 64;
AppArea 0x000000..0x001BFF, BootloaderArea 0x001C00..0x001FFF, EepromArea 0x010000..0x0101FF from offset 0;
all media bytes 0xFF but the address; application table `f(s, 3) = (s, [0x2A])`. -/
def Config.exampleBoard (a : Byte) : Board where
  image := 0
  pageExp := 5
  ranges := [
    { kind := .appArea, firstPage := 0, pages := 112, eeBase := 0 },
    { kind := .bootloaderArea, firstPage := 112, pages := 16, eeBase := 0 },
    { kind := .eepromArea, firstPage := 1024, pages := 8, eeBase := 0 }]
  desc := [0x10, 0x00, 0x1D, 0x01, 0x03, 0x02, 0x41, 0x42, 0x01, 0x43]
  appTable := [{ opcode := 0x03, replies := 1, operands := 0, known := [([], [], [0x2A])] }]
  resetMode := .app
  devRxTimeout := some 0
  baud := 0
  flashInit := []
  eepromInit := if a = 0xFF then [] else [(0, a)]
  devInit := []

/-- DESIGN CHOICE (log 2): the link parameters of the instance `State.reset` launches. -/
def Config.exampleParams : Params where
  xfifoRoom := 15
  hostLinkTimeout := 0
  hostWordDeadline := 0
  settleDelay := 0

end Sys2Proof
end

