-- ==== Sys2Proof/Syntax.lean ====
section
/-! DEFINITION. The encoded operations of the block: one constructor of `Instr` per row of spec/opcode_table.json. -/

namespace Sys2Proof

/-- The encoded operations (R102). Words of format `W9` are executed by the slave that takes (or, for a
reply, transmits) them, bytes of format `L8` by the link codec `X`, bytes of format `DR` by the master. -/
inductive Instr where
  /-- `ADDR a` (R143): select or deselect. -/
  | addr (a : Byte)
  /-- A data word taken by the main loop while unselected (R145). -/
  | dataUnselected (d : Byte)
  /-- `DESELECT`, 0xFF (R146). -/
  | deselect
  /-- `ID_START`, 0xFE (R160). -/
  | idStart
  /-- `ID_NEXT`, 0xFD (R161). -/
  | idNext
  /-- `ADDR_SET`, 0xFC (R164). -/
  | addrSet
  /-- `BOOT_ENTER`, 0xFB (R168). -/
  | bootEnter
  /-- `BOOT_EXIT`, 0xFA (R170). -/
  | bootExit
  /-- `RD_BUF`, 0x01 in the bootloader image (R203). -/
  | rdBuf
  /-- `WR_BUF`, 0x02 in the bootloader image (R204). -/
  | wrBuf
  /-- `DEV_00` .. `DEV_0A`, registered opcodes of an application image (R184). -/
  | dev00
  | dev01
  | dev02
  | dev03
  | dev04
  | dev05
  | dev06
  | dev07
  | dev08
  | dev09
  | dev0A
  /-- A data word no earlier row matches while selected (R185). -/
  | unregistered (d : Byte)
  /-- An operand word of a multi-word command (R112). -/
  | data (d : Byte)
  /-- The reply word 0x0A5 (R96). -/
  | ack
  /-- The reply word 0x000 (R96). -/
  | nack
  /-- `LINK_HI`, first half of a word (R121). -/
  | linkHi (h : BitVec 5)
  /-- `LINK_LO`, second half of a word (R122). -/
  | linkLo (l : BitVec 4)
  /-- `LINK_DRAIN`, 0xB0 (R123). -/
  | linkDrain
  /-- Any other link byte (R127). -/
  | linkReserved (b : Byte)
  /-- Header byte of a drain response: marker and count (R86). -/
  | drainHdr (m : BitVec 5) (c : BitVec 3)
  /-- Payload byte of a drain response (R87). -/
  | drainPayload (p : Byte)
deriving DecidableEq, Repr, Inhabited

/-- What an operation is encoded as: a 9-bit bus word (`W9`) or one byte of the host link (`L8`, `DR`) (R80). -/
inductive Code where
  | word (w : Word)
  | byte (b : Byte)
deriving DecidableEq, Repr, Inhabited

end Sys2Proof
end

