-- ==== Sys2Proof/WellFormed.lean ====
section
/-! DEFINITION. Which terms of `Instr` are operations of the block: the operand ranges the table's conditions give. -/

namespace Sys2Proof

/-- The well-formed terms. A universal opcode is never unregistered (R95); a reserved link byte matches none of the
three defined forms (R99); `X` sends at most `DRAIN_MAX` = 5 payload bytes and leaves the marker bits no
payload uses 0 (R87, R88). Every other operand takes every value of its width. -/
def Instr.wf : Instr → Bool
  | .unregistered d => decide (d.toNat < 0xFA)
  | .linkReserved b => decide (b.toNat < 0x80) || decide (0xB0 < b.toNat)
  | .drainHdr m c => decide (c.toNat ≤ 5) && decide (m.toNat < 2 ^ c.toNat)
  | .addr _ | .dataUnselected _ | .deselect | .idStart | .idNext | .addrSet | .bootEnter | .bootExit
  | .rdBuf | .wrBuf | .dev00 | .dev01 | .dev02 | .dev03 | .dev04 | .dev05 | .dev06 | .dev07 | .dev08
  | .dev09 | .dev0A | .data _ | .ack | .nack | .linkHi _ | .linkLo _ | .linkDrain | .drainPayload _ => true

end Sys2Proof
end

