-- ==== Sys2Proof/Decode.lean ====
section
/-! DEFINITION. Decoding and encoding of bus words, link bytes and drain responses (30_encoding.md). -/

namespace Sys2Proof

/-- The named reply words (R12, R96). -/
def Word.ack : Word := 0x0A5#9
def Word.nack : Word := 0x000#9
def Word.sentinel : Word := 0x000#9

/-! ## Positions -/

/-- Where an encoded operation stands. The same word means different things by position and mode (R94, R95, R98, R102). -/
inductive Position where
  /-- Taken by a slave's main loop; `registered` lists the opcodes of `CMD_TABLE_APP[k]`. -/
  | mainLoop (selected : Bool) (mode : Mode) (registered : List Byte)
  /-- Taken inside a multi-word command. -/
  | operand
  /-- Transmitted by a slave. -/
  | reply
  /-- Popped by `X` from `L.h2x`. -/
  | link
  /-- First byte of a drain response. -/
  | drainHeader
  /-- Later bytes of a drain response. -/
  | drainPayload
deriving DecidableEq, Repr, Inhabited

/-- Why a code is no operation at a position. -/
inductive DecodeError where
  /-- An address word in place of an operand: the receive's `InvalidAddress` (R112). -/
  | addressWhereData
  /-- A slave never transmits an address word (R96). -/
  | addressAsReply
  /-- A byte where the format is `W9`, or a word where it is `L8` or `DR` (R80). -/
  | wrongFormat
deriving DecidableEq, Repr, Inhabited

/-! ## Decoding -/

/-- The universal opcodes (R93). -/
def decodeUniversal (d : Byte) : Option Instr :=
  if d = 0xFF then some .deselect
  else if d = 0xFE then some .idStart
  else if d = 0xFD then some .idNext
  else if d = 0xFC then some .addrSet
  else if d = 0xFB then some .bootEnter
  else if d = 0xFA then some .bootExit
  else none

/-- The application opcodes 0x00 .. 0x0A (R94). -/
def decodeDev (d : Byte) : Option Instr :=
  if d = 0x00 then some .dev00
  else if d = 0x01 then some .dev01
  else if d = 0x02 then some .dev02
  else if d = 0x03 then some .dev03
  else if d = 0x04 then some .dev04
  else if d = 0x05 then some .dev05
  else if d = 0x06 then some .dev06
  else if d = 0x07 then some .dev07
  else if d = 0x08 then some .dev08
  else if d = 0x09 then some .dev09
  else if d = 0x0A then some .dev0A
  else none

/-- The bootloader opcodes (R94, R181). -/
def decodeBoot (d : Byte) : Option Instr :=
  if d = 0x01 then some .rdBuf
  else if d = 0x02 then some .wrBuf
  else none

/-- The table of the running image (R181): `CMD_TABLE_BOOT`, or the registered opcodes of the application image. -/
def decodeImage (mode : Mode) (registered : List Byte) (d : Byte) : Option Instr :=
  match mode with
  | .boot => decodeBoot d
  | .app => if registered.contains d then decodeDev d else none

/-- The main loop's decoder (R102): `ADDR` if bit 8 is set; otherwise nothing if unselected; otherwise the universal rows;
otherwise the rows of the running image; otherwise `UNREGISTERED`. -/
def decodeMain (selected : Bool) (mode : Mode) (registered : List Byte) (w : Word) : Instr :=
  if w.isAddress then .addr w.payload
  else if !selected then .dataUnselected w.payload
  else match decodeUniversal w.payload with
    | some i => i
    | none => (decodeImage mode registered w.payload).getD (.unregistered w.payload)

/-- The link codec's decoder (R83, R99). -/
def decodeLink (b : Byte) : Instr :=
  if b &&& 0xE0 = 0x80 then .linkHi (b.setWidth 5)
  else if b &&& 0xF0 = 0xA0 then .linkLo (b.setWidth 4)
  else if b = 0xB0 then .linkDrain
  else .linkReserved b

/-- The header of a drain response (R86). -/
def decodeHeader (h : Byte) : Instr := .drainHdr (h.extractLsb' 3 5) (h.setWidth 3)

/-- Decoding: total on every code, rejecting by name. -/
def decode (p : Position) (c : Code) : Except DecodeError Instr :=
  match p, c with
  | .mainLoop sel mode reg, .word w => .ok (decodeMain sel mode reg w)
  | .operand, .word w => if w.isAddress then .error .addressWhereData else .ok (.data w.payload)
  | .reply, .word w =>
    if w.isAddress then .error .addressAsReply
    else if w = Word.ack then .ok .ack
    else if w = Word.nack then .ok .nack
    else .ok (.data w.payload)
  | .link, .byte b => .ok (decodeLink b)
  | .drainHeader, .byte b => .ok (decodeHeader b)
  | .drainPayload, .byte b => .ok (.drainPayload b)
  | .mainLoop _ _ _, .byte _ | .operand, .byte _ | .reply, .byte _ => .error .wrongFormat
  | .link, .word _ | .drainHeader, .word _ | .drainPayload, .word _ => .error .wrongFormat

/-! ## Encoding -/

/-- The code of an operation: the match bits of its row with its operand in its field (opcode_table.json). -/
def encode : Instr → Code
  | .addr a => .word (0x100 ||| a.setWidth 9)
  | .dataUnselected d => .word (d.setWidth 9)
  | .deselect => .word 0x0FF
  | .idStart => .word 0x0FE
  | .idNext => .word 0x0FD
  | .addrSet => .word 0x0FC
  | .bootEnter => .word 0x0FB
  | .bootExit => .word 0x0FA
  | .rdBuf => .word 0x001
  | .wrBuf => .word 0x002
  | .dev00 => .word 0x000
  | .dev01 => .word 0x001
  | .dev02 => .word 0x002
  | .dev03 => .word 0x003
  | .dev04 => .word 0x004
  | .dev05 => .word 0x005
  | .dev06 => .word 0x006
  | .dev07 => .word 0x007
  | .dev08 => .word 0x008
  | .dev09 => .word 0x009
  | .dev0A => .word 0x00A
  | .unregistered d => .word (d.setWidth 9)
  | .data d => .word (d.setWidth 9)
  | .ack => .word 0x0A5
  | .nack => .word 0x000
  | .linkHi h => .byte (0x80 ||| h.setWidth 8)
  | .linkLo l => .byte (0xA0 ||| l.setWidth 8)
  | .linkDrain => .byte 0xB0
  | .linkReserved b => .byte b
  | .drainHdr m c => .byte ((m.setWidth 8 <<< 3) ||| c.setWidth 8)
  | .drainPayload p => .byte p

/-- The opcode of a `DEV_nn` row (R184). -/
def Instr.devOpcode : Instr → Option Byte
  | .dev00 => some 0x00
  | .dev01 => some 0x01
  | .dev02 => some 0x02
  | .dev03 => some 0x03
  | .dev04 => some 0x04
  | .dev05 => some 0x05
  | .dev06 => some 0x06
  | .dev07 => some 0x07
  | .dev08 => some 0x08
  | .dev09 => some 0x09
  | .dev0A => some 0x0A
  | _ => none

/-- The `condition` column of opcode_table.json: at which positions a row applies. -/
def Position.admits : Position → Instr → Bool
  | .mainLoop sel mode reg, i =>
    match i with
    | .addr _ => true
    | .dataUnselected _ => !sel
    | .deselect | .idStart | .idNext | .addrSet | .bootEnter | .bootExit => sel
    | .rdBuf | .wrBuf => sel && mode == .boot
    | .unregistered d =>
      sel && (match mode with
        | .boot => d != 0x01 && d != 0x02
        | .app => decide (0x0A < d.toNat) || !reg.contains d)
    | .dev00 | .dev01 | .dev02 | .dev03 | .dev04 | .dev05 | .dev06 | .dev07 | .dev08 | .dev09 | .dev0A =>
      sel && mode == .app && (match i.devOpcode with | some d => reg.contains d | none => false)
    | .data _ | .ack | .nack | .linkHi _ | .linkLo _ | .linkDrain | .linkReserved _ | .drainHdr _ _
    | .drainPayload _ => false
  | .operand, i => match i with | .data _ => true | _ => false
  | .reply, i =>
    match i with
    | .ack | .nack => true
    | .data d => d != 0xA5 && d != 0x00
    | _ => false
  | .link, i => match i with | .linkHi _ | .linkLo _ | .linkDrain | .linkReserved _ => true | _ => false
  | .drainHeader, i => match i with | .drainHdr _ _ => true | _ => false
  | .drainPayload, i => match i with | .drainPayload _ => true | _ => false

/-! ## The host link's word and drain formats -/

/-- The two link bytes of a word (R84): `byte1 = 0x80 | ((word>>4)&0x1F)`, `byte2 = 0xA0 | (word & 0x0F)`. -/
def enc2 (w : Word) : Byte × Byte :=
  (0x80 ||| (((w >>> 4) &&& 0x1F).setWidth 8), 0xA0 ||| ((w &&& 0x0F).setWidth 8))

/-- The word of two halves: `(h << 4) | l` (R85, R122). -/
def wordOfHalves (h : BitVec 5) (l : BitVec 4) : Word := (h.setWidth 9 <<< 4) ||| l.setWidth 9

/-- The inverse of `enc2` (R85). -/
def dec2 (b1 b2 : Byte) : Word := (((b1 &&& 0x1F).setWidth 9) <<< 4) ||| ((b2 &&& 0x0F).setWidth 9)

/-- `DRAIN_MARKER_MAP(j, c)`: the marker bit of payload byte `j` of `c` (R87, D4). -/
def drainMarkerMap (j c : Nat) : Nat := c - 1 - j

/-- The marker of a drain response: each word's 9th bit at the place `drainMarkerMap` gives it (R87, R89). -/
def markerOf (c : Nat) : Nat → List Word → BitVec 5
  | _, [] => 0
  | j, w :: ws => ((BitVec.ofBool w.isAddress).setWidth 5 <<< drainMarkerMap j c) ||| markerOf c (j + 1) ws

/-- `enc_drain` (R89): header byte, then the payload of each word, oldest first. -/
def encDrain (ws : List Word) : List Byte :=
  (((markerOf ws.length 0 ws).setWidth 8 <<< 3) ||| (BitVec.ofNat 8 ws.length)) :: ws.map Word.payload

/-- Payload byte `j` of `c` with marker `m`: `(m[c-1-j] << 8) | p` (R89, R221). -/
def drainWord (m : BitVec 5) (c j : Nat) (p : Byte) : Word :=
  ((BitVec.ofBool (m.getLsbD (drainMarkerMap j c))).setWidth 9 <<< 8) ||| p.setWidth 9

/-- The words of the payload bytes from byte `j` on. -/
def drainWords (m : BitVec 5) (c : Nat) : Nat → List Byte → List Word
  | _, [] => []
  | j, p :: ps => drainWord m c j p :: drainWords m c (j + 1) ps

/-- `dec_drain` (R89) of a whole response; `none` where the count is reserved (R88) or is not the number of payload bytes. -/
def decDrain : List Byte → Option (List Word)
  | [] => none
  | h :: ps =>
    let c := (h &&& 0x07).toNat
    if c ≤ 5 ∧ ps.length = c then some (drainWords (h.extractLsb' 3 5) c 0 ps) else none

/-! ## The opcode table's numbering -/

/-- The mode in which `decodeTableWord` reads a data word: 0x01 and 0x02 as the bootloader image's opcodes, every other word
as the application image's (log 20). -/
def tableMode (w : Word) : Mode := if w = 0x001 ∨ w = 0x002 then .boot else .app

/-- The position at which `decodeTableWord` reads a 9-bit word: the main loop of a selected slave, in the mode of
`tableMode`, whose application image has registered the opcode if it may be registered (R94; log 20). -/
def tablePosition (w : Word) : Position := .mainLoop true (tableMode w) [w.payload]

/-- The instruction the decoder reads from a row of opcode_table.json whose bits are `w`: an `L8` byte when the row has one
byte, a `W9` word at `tablePosition` when it has more. `none` where a bit above the format's width is set. -/
def decodeTableWord (nbits w : Nat) : Option Instr :=
  if nbits ≤ 8 then
    if w < 256 then (decode .link (.byte (BitVec.ofNat 8 w))).toOption else none
  else if w < 512 then (decode (tablePosition (BitVec.ofNat 9 w)) (.word (BitVec.ofNat 9 w))).toOption
  else none

end Sys2Proof
end

