-- ==== Sys2Proof/Machine/State.lean ====
section
/-! DEFINITION. The state of the block: the slaves, the link codec with the host link, the master, and the model's own
fields (10_state.md). -/

namespace Sys2Proof.Machine

/-- Direction of a buffer command (R30). -/
inductive Dir where
  | rd
  | wr
deriving DecidableEq, Repr, Inhabited

/-- What a slave does after it has discarded the echo of its reply (R30). -/
inductive Cont where
  | toMain
  | toAsProposal
  | toAsConfirm (p : Byte)
  | toBufAddr (dir : Dir) (i : Nat) (acc : BitVec 24)
  | toBufCount (dir : Dir) (addr : BitVec 24)
  | toRdDummy (rem : Nat)
  | toWrByte (rem : Nat)
  | toCommit
  | toModeSwitch (m : Mode)
  | toDevReply (rest : List Byte)
deriving DecidableEq, Repr, Inhabited

/-- The slave sequencer's position: the receive it waits at, with its locals (R30). -/
inductive Phase where
  | main
  | echo (cont : Cont)
  | asProposal
  | asConfirm (p : Byte)
  | bufAddr (dir : Dir) (i : Nat) (acc : BitVec 24)
  | bufCount (dir : Dir) (addr : BitVec 24)
  | rdDummy (rem : Nat)
  | wrByte (rem : Nat)
deriving DecidableEq, Repr, Inhabited

/-- The page buffer (R31). -/
structure PageBuffer where
  pageBase : BitVec 32
  cursor : Nat
  bytes : List Byte
  dirty : Bool
  region : Region
deriving DecidableEq, Repr, Inhabited

/-- One slave `S_k` (10_state.md sections 2 to 4). `board` is its configuration, which no step writes (log 1). -/
structure Slave where
  board : Board
  selected : Bool
  addressPending : Bool
  heldAddr : Byte
  mode : Mode
  idCursor : Nat
  rx : List Word
  phase : Phase
  page : Option PageBuffer
  flash : Memory
  eeprom : Memory
  devState : DevState
deriving DecidableEq, Repr, Inhabited

/-- The five error kinds (R250). -/
inductive ErrKind where
  | timeout
  | desync
  | protectedWrite
  | invalidAddress
  | bufferOverrun
deriving DecidableEq, Repr, Inhabited

/-- An operation the caller asks of the master: the four of R224 to R229, and the word primitives of R220, R222 and
R223, which a script of R100 uses one by one (log 8). -/
inductive Call where
  | hostSend (w : Word)
  | hostRecv
  | expect (v : Word)
  | expectData
  | select (a : Byte)
  | checkSlave (a : Byte)
  | readBuffer (a : Byte) (r : BitVec 32) (n : Nat)
  | writeBuffer (a : Byte) (r : BitVec 32) (n : Nat) (bs : List Byte)
deriving DecidableEq, Repr, Inhabited

/-- What a finished operation returns to its caller (R37). -/
inductive Return where
  | done
  | word (w : Word)
  | bytes (bs : List Byte)
  | err (k : ErrKind)
deriving DecidableEq, Repr, Inhabited

/-- The `LinkRead` of `host_drain` the master is suspended at (R221, R37): for the header byte, or for payload byte `j` of `c`
with marker `m`. -/
inductive Wait where
  | header
  | payload (m : BitVec 5) (c : Nat) (j : Nat)
deriving DecidableEq, Repr, Inhabited

/-- `M.phase` (R37): idle; suspended at a `LinkRead` in exchange `i` of the operation `call`, with the bytes `out` collected so
far and `late`, the local deadline of `host_recv`: whether `HOST_WORD_DEADLINE` has passed (there is no clock, R259; log 7); or
in the settle-delay sleep. -/
inductive MPhase where
  | idle
  | recv (call : Call) (i : Nat) (out : List Byte) (late : Bool) (wait : Wait)
  | sleep (call : Call)
deriving DecidableEq, Repr, Inhabited

/-- The master `M` (R35 to R37). -/
structure Master where
  pendingEchoDiscards : Nat
  ring : List Word
  phase : MPhase
deriving DecidableEq, Repr, Inhabited

/-- The link codec `X` (R38 to R40) and the two byte queues of the host link (R40, R64). -/
structure Link where
  hiLatch : Option (BitVec 5)
  fifo : List Word
  fault : Bool
  h2x : List Byte
  x2h : List Byte
deriving DecidableEq, Repr, Inhabited


/-- The whole state. `params` is configuration (log 1). The model's own fields: `active` is the slave whose sequencer runs
(log 5); `calls` and `returns` are the caller's side of the master (log 8); `agenda` lists the next turns and `ticks` counts
the turns taken from the free value `Config.freeTurn` (log 3). -/
structure State where
  params : Params
  slaves : List Slave
  link : Link
  master : Master
  active : Nat
  calls : List Call
  returns : List Return
  agenda : List Turn
  ticks : Nat
deriving DecidableEq, Repr, Inhabited

/-- Stops in states no run from a launch reaches: a precondition the spec gives an operation does not hold. Each is SAFE:
the model stops where the spec gives no effect. -/
inductive Fault where
  /-- The active slave's index names no slave. Raised by a slave's meaning when run outside a slave's step. Safe. -/
  | noSuchSlave
  /-- `get_byte`, `set_byte` or `commit` without a page buffer (R193 to R195 "Precondition: `S.page` is `some`"). Raised by
  `DATA` in phases RdDummy and WrByte and by the continuation ToCommit. Safe. -/
  | noPageBuffer
  /-- `DATA` run where the slave waits for no operand (R112). Raised by `DATA` in phases Main and Echo. Safe. -/
  | operandOutOfPlace
  /-- A drain response byte where the master reads none (R221). Raised by `DRAIN_HDR` and `DRAIN_PAYLOAD`. Safe. -/
  | drainByteOutOfPlace
deriving DecidableEq, Repr, Inhabited

/-- What the spec refuses (R16): situations it gives no meaning. -/
inductive Refusal where
  /-- An instruction the model gives no meaning yet. Raised by no arm of this model. Safe. -/
  | notModelled (mnemonic : String)
  /-- `set_address` to a page in no region (R58). Raised by `DATA` in phase BufCount. Safe. -/
  | unmappedPage
  /-- `DistinctAddresses` is broken (R268): two slaves would answer one word, or a slave would take an address another slave
  has. Raised by `ADDR`, by `DATA` in phase AsConfirm, by the continuation ToCommit and by a slave's step. Safe. -/
  | duplicateAddress
  /-- A 17th word for the master's ring (R221). Raised by `DRAIN_PAYLOAD`. Safe. -/
  | ringOverflow
  /-- `write_buffer` with a byte list whose length is not the count (R227). Raised by the master's start of an operation. Safe. -/
  | writeListLength
  /-- A device-specific handler that would read operand words (R183). Raised by `DEV_nn`. Safe. -/
  | handlerOperands
  /-- A device-specific handler whose reply count is not the promised one (R182). Raised by `DEV_nn`. Safe. -/
  | handlerContract
deriving DecidableEq, Repr, Inhabited

/-- What one step answers. -/
abbrev Out := Host.Outcome State Fault Refusal

/-- A slave after reset (R43, R280): media and device state as the board gives them at launch; `heldAddr` is unspecified and
DESIGN CHOICE 0 (log 14). -/
def Slave.resetOf (b : Board) : Slave where
  board := b
  selected := false
  addressPending := false
  heldAddr := 0
  mode := b.resetMode
  idCursor := 0
  rx := []
  phase := .main
  page := none
  flash := b.flashInit
  eeprom := b.eepromInit
  devState := b.devInit

/-- The master at link open (R43, R281). -/
def Master.reset : Master where
  pendingEchoDiscards := 0
  ring := []
  phase := .idle

/-- The link codec and the host link at launch (R43, R281). -/
def Link.reset : Link where
  hiLatch := none
  fifo := []
  fault := false
  h2x := []
  x2h := []

/-- The launch state of the instance with parameters `p` and one slave for each board of `bs` (R43). -/
def State.resetOf (p : Params) (bs : List Board) : State where
  params := p
  slaves := bs.map Slave.resetOf
  link := .reset
  master := .reset
  active := 0
  calls := []
  returns := []
  agenda := []
  ticks := 0

/-- The machine right after reset: every OPEN parameter of the spec has the value of the example configuration (log 2), with
two slaves at addresses 5 and 6 (95_test_vectors.md P1). Claims about launch use `State.resetOf`, for every instance. -/
def State.reset : State := State.resetOf Config.exampleParams [Config.exampleBoard 5, Config.exampleBoard 6]

end Sys2Proof.Machine
end

