-- ==== Sys2Proof/Machine/Ops.lean ====
section
/-! DEFINITION. The operations every meaning is written over: media, memory map, bus, receive queue, reply, and the two
aborts (00_scope.md R14 to R16, 20_memory.md, 40_word_codec.md R110 to R113, 60_exceptions.md R256, R257). -/

namespace Sys2Proof

/-! ## Media -/

/-- What a medium byte that is not listed reads as (log 13). -/
def Memory.blank : Byte := 0xFF

/-- `MemRead(space, a, 1)` (R14). -/
def Memory.read : Memory → Nat → Byte
  | [], _ => Memory.blank
  | (k, b) :: m, a => if a = k then b else Memory.read m a

/-- The entries of every address but `a`. -/
def Memory.erase (m : Memory) (a : Nat) : Memory := m.filter (fun c => decide (c.1 ≠ a))

/-- Enter `(a, b)` before the first higher address. -/
def Memory.insert : Memory → Nat → Byte → Memory
  | [], a, b => [(a, b)]
  | (k, c) :: m, a, b => if a < k then (a, b) :: (k, c) :: m else (k, c) :: Memory.insert m a b

/-- `MemWrite(space, a, 1, [b])` (R14), in canonical form: a byte equal to the blank byte is not listed. -/
def Memory.write (m : Memory) (a : Nat) (b : Byte) : Memory :=
  if b = Memory.blank then m.erase a else Memory.insert (m.erase a) a b

/-- The canonical form: addresses strictly rising, no entry equal to the blank byte. -/
def Memory.wf : Memory → Bool
  | [] => true
  | (k, b) :: m => decide (b ≠ Memory.blank) && m.all (fun c => decide (k < c.1)) && Memory.wf m

/-- `MemRead(space, a, n)` (R14): `n` bytes, lowest address first. -/
def Memory.readBytes (m : Memory) : Nat → Nat → List Byte
  | _, 0 => []
  | a, n + 1 => m.read a :: Memory.readBytes m (a + 1) n

/-- `MemWrite(space, a, n, v)` (R14), in ascending address order (R61). -/
def Memory.writeBytes : Memory → Nat → List Byte → Memory
  | m, _, [] => m
  | m, a, b :: bs => Memory.writeBytes (m.write a b) (a + 1) bs

/-- The 16-bit program words of a page: `word[j] = bytes[2j] | (bytes[2j+1] << 8)` (R53, R197). -/
def flashWords : List Byte → List (BitVec 16)
  | lo :: hi :: bs => (lo.setWidth 16 ||| (hi.setWidth 16 <<< 8)) :: flashWords bs
  | _ => []

/-- `flash_page_program(base, words)` (R197): the low half of word `j` at `base + 2j`, the high half at `base + 2j + 1`.
Every byte of the page is programmed, so the erase before it leaves nothing behind (R195 (c); log 23). -/
def Memory.programWords : Memory → Nat → List (BitVec 16) → Memory
  | m, _, [] => m
  | m, a, w :: ws => Memory.programWords ((m.write a (w.setWidth 8)).write (a + 1) ((w >>> 8).setWidth 8)) (a + 2) ws

/-! ## A board's memory map -/

/-- `PAGE_SIZE` (R9). -/
def Board.pageSize (b : Board) : Nat := 2 ^ (b.pageExp.val + 1)

/-- `PAGE_SIZE - 1` at 32 bits (R11). -/
def Board.pageMask (b : Board) : BitVec 32 := BitVec.ofNat 32 (b.pageSize - 1)

/-- `addr & ~(PAGE_SIZE-1)` (R191). -/
def Board.pageBase (b : Board) (addr : BitVec 32) : BitVec 32 := addr &&& ~~~b.pageMask

/-- `addr & (PAGE_SIZE-1)` (R191). -/
def Board.pageOffset (b : Board) (addr : BitVec 32) : Nat := (addr &&& b.pageMask).toNat

/-- Whether a range of the map holds an address: whole pages (R54 (a)). -/
def MapRange.holds (r : MapRange) (b : Board) (addr : BitVec 32) : Bool :=
  decide (r.firstPage ≤ addr.toNat / b.pageSize) && decide (addr.toNat / b.pageSize < r.firstPage + r.pages)

/-- The range of the map that holds an address: the first listed, so that the classes are disjoint (R54 (b)). -/
def Board.rangeAt (b : Board) (addr : BitVec 32) : Option MapRange := b.ranges.find? (fun r => r.holds b addr)

/-- `classify` (R54); `none` is `Unmapped` (R54 (c)). -/
def Board.classify (b : Board) (addr : BitVec 32) : Option Region := (b.rangeAt addr).map MapRange.kind

/-- `ee_offset` (R55): page-linear inside a range; read only of EepromArea addresses. -/
def Board.eeOffset (b : Board) (addr : BitVec 32) : Nat :=
  match b.rangeAt addr with
  | some r => r.eeBase + (addr.toNat - r.firstPage * b.pageSize)
  | none => 0

/-- The registered handler of an opcode (R181). -/
def Board.handler (b : Board) (d : Byte) : Option Handler := b.appTable.find? (fun h => h.opcode == d)

/-- The opcodes `CMD_TABLE_APP[k]` registers. -/
def Board.registered (b : Board) : List Byte := b.appTable.map Handler.opcode

end Sys2Proof

namespace Sys2Proof.Machine

/-! ## Slaves of the state -/

/-- `S.address` (R21): the byte of the EEPROM at offset 0. -/
def Slave.address (S : Slave) : Byte := S.eeprom.read 0

/-- The main loop's decode position of a slave (R102). -/
def Slave.mainPosition (S : Slave) : Position := .mainLoop S.selected S.mode S.board.registered

/-- The slave whose sequencer runs. -/
def State.activeSlave (s : State) : Option Slave := s.slaves[s.active]?

/-- Replace the active slave. -/
def State.putSlave (s : State) (S : Slave) : State := { s with slaves := s.slaves.set s.active S }

/-- Run a meaning on the active slave. -/
def withSlave (s : State) (f : Slave → Out) : Out :=
  match s.activeSlave with
  | some S => f S
  | none => .fault .noSuchSlave

/-- Another slave has the same bus address as slave `k` holds in `S` (R268). -/
def State.sharesAddress (s : State) (k : Nat) (S : Slave) : Bool :=
  s.slaves.zipIdx.any (fun p => decide (p.2 ≠ k) && decide (p.1.address = S.address))

/-- The active slave `S`, about to become `S'`, would take an address that another slave has (R268, R291). -/
def State.takesUsedAddress (s : State) (S S' : Slave) : Bool :=
  decide (S'.address ≠ S.address) && s.sharesAddress s.active S'

/-- Another selected slave has the same bus address as the selected slave `S` at index `k`: both would answer the next word
(R268). -/
def State.collides (s : State) (k : Nat) (S : Slave) : Bool :=
  S.selected && s.slaves.zipIdx.any (fun p => decide (p.2 ≠ k) && p.1.selected && decide (p.1.address = S.address))

/-! ## The bus -/

/-- A word arrives in a slave's queue (R62). -/
def Slave.deliver (w : Word) (S : Slave) : Slave := { S with rx := S.rx ++ [w] }

/-- A word arrives at `X`: queued, or, when the FIFO is full, dropped with the fault set (R62, R128). -/
def Link.deliver (depth : Nat) (w : Word) (X : Link) : Link :=
  if X.fifo.length < depth then { X with fifo := X.fifo ++ [w] } else { X with fault := true }

/-- `BusTx(A, w)` (R62): one atomic event, the same for every sender, which receives its own word too. -/
def State.busTx (s : State) (w : Word) : State :=
  { s with slaves := s.slaves.map (Slave.deliver w), link := s.link.deliver s.params.xfifoDepth w }

/-- `reply(S, w, cont)` (R113): the active slave, now `S`, transmits `w` and waits to discard its echo. -/
def State.reply (s : State) (S : Slave) (w : Word) (cont : Cont) : State :=
  (s.putSlave { S with phase := .echo cont }).busTx w

/-! ## Receiving -/

/-- Take a word: an address word sets `address_pending` and `held_addr` (R111). -/
def Slave.noteWord (S : Slave) (w : Word) : Slave :=
  if w.isAddress then { S with addressPending := true, heldAddr := w.payload } else S

/-- `dev_recv(S)` (R111); `none` while the queue is empty. -/
def Slave.recv (S : Slave) : Option (Word × Slave) :=
  match S.rx with
  | [] => none
  | w :: ws => some (w, Slave.noteWord { S with rx := ws } w)

/-- What a data receive finds (R112). -/
inductive RecvData where
  /-- A data word. -/
  | ok (d : Byte) (S : Slave)
  /-- An error of the receive. -/
  | err (k : ErrKind) (S : Slave)
  /-- Nothing yet: the slave waits. -/
  | wait
deriving DecidableEq, Repr

/-- `dev_recv_data(S)` (R112) without its timeout alternative. -/
def Slave.recvData (S : Slave) : RecvData :=
  if S.addressPending then .err .invalidAddress S
  else match S.recv with
    | none => .wait
    | some (w, S') => if w.isAddress then .err .invalidAddress S' else .ok w.payload S'

/-- The timeout alternative of `dev_recv_data(S)` (R112): only with an empty queue, no pending address (R260) and a finite
`DEV_RX_TIMEOUT`. -/
def Slave.recvTimesOut (S : Slave) : Bool := !S.addressPending && S.rx.isEmpty && S.board.devRxTimeout.isSome

/-- The main loop's receive (R141): the held address word if one is pending, else the oldest word; an address word is taken
for processing at once. `none` while there is neither. -/
def Slave.takeMain (S : Slave) : Option (Word × Slave) :=
  if S.addressPending then some (Word.address S.heldAddr, { S with addressPending := false })
  else match S.recv with
    | none => none
    | some (w, S') => some (w, { S' with addressPending := false })

/-! ## Errors -/

/-- Taking an error on a slave (R256, R206, R167): the command ends, the phase returns to `Main`; nothing is sent, nothing is
saved and nothing else changes. There is no return from it: the main loop goes on with the next word. -/
def Slave.abort (S : Slave) : Slave := { S with phase := .main }

/-- End the master's operation with a result for its caller (R37). -/
def State.finish (s : State) (r : Return) : State :=
  { s with master := { s.master with phase := .idle }, returns := s.returns ++ [r] }

/-- `raise E` on the master (R16, R230, R257): the operation ends with `Err(E)`, the phase is `Idle`, nothing further is sent.
There is no return from it. -/
def State.raise (s : State) (k : ErrKind) : State := s.finish (.err k)

/-! ## Mode switch -/

/-- `mode_switch(S, m)` (R48): a new session; the media stay. -/
def Slave.modeSwitch (S : Slave) (m : Mode) : Slave :=
  { S with
    mode := m
    selected := false
    addressPending := false
    idCursor := 0
    rx := []
    page := none
    phase := .main
    devState := match m with
      | .app => S.board.devInit
      | .boot => S.devState }

end Sys2Proof.Machine
end

