-- ==== Sys2Proof/Machine/Flags.lean ====
section
/-! DEFINITION. The one-bit state (10_state.md R41): `selected`, `address_pending`, `dirty`, `X.fault`. The block has no
condition codes. `address_pending` is written by the receives of Ops.lean only. -/

namespace Sys2Proof.Machine

/-- Write `S.selected`: by `ADDR` and `DESELECT` only (R24, R41). -/
def Slave.setSelected (S : Slave) (v : Bool) : Slave := { S with selected := v }

/-- Set the sticky `X.fault` (R40). -/
def State.setFault (s : State) : State := { s with link := { s.link with fault := true } }

/-- The byte under the cursor is written: `dirty` is set (R194). -/
def PageBuffer.put (p : PageBuffer) (pageSize : Nat) (b : Byte) : PageBuffer :=
  { p with bytes := p.bytes.set p.cursor b, cursor := (p.cursor + 1) % pageSize, dirty := true }

/-- The cursor moves on after a read; `dirty` is unchanged (R193). -/
def PageBuffer.advance (p : PageBuffer) (pageSize : Nat) : PageBuffer :=
  { p with cursor := (p.cursor + 1) % pageSize }

/-- After a commit: `dirty` is clear (R195). -/
def PageBuffer.clean (p : PageBuffer) : PageBuffer := { p with dirty := false }

end Sys2Proof.Machine
end

