-- ==== Sys2Proof/Machine/Selection.lean ====
section
/-! DEFINITION. `ADDR`, a data word while unselected, and `DESELECT` (41_selection.md). -/

namespace Sys2Proof.Machine

/-- A command of the dispatch tables runs only while the slave is selected; otherwise its word is a data word while
unselected and is ignored (R145, R147; log 15). -/
def whenSelected (s : State) (f : Slave → Out) : Out :=
  withSlave s fun S => if S.selected then f S else .next s

/-- `ADDR a` (R143). Two slaves with the address would both answer: refused (R268; log 11). -/
def execAddr (a : Byte) (s : State) : Out :=
  withSlave s fun S =>
    if a = S.address then
      if s.sharesAddress s.active S then .refused .duplicateAddress
      else .next (s.reply (S.setSelected true) Word.ack .toMain)
    else .next (s.putSlave (S.setSelected false))

/-- A data word while unselected (R145): ignored. -/
def execDataUnselected (_d : Byte) (s : State) : Out := .next s

/-- `DESELECT` (R146). -/
def execDeselect (s : State) : Out :=
  whenSelected s fun S => .next (s.reply (S.setSelected false) Word.nack .toMain)

end Sys2Proof.Machine
end

