-- ==== Sys2Proof/Machine/Dispatcher.lean ====
section
/-! DEFINITION. The per-image dispatcher: device-specific handlers and unregistered opcodes (43_dispatcher.md). -/

namespace Sys2Proof.Machine

/-- `send_list(S, rs)` (R184): the reply words of a device-specific handler, one at a time. -/
def State.sendList (s : State) (S : Slave) : List Byte → State
  | [] => s.putSlave { S with phase := .main }
  | r :: t => s.reply S (Word.data r) (.toDevReply t)

/-- A handler's function (R182): its listed part, elsewhere the free values, with the promised number of replies (log 9). -/
def handlerFunction (h : Handler) (image : Nat) (st : DevState) : DevState × List Byte :=
  match h.known.find? (fun e => e.1 == st) with
  | some e => e.2
  | none => (Config.devState image h.opcode st, (List.range h.replies).map (Config.devReply image h.opcode st))

/-- `run_dev(S, d, f)` (R184), refusing a handler outside the admitted subset (R182, R183; log 10). -/
def runHandler (h : Handler) (S : Slave) (s : State) : Out :=
  if h.operands ≠ 0 then .refused .handlerOperands
  else
    let r := handlerFunction h S.board.image S.devState
    if r.2.length ≠ h.replies then .refused .handlerContract
    else .next (s.sendList { S with devState := r.1 } r.2)

/-- A device-specific opcode (R180, R184): the registered handler of the application image; an opcode that is not registered,
or any in `Boot` mode, is ignored (R97, R185; log 15). -/
def runDev (d : Byte) (s : State) : Out :=
  whenSelected s fun S =>
    match S.mode with
    | .boot => .next s
    | .app =>
      match S.board.handler d with
      | none => .next s
      | some h => runHandler h S s

/-- `DEV_00` (R184). -/
def execDev00 (s : State) : Out := runDev 0x00 s
/-- `DEV_01` (R184). -/
def execDev01 (s : State) : Out := runDev 0x01 s
/-- `DEV_02` (R184). -/
def execDev02 (s : State) : Out := runDev 0x02 s
/-- `DEV_03` (R184). -/
def execDev03 (s : State) : Out := runDev 0x03 s
/-- `DEV_04` (R184). -/
def execDev04 (s : State) : Out := runDev 0x04 s
/-- `DEV_05` (R184). -/
def execDev05 (s : State) : Out := runDev 0x05 s
/-- `DEV_06` (R184). -/
def execDev06 (s : State) : Out := runDev 0x06 s
/-- `DEV_07` (R184). -/
def execDev07 (s : State) : Out := runDev 0x07 s
/-- `DEV_08` (R184). -/
def execDev08 (s : State) : Out := runDev 0x08 s
/-- `DEV_09` (R184). -/
def execDev09 (s : State) : Out := runDev 0x09 s
/-- `DEV_0A` (R184). -/
def execDev0A (s : State) : Out := runDev 0x0A s

/-- An unregistered opcode (R185): no reply and no state change. -/
def execUnregistered (_d : Byte) (s : State) : Out := .next s

end Sys2Proof.Machine
end

