-- ==== Sys2Proof/Machine/Operands.lean ====
section
/-! DEFINITION. Operand forms: the address and count of a buffer command, on both ends (30_encoding.md R90, R91). -/

namespace Sys2Proof.Machine

/-- One more address byte: `acc' = (acc << 8) | b` at 24 bits (R203). -/
def accAddress (acc : BitVec 24) (b : Byte) : BitVec 24 := (acc <<< 8) ||| b.setWidth 24

/-- `zext_32(addr)` of the 24-bit address on the wire (R51). -/
def wireAddress (addr : BitVec 24) : BitVec 32 := addr.setWidth 32

/-- The byte count a count byte denotes: 0 means 256 (R91). -/
def countOf (cb : Byte) : Nat := if cb = 0 then 256 else cb.toNat

/-- The count byte of a count in 1..256: `count & 0xFF` (R91). -/
def countByte (n : Nat) : Byte := BitVec.ofNat 8 n

/-- The three address bytes of a region address, most-significant first (R90). -/
def addressBytes (r : BitVec 32) : List Byte := [r.extractLsb' 16 8, r.extractLsb' 8 8, r.extractLsb' 0 8]

/-- `r[31:24] = 0`: the region address fits the wire (R90, R227). -/
def fitsWire (r : BitVec 32) : Bool := r.extractLsb' 24 8 == 0

end Sys2Proof.Machine
end

