-- ==== Sys2Proof/Machine/PageProgrammer.lean ====
section
/-! DEFINITION. The page programmer's four operations (44_page_programmer.md R190 to R200). -/

namespace Sys2Proof.Machine

/-- The buffer `set_address` fills for a page of class `reg` at `base`: the medium's bytes, or 0xFF for BootloaderArea, whose
contents are not read (R191, R57). -/
def Slave.pageContents (S : Slave) (reg : Region) (base : BitVec 32) : List Byte :=
  match reg with
  | .appArea => S.flash.readBytes base.toNat S.board.pageSize
  | .eepromArea => S.eeprom.readBytes (S.board.eeOffset base) S.board.pageSize
  | .bootloaderArea => List.replicate S.board.pageSize 0xFF

/-- `set_address(addr)` (R191): `none` for an `Unmapped` page, which is refused (R58). -/
def Slave.setAddress (S : Slave) (addr : BitVec 32) : Option Slave :=
  let base := S.board.pageBase addr
  match S.board.classify base with
  | none => none
  | some reg =>
    some { S with
      page := some {
        pageBase := base
        cursor := S.board.pageOffset addr
        bytes := S.pageContents reg base
        dirty := false
        region := reg } }

/-- `get_byte()` (R193): `none` without a page buffer. -/
def Slave.getByte (S : Slave) : Option (Byte × Slave) :=
  match S.page with
  | none => none
  | some p => some (p.bytes.getD p.cursor 0, { S with page := some (p.advance S.board.pageSize) })

/-- `set_byte(b)` (R194): `none` without a page buffer. -/
def Slave.setByte (S : Slave) (b : Byte) : Option Slave :=
  match S.page with
  | none => none
  | some p => some { S with page := some (p.put S.board.pageSize b) }

/-- What `commit` does to the media for a dirty page (R195): flash words for AppArea, EEPROM bytes in ascending order for
EepromArea, and for BootloaderArea nothing (`ProtectedWrite`, silently dropped, R253). -/
def Slave.writeBack (S : Slave) (p : PageBuffer) : Slave :=
  match p.region with
  | .appArea => { S with flash := S.flash.programWords p.pageBase.toNat (flashWords p.bytes) }
  | .eepromArea => { S with eeprom := S.eeprom.writeBytes (S.board.eeOffset p.pageBase) p.bytes }
  | .bootloaderArea => S

/-- The error kind that names a commit's outcome (R253): no reply and no flag shows it. -/
def PageBuffer.commitError (p : PageBuffer) : Option ErrKind :=
  if p.dirty && p.region == .bootloaderArea then some .protectedWrite else none

/-- `commit()` (R195): `none` without a page buffer. -/
def Slave.commit (S : Slave) : Option Slave :=
  match S.page with
  | none => none
  | some p =>
    let S' := if p.dirty then S.writeBack p else S
    some { S' with page := some p.clean }

end Sys2Proof.Machine
end

