-- ==== Sys2Proof/Machine/Universal.lean ====
section
/-! DEFINITION. The universal commands: identity streaming, address assignment, bootloader entry and exit
(42_universal_commands.md). -/

namespace Sys2Proof.Machine

/-- `ID_START` (R160): cursor to 0, reply the descriptor's length. -/
def execIdStart (s : State) : Out :=
  whenSelected s fun S =>
    .next (s.reply { S with idCursor := 0 } (Word.data (BitVec.ofNat 8 S.board.desc.length)) .toMain)

/-- `ID_NEXT` (R161): one descriptor byte, or the sentinel past the end. -/
def execIdNext (s : State) : Out :=
  whenSelected s fun S =>
    match S.board.desc[S.idCursor]? with
    | some b => .next (s.reply { S with idCursor := S.idCursor + 1 } (Word.data b) .toMain)
    | none => .next (s.reply S Word.sentinel .toMain)

/-- `ADDR_SET` (R164), step 1: reply the current address. Steps 2 and 3 take operand words. -/
def execAddrSet (s : State) : Out :=
  whenSelected s fun S => .next (s.reply S (Word.data S.address) .toAsProposal)

/-- `ADDR_SET`, step 2 (R164): the proposal, echoed. -/
def addrSetProposal (p : Byte) (S : Slave) (s : State) : Out :=
  .next (s.reply S (Word.data p) (.toAsConfirm p))

/-- `ADDR_SET`, step 3 (R164, R166): persist the address on a matching confirmation. An address another slave has is refused
(R268; log 11). -/
def addrSetConfirm (p c : Byte) (S : Slave) (s : State) : Out :=
  if c = p then
    let S' := { S with eeprom := S.eeprom.write 0 p }
    if s.takesUsedAddress S S' then .refused .duplicateAddress
    else .next (s.reply S' Word.ack .toMain)
  else .next (s.reply S Word.nack .toMain)

/-- `BOOT_ENTER` (R168): ACK; switch to `Boot` if in `App`. -/
def execBootEnter (s : State) : Out :=
  whenSelected s fun S =>
    match S.mode with
    | .app => .next (s.reply S Word.ack (.toModeSwitch .boot))
    | .boot => .next (s.reply S Word.ack .toMain)

/-- `BOOT_EXIT` (R170): ACK; switch to `App` if in `Boot`. -/
def execBootExit (s : State) : Out :=
  whenSelected s fun S =>
    match S.mode with
    | .boot => .next (s.reply S Word.ack (.toModeSwitch .app))
    | .app => .next (s.reply S Word.ack .toMain)

end Sys2Proof.Machine
end

