-- ==== Sys2Proof/Machine/Buffer.lean ====
section
/-! DEFINITION. The buffer commands, slave side, the operand words of every multi-word command, and the continuations
(44_page_programmer.md R202 to R206; 10_state.md R30). -/

namespace Sys2Proof.Machine

/-- The opcode of a buffer command (R203): ACK, then the address bytes; registered in `CMD_TABLE_BOOT` only, so ignored in
`App` mode (R181, R185; log 15). -/
def startBuffer (dir : Dir) (s : State) : Out :=
  whenSelected s fun S =>
    match S.mode with
    | .boot => .next (s.reply S Word.ack (.toBufAddr dir 0 0))
    | .app => .next s

/-- `RD_BUF` (R203). -/
def execRdBuf (s : State) : Out := startBuffer .rd s

/-- `WR_BUF` (R204). -/
def execWrBuf (s : State) : Out := startBuffer .wr s

/-- Phase BufAddr (R203): echo address byte `i`. -/
def bufferAddress (dir : Dir) (i : Nat) (acc : BitVec 24) (b : Byte) (S : Slave) (s : State) : Out :=
  if i < 2 then .next (s.reply S (Word.data b) (.toBufAddr dir (i + 1) (accAddress acc b)))
  else .next (s.reply S (Word.data b) (.toBufCount dir (accAddress acc b)))

/-- Phase BufCount (R203): open the page, echo the count byte. -/
def bufferCount (dir : Dir) (addr : BitVec 24) (cb : Byte) (S : Slave) (s : State) : Out :=
  match S.setAddress (wireAddress addr) with
  | none => .refused .unmappedPage
  | some S' =>
    match dir with
    | .rd => .next (s.reply S' (Word.data cb) (.toRdDummy (countOf cb)))
    | .wr => .next (s.reply S' (Word.data cb) (.toWrByte (countOf cb)))

/-- Phase RdDummy (R203): answer a dummy, whatever its value, with the next byte. -/
def readDummy (rem : Nat) (S : Slave) (s : State) : Out :=
  match S.getByte with
  | none => .fault .noPageBuffer
  | some (b, S') =>
    if rem > 1 then .next (s.reply S' (Word.data b) (.toRdDummy (rem - 1)))
    else .next (s.reply S' (Word.data b) .toMain)

/-- Phase WrByte (R204): buffer a byte and echo it; the commit follows the last echo (R205). -/
def writeByte (rem : Nat) (b : Byte) (S : Slave) (s : State) : Out :=
  match S.setByte b with
  | none => .fault .noPageBuffer
  | some S' =>
    if rem > 1 then .next (s.reply S' (Word.data b) (.toWrByte (rem - 1)))
    else .next (s.reply S' (Word.data b) .toCommit)

/-- `DATA d` (R112): the operand word a waiting command takes, by the phase it waits in. -/
def execData (d : Byte) (s : State) : Out :=
  withSlave s fun S =>
    match S.phase with
    | .asProposal => addrSetProposal d S s
    | .asConfirm p => addrSetConfirm p d S s
    | .bufAddr dir i acc => bufferAddress dir i acc d S s
    | .bufCount dir addr => bufferCount dir addr d S s
    | .rdDummy rem => readDummy rem S s
    | .wrByte rem => writeByte rem d S s
    | .main | .echo _ => .fault .operandOutOfPlace

/-- `run cont` (R113, R30): the active slave, now `S`, has discarded its echo. A commit that writes EEPROM offset 0 so that the slave
takes an address another slave has is refused (R268; log 11). -/
def runCont (c : Cont) (S : Slave) (s : State) : Out :=
  match c with
  | .toMain => .next (s.putSlave { S with phase := .main })
  | .toAsProposal => .next (s.putSlave { S with phase := .asProposal })
  | .toAsConfirm p => .next (s.putSlave { S with phase := .asConfirm p })
  | .toBufAddr dir i acc => .next (s.putSlave { S with phase := .bufAddr dir i acc })
  | .toBufCount dir addr => .next (s.putSlave { S with phase := .bufCount dir addr })
  | .toRdDummy rem => .next (s.putSlave { S with phase := .rdDummy rem })
  | .toWrByte rem => .next (s.putSlave { S with phase := .wrByte rem })
  | .toCommit =>
    match S.commit with
    | none => .fault .noPageBuffer
    | some S' =>
      if s.takesUsedAddress S S' then .refused .duplicateAddress
      else .next (s.putSlave { S' with phase := .main })
  | .toModeSwitch m => .next (s.putSlave (S.modeSwitch m))
  | .toDevReply rest => .next (s.sendList S rest)

end Sys2Proof.Machine
end

