-- ==== Sys2Proof/Machine/LinkCodec.lean ====
section
/-! DEFINITION. The link codec `X` (40_word_codec.md R120 to R128): the byte has been popped from `L.h2x`. -/

namespace Sys2Proof.Machine

/-- `DRAIN_MAX` (R8, D5). -/
def drainMax : Nat := 5

/-- `LINK_HI` (R121): latch the first half; with one latched already the fault is set and the latch kept (R125). -/
def execLinkHi (h : BitVec 5) (s : State) : Out :=
  match s.link.hiLatch with
  | none => .next { s with link := { s.link with hiLatch := some h } }
  | some _ => .next s.setFault

/-- `LINK_LO` (R122): the word is complete and is transmitted; without a first half the fault is set (R124). -/
def execLinkLo (l : BitVec 4) (s : State) : Out :=
  match s.link.hiLatch with
  | some h => .next (State.busTx { s with link := { s.link with hiLatch := none } } (wordOfHalves h l))
  | none => .next s.setFault

/-- `LINK_DRAIN` (R123, R126): the oldest words, at most `DRAIN_MAX`, are reported and removed. -/
def execLinkDrain (s : State) : Out :=
  .next { s with
    link := { s.link with
      fifo := s.link.fifo.drop drainMax
      x2h := s.link.x2h ++ encDrain (s.link.fifo.take drainMax) } }

/-- A reserved link byte (R127): the fault is set. -/
def execLinkReserved (_b : Byte) (s : State) : Out := .next s.setFault

end Sys2Proof.Machine
end

