-- ==== Sys2Proof/Machine/Master.lean ====
section
/-! DEFINITION. The bus master driver (45_master_driver.md). -/

namespace Sys2Proof.Machine

/-- `HOST_RING_DEPTH` (R8, R36). -/
def hostRingDepth : Nat := 16

/-- `LinkWrite` of some bytes (R15, R64); it always completes (R220). -/
def State.linkWrite (s : State) (bs : List Byte) : State := { s with link := { s.link with h2x := s.link.h2x ++ bs } }

/-- `host_send(w)` (R220): two link bytes back to back, one more echo to discard. -/
def State.hostSend (s : State) (w : Word) : State :=
  let t := s.linkWrite [(enc2 w).1, (enc2 w).2]
  { t with master := { t.master with pendingEchoDiscards := t.master.pendingEchoDiscards + 1 } }

/-- What a reply must be (R222, R223). -/
inductive Check where
  /-- `host_recv`: any word, returned. -/
  | word
  /-- `expect(v)`. -/
  | expect (v : Word)
  /-- `expect_data()`: any data byte, collected. -/
  | data
deriving DecidableEq, Repr, Inhabited

/-- One exchange of an operation: the word sent, if any, and what the reply must be. -/
structure Exchange where
  send : Option Word
  check : Check
deriving DecidableEq, Repr, Inhabited

/-- Send a data byte and expect it echoed (R226). -/
def echoed (b : Byte) : Exchange := { send := some (Word.data b), check := .expect (Word.data b) }

/-- `select(a)` (R224). -/
def selectExchange (a : Byte) : Exchange := { send := some (Word.address a), check := .expect Word.ack }

/-- `buffer_prefix` (R226): select, opcode, three address bytes, count byte. -/
def bufferPrefix (a op : Byte) (r : BitVec 32) (n : Nat) : List Exchange :=
  [selectExchange a, { send := some (Word.data op), check := .expect Word.ack }]
    ++ (addressBytes r).map echoed ++ [echoed (countByte n)]

/-- The exchanges of an operation in order (R222 to R229). -/
def Call.exchanges : Call → List Exchange
  | .hostSend _ => []
  | .hostRecv => [{ send := none, check := .word }]
  | .expect v => [{ send := none, check := .expect v }]
  | .expectData => [{ send := none, check := .data }]
  | .select a => [selectExchange a]
  | .checkSlave a => [selectExchange a, { send := some (Word.data 0xFB), check := .expect Word.ack }]
  | .readBuffer a r n =>
    bufferPrefix a 0x01 r n ++ List.replicate n { send := some (Word.data 0x00), check := .data }
  | .writeBuffer a r n bs => bufferPrefix a 0x02 r n ++ bs.map echoed

/-- The argument checks (R227, R260): `BufferOverrun` before `InvalidAddress`, both before any traffic. -/
def Call.argError : Call → Option ErrKind
  | .readBuffer _ r n | .writeBuffer _ r n _ =>
    if n < 1 ∨ 256 < n then some .bufferOverrun
    else if fitsWire r then none else some .invalidAddress
  | .hostSend _ | .hostRecv | .expect _ | .expectData | .select _ | .checkSlave _ => none

/-- `write_buffer`'s list has exactly `n` bytes (R227). -/
def Call.lengthOk : Call → Bool
  | .writeBuffer _ _ n bs => bs.length == n
  | _ => true

/-- The operation is over (R224 to R229): a result for the caller, or the settle-delay sleep of `check_slave` (R225). -/
def State.completeCall (s : State) (call : Call) (out : List Byte) : State :=
  match call with
  | .checkSlave _ => { s with master := { s.master with phase := .sleep call } }
  | .readBuffer _ _ _ | .expectData => s.finish (.bytes out)
  | .hostSend _ | .hostRecv | .expect _ | .select _ | .writeBuffer _ _ _ _ => s.finish .done

/-- Send the word of an exchange, if it has one. -/
def State.sendExchange (s : State) (e : Exchange) : State :=
  match e.send with
  | some w => s.hostSend w
  | none => s

/-- What a reply `w` to exchange `i` makes of the bytes collected (R223, R260: bit 8 before the value): the operation goes on
with the bytes of `.ok`, or is over with the result of `.error`. -/
def Call.checkReply (call : Call) (i : Nat) (out : List Byte) (w : Word) : Except Return (List Byte) :=
  match call.exchanges[i]? with
  | none => .ok out
  | some e =>
    match e.check with
    | .word => .error (.word w)
    | .expect v =>
      if w.isAddress then .error (.err .invalidAddress)
      else if w ≠ v then .error (.err .desync)
      else .ok out
    | .data =>
      if w.isAddress then .error (.err .invalidAddress)
      else .ok (out ++ [w.payload])

/-- How far the master runs on the words of its ring. -/
inductive Progress where
  /-- The ring is empty in exchange `i` (R222): the loop drains, or raises `Timeout` when the deadline has passed. -/
  | empty (call : Call) (i : Nat) (out : List Byte) (s : State)
  /-- The operation is over, or asleep. -/
  | rest (s : State)
deriving DecidableEq, Repr

/-- The loop of `host_recv` (R222) on the words of the ring, oldest first: each is a discarded echo, unchecked, or the reply; after a
good reply the next exchange's word is sent and its `host_recv` goes on with the words left; after the last the operation is over. -/
def hostRecv (call : Call) : Nat → List Byte → List Word → State → Progress
  | i, out, [], s => .empty call i out { s with master := { s.master with ring := [] } }
  | i, out, w :: ws, s =>
    if 0 < s.master.pendingEchoDiscards then
      hostRecv call i out ws
        { s with master := { s.master with ring := ws, pendingEchoDiscards := s.master.pendingEchoDiscards - 1 } }
    else
      let t := { s with master := { s.master with ring := ws } }
      match call.checkReply i out w with
      | .error r => .rest (t.finish r)
      | .ok out' =>
        match call.exchanges[i + 1]? with
        | none => .rest (t.completeCall call out')
        | some e => hostRecv call (i + 1) out' ws (t.sendExchange e)

/-- The choice of `host_recv` with an empty ring (R222): `Timeout` where the deadline has passed, otherwise `host_drain` requests the
words and suspends at its header byte (R221). -/
def Progress.settle (late : Bool) : Progress → State
  | .rest s => s
  | .empty call i out s =>
    if late then s.raise .timeout
    else
      let t := s.linkWrite [0xB0]
      { t with master := { t.master with phase := .recv call i out false .header } }

/-- Run an operation whose arguments have passed the checks, from its first exchange. -/
def beginCall (call : Call) (s : State) : Progress :=
  match call with
  | .hostSend w => .rest ((s.hostSend w).finish .done)
  | _ =>
    match call.exchanges[0]? with
    | none => .rest (s.completeCall call [])
    | some e => hostRecv call 0 [] s.master.ring (s.sendExchange e)

/-- Start an operation when idle (R232): argument checks (R227), then its exchanges up to the first `LinkRead`. -/
def startCall (late : Bool) (call : Call) (s : State) : Out :=
  match call.argError with
  | some k => .next (s.raise k)
  | none =>
    if !call.lengthOk then .refused .writeListLength
    else .next ((beginCall call s).settle late)

/-- `DRAIN_HDR` (R221, R88): the header byte of a drain response, read by the master. -/
def execDrainHdr (m : BitVec 5) (c : BitVec 3) (s : State) : Out :=
  match s.master.phase with
  | .recv call i out late .header =>
    if c.toNat > 5 then .next (s.raise .desync)
    else if c = 0 then .next ((hostRecv call i out s.master.ring s).settle late)
    else .next { s with master := { s.master with phase := .recv call i out late (.payload m c.toNat 0) } }
  | _ => .fault .drainByteOutOfPlace

/-- `DRAIN_PAYLOAD` (R221, R87): payload byte `j`, pushed on the ring with its 9th bit; after the last, `host_recv` goes on. -/
def execDrainPayload (p : Byte) (s : State) : Out :=
  match s.master.phase with
  | .recv call i out late (.payload m c j) =>
    if hostRingDepth ≤ s.master.ring.length then .refused .ringOverflow
    else
      let ring := s.master.ring ++ [drainWord m c j p]
      if j + 1 < c then
        .next { s with master := { s.master with ring := ring, phase := .recv call i out late (.payload m c (j + 1)) } }
      else .next ((hostRecv call i out ring s).settle late)
  | _ => .fault .drainByteOutOfPlace

/-- The master's timeouts (R221, R222, R251, R259). At a `LinkRead` with no byte there, the read times out and the operation ends; with
one there, the deadline of `host_recv` passes meanwhile; an operation may start with its first deadline passed. -/
def timeoutMaster (s : State) : Out :=
  match s.master.phase with
  | .recv call i out _ wait =>
    if s.link.x2h.isEmpty then .next (s.raise .timeout)
    else .next { s with master := { s.master with phase := .recv call i out true wait } }
  | .idle =>
    match s.calls with
    | [] => .next s
    | c :: cs => startCall true c { s with calls := cs }
  | .sleep _ => .next s

end Sys2Proof.Machine
end

