-- ==== Sys2Proof/Machine/Reply.lean ====
section
/-! DEFINITION. The reply words `ACK` and `NACK` as operations: a slave transmits them through `reply` (30_encoding.md R96,
40_word_codec.md R113; log 16). -/

namespace Sys2Proof.Machine

/-- `ACK` (R96): the active slave transmits 0x0A5 and discards its echo. -/
def execAck (s : State) : Out := withSlave s fun S => .next (s.reply S Word.ack .toMain)

/-- `NACK` (R96): the active slave transmits 0x000 and discards its echo. -/
def execNack (s : State) : Out := withSlave s fun S => .next (s.reply S Word.nack .toMain)

end Sys2Proof.Machine
end

