-- ==== Sys2Proof/Machine/Dispatch.lean ====
section
/-! DEFINITION. One arm per constructor of `Instr`: the meaning of each encoded operation. -/

namespace Sys2Proof.Machine

def exec (i : Instr) (s : State) : Host.Outcome State Fault Refusal :=
  match i with
  | .addr a => Sys2Proof.Machine.execAddr a s
  | .dataUnselected d => Sys2Proof.Machine.execDataUnselected d s
  | .deselect => Sys2Proof.Machine.execDeselect s
  | .idStart => Sys2Proof.Machine.execIdStart s
  | .idNext => Sys2Proof.Machine.execIdNext s
  | .addrSet => Sys2Proof.Machine.execAddrSet s
  | .bootEnter => Sys2Proof.Machine.execBootEnter s
  | .bootExit => Sys2Proof.Machine.execBootExit s
  | .rdBuf => Sys2Proof.Machine.execRdBuf s
  | .wrBuf => Sys2Proof.Machine.execWrBuf s
  | .dev00 => Sys2Proof.Machine.execDev00 s
  | .dev01 => Sys2Proof.Machine.execDev01 s
  | .dev02 => Sys2Proof.Machine.execDev02 s
  | .dev03 => Sys2Proof.Machine.execDev03 s
  | .dev04 => Sys2Proof.Machine.execDev04 s
  | .dev05 => Sys2Proof.Machine.execDev05 s
  | .dev06 => Sys2Proof.Machine.execDev06 s
  | .dev07 => Sys2Proof.Machine.execDev07 s
  | .dev08 => Sys2Proof.Machine.execDev08 s
  | .dev09 => Sys2Proof.Machine.execDev09 s
  | .dev0A => Sys2Proof.Machine.execDev0A s
  | .unregistered d => Sys2Proof.Machine.execUnregistered d s
  | .data d => Sys2Proof.Machine.execData d s
  | .ack => Sys2Proof.Machine.execAck s
  | .nack => Sys2Proof.Machine.execNack s
  | .linkHi h => Sys2Proof.Machine.execLinkHi h s
  | .linkLo l => Sys2Proof.Machine.execLinkLo l s
  | .linkDrain => Sys2Proof.Machine.execLinkDrain s
  | .linkReserved b => Sys2Proof.Machine.execLinkReserved b s
  | .drainHdr m c => Sys2Proof.Machine.execDrainHdr m c s
  | .drainPayload p => Sys2Proof.Machine.execDrainPayload p s

end Sys2Proof.Machine
end

