-- ==== Sys2Proof/Machine/Fetch.lean ====
section
/-! DEFINITION. What the agent whose turn it is takes: an encoded operation to execute, or a step of its sequencer that
executes none (an echo discard, an abort, a timeout, a step of the master's driver). -/

namespace Sys2Proof.Machine

/-- The result of a fetch. -/
inductive Fetched where
  /-- An operation, and the state with its code taken. -/
  | run (i : Instr) (s : State)
  /-- No operation: the step's own outcome. -/
  | done (o : Out)

/-- Slave `k`'s turn (R141, R112, R113). A slave with nothing to take waits (log 4). Two selected slaves with one address
have no meaning (R268; log 11). -/
def fetchSlave (k : Nat) (s : State) : Fetched :=
  match s.slaves[k]? with
  | none => .done (.next s)
  | some S =>
    if s.collides k S then .done (.refused .duplicateAddress)
    else
      let t := { s with active := k }
      match S.phase with
      | .main =>
        match S.takeMain with
        | none => .done (.next s)
        | some (w, S') => .run (decodeMain S.selected S.mode S.board.registered w) (t.putSlave S')
      | .echo c =>
        match S.recv with
        | none => .done (.next s)
        | some (_, S') => .done (runCont c S' (t.putSlave S'))
      | .asProposal | .asConfirm _ | .bufAddr _ _ _ | .bufCount _ _ | .rdDummy _ | .wrByte _ =>
        match S.recvData with
        | .wait => .done (.next s)
        | .err _ S' => .done (.next (t.putSlave S'.abort))
        | .ok d S' => .run (.data d) (t.putSlave S')

/-- The phases that wait for an operand word (R30). -/
def Phase.awaitsOperand : Phase → Bool
  | .main | .echo _ => false
  | .asProposal | .asConfirm _ | .bufAddr _ _ _ | .bufCount _ _ | .rdDummy _ | .wrByte _ => true

/-- Slave `k`'s receive timeout (R112, R259): only inside a multi-word command; the main loop and the echo discard have none
(R111, R113). -/
def timeoutSlave (k : Nat) (s : State) : Out :=
  match s.slaves[k]? with
  | none => .next s
  | some S =>
    if S.phase.awaitsOperand && S.recvTimesOut then .next ({ s with active := k }.putSlave S.abort)
    else .next s

/-- `X`'s turn (R120): one byte from `L.h2x`; with the fault set it takes no further step. -/
def fetchLink (s : State) : Fetched :=
  if s.link.fault then .done (.next s)
  else match s.link.h2x with
    | [] => .done (.next s)
    | b :: bs => .run (decodeLink b) { s with link := { s.link with h2x := bs } }

/-- The master's turn (R37): start an operation, read a byte at the `LinkRead` it is suspended at, or wake from the settle
delay. -/
def fetchMaster (s : State) : Fetched :=
  match s.master.phase with
  | .idle =>
    match s.calls with
    | [] => .done (.next s)
    | c :: cs => .done (startCall false c { s with calls := cs })
  | .recv _ _ _ _ .header =>
    match s.link.x2h with
    | [] => .done (.next s)
    | b :: bs => .run (decodeHeader b) { s with link := { s.link with x2h := bs } }
  | .recv _ _ _ _ (.payload _ _ _) =>
    match s.link.x2h with
    | [] => .done (.next s)
    | b :: bs => .run (.drainPayload b) { s with link := { s.link with x2h := bs } }
  | .sleep _ => .done (.next (s.finish .done))

/-- The turn the step takes, and the state with it taken: the next of the agenda, or a free value (log 3). -/
def State.nextTurn (s : State) : Turn × State :=
  match s.agenda with
  | t :: ts => (t, { s with agenda := ts })
  | [] => (Config.freeTurn s.ticks, { s with ticks := s.ticks + 1 })

/-- What the agent of a turn takes. -/
def fetch (t : Turn) (s : State) : Fetched :=
  match t with
  | .slave k => fetchSlave k s
  | .slaveTimeout k => .done (timeoutSlave k s)
  | .link => fetchLink s
  | .master => fetchMaster s
  | .masterTimeout => .done (timeoutMaster s)

/-- A handler for an opcode that has none: it replies one word, a free value (R182). -/
def ensureHandler (b : Board) (d : Byte) : Board :=
  if b.registered.contains d then b
  else { b with appTable := b.appTable ++ [{ opcode := d, replies := 1, operands := 0, known := [] }] }

/-- A slave about to take `w` as the main loop's next word, at the position `tablePosition w` (log 20). -/
def Slave.placeWord (S : Slave) (w : Word) : Slave :=
  let S := { S with phase := .main, addressPending := false, rx := w :: S.rx }
  if w.isAddress then S
  else
    let S := { S with selected := true }
    if w = 0x001 ∨ w = 0x002 then { S with mode := .boot }
    else if w.payload.toNat ≤ 0x0A then { S with mode := .app, board := ensureHandler S.board w.payload }
    else S

end Sys2Proof.Machine
end

