-- ==== Sys2Proof/Machine/Step.lean ====
section
/-! DEFINITION. One step of the block: the agent whose turn it is takes a step of its own. -/

namespace Sys2Proof.Machine

/-- One step: the next turn (log 3), what its agent takes, and the meaning of that. -/
def step (s : State) : Host.Outcome State Fault Refusal :=
  match fetch s.nextTurn.1 s.nextTurn.2 with
  | .run i t => exec i t
  | .done o => o

/-- `s` with a row's code placed where the next step takes it (log 20): a link byte as the next byte of `L.h2x` on `X`'s turn; a
bus word as slave 0's next word, in the main loop and, for a data word, selected, with the image that has the opcode. -/
def State.withFetchWord (s : State) (nbits w : Nat) : State :=
  if nbits ≤ 8 then
    { s with
      link := { s.link with h2x := BitVec.ofNat 8 w :: s.link.h2x, fault := false }
      agenda := .link :: s.agenda }
  else
    { s with
      slaves := s.slaves.modifyHead (fun S => S.placeWord (BitVec.ofNat 9 w))
      agenda := .slave 0 :: s.agenda }

end Sys2Proof.Machine
end

