-- ==== Sys2Proof/Safety.lean ====
section
/-! DEFINITION. The terms claims use: the invariant of a run, the launch premises and named assumptions of the spec, and the
two shapes of a slave's step (only that slave changes; that slave transmits). -/

namespace Sys2Proof

/-- The descriptor's shape (R23): the fixed prefix, the two counted strings, and a length of 7 to 255. -/
def Board.descOk (b : Board) : Bool :=
  match b.desc with
  | 0x10 :: 0x00 :: 0x1D :: 0x01 :: 0x03 :: n :: rest =>
    (match rest.drop n.toNat with
      | m :: rest' => rest.length == n.toNat + 1 + m.toNat && rest'.length == m.toNat
      | [] => false)
      && decide (b.desc.length ≤ 255)
  | _ => false

/-- The application table's premise (R283, R182): opcodes in 0x00..0x0A, handlers without operand words whose listed part
replies the promised count. -/
def Board.tableOk (b : Board) : Bool :=
  b.appTable.all fun h => decide (h.opcode.toNat ≤ 0x0A) && h.operands == 0 && h.known.all fun e => e.2.2.length == h.replies

/-- The launch media are in canonical form and flash addresses are 32-bit addresses (R50). -/
def Board.mediaOk (b : Board) : Bool :=
  b.flashInit.wf && b.eepromInit.wf && b.flashInit.all fun c => decide (c.1 < 2 ^ 32)

/-- `ee_offset` is injective on EepromArea (R55). -/
def Board.EeInjective (b : Board) : Prop :=
  ∀ x y : BitVec 32, b.classify x = some .eepromArea → b.classify y = some .eepromArea →
    b.eeOffset x = b.eeOffset y → x = y

end Sys2Proof

namespace Sys2Proof.Machine

/-! ## Launch premises and assumptions of the spec -/

/-- `DistinctAddresses` (R42): the slaves' bus addresses are pairwise distinct. -/
def State.DistinctAddresses (s : State) : Prop := (s.slaves.map Slave.address).Nodup

/-- The requirements on the launch configuration (R283). `PAGE_SIZE` (R9), `XFIFO_DEPTH` (R8) and the whole pages of `classify` (R54)
hold by construction; that the address at EEPROM offset 0 is the one its operator means is no property of the machine. -/
structure LaunchOk (bs : List Board) : Prop where
  /-- `DistinctAddresses` at launch. -/
  distinct : (bs.map fun b => b.eepromInit.read 0).Nodup
  /-- Every agent uses the same `BAUD` (R82). -/
  sameBaud : ∀ b ∈ bs, ∀ c ∈ bs, b.baud = c.baud
  descOk : ∀ b ∈ bs, b.descOk = true
  tableOk : ∀ b ∈ bs, b.tableOk = true
  eeInjective : ∀ b ∈ bs, b.EeInjective
  mediaOk : ∀ b ∈ bs, b.mediaOk = true

/-- A slave has a step to take other than waiting. -/
def Slave.enabled (S : Slave) : Bool :=
  match S.phase with
  | .echo _ => !S.rx.isEmpty
  | .main | .asProposal | .asConfirm _ | .bufAddr _ _ _ | .bufCount _ _ | .rdDummy _ | .wrByte _ =>
    S.addressPending || !S.rx.isEmpty

/-- The link codec has a step to take (R120). -/
def Link.enabled (X : Link) : Bool := !X.fault && !X.h2x.isEmpty

/-- The master has a step to take: an operation to start, a byte to read, or the end of its sleep. -/
def State.masterEnabled (s : State) : Bool :=
  match s.master.phase with
  | .idle => !s.calls.isEmpty
  | .recv _ _ _ _ _ => !s.link.x2h.isEmpty
  | .sleep _ => true

/-- No agent but the master has an enabled step, and no byte or word is in flight toward the master. -/
def State.QuietForMaster (s : State) : Prop :=
  (∀ S ∈ s.slaves, S.enabled = false) ∧ s.link.enabled = false ∧ s.link.fifo = [] ∧ s.link.x2h = []

/-- `A_TIMELY` (R259) for one turn: a timeout is taken only where no other agent has an enabled step and nothing is in flight
toward the waiting agent. The master's is judged where it raises `Timeout` (`raise` changes only its phase and the results), on
the step that does so: its deadline may pass, `late`, before that. -/
def State.Timely (s : State) : Turn → Prop
  | .master => ∀ t, step { s with agenda := [.master] } = .next t →
      t.returns = s.returns ++ [.err .timeout] → t.QuietForMaster
  | .masterTimeout => ∀ t, step { s with agenda := [.masterTimeout] } = .next t →
      t.returns = s.returns ++ [.err .timeout] → t.QuietForMaster
  | .slaveTimeout k =>
    (∀ (j : Nat) (S : Slave), s.slaves[j]? = some S → j ≠ k → S.enabled = false) ∧ s.link.enabled = false ∧ s.link.h2x = []
      ∧ s.masterEnabled = false
  | .slave _ | .link => True

/-- `A_SETTLE` (R286) where the master is about to send: no slave is between the ACK of `BOOT_ENTER` or `BOOT_EXIT` and its mode
switch. -/
def State.Settled (s : State) : Prop := ∀ S ∈ s.slaves, ∀ m, S.phase ≠ .echo (.toModeSwitch m)

/-- The run has left the spec's meaning (R40, R261). -/
def State.Faulted (s : State) : Prop := s.link.fault = true

/-! ## The invariant -/

/-- The page buffer's invariants (R31, R32): aligned base, cursor in the page, exactly a page of bytes, and the class of its
base. -/
structure PageBuffer.Ok (b : Board) (p : PageBuffer) : Prop where
  aligned : p.pageBase &&& b.pageMask = 0
  cursor_lt : p.cursor < b.pageSize
  bytes_length : p.bytes.length = b.pageSize
  region_eq : b.classify p.pageBase = some p.region

/-- A slave in a buffer command: `Boot` mode (R94, R202). -/
def Slave.InBuffer (S : Slave) : Prop := S.mode = .boot ∧ S.selected = true

/-- What a continuation may rely on (R30). -/
def Cont.Ok (S : Slave) : Cont → Prop
  | .toMain => True
  | .toAsProposal | .toAsConfirm _ => S.selected = true
  | .toBufAddr _ i acc => S.InBuffer ∧ i ≤ 2 ∧ acc.toNat < 256 ^ i
  | .toBufCount _ _ => S.InBuffer
  | .toRdDummy rem | .toWrByte rem => S.InBuffer ∧ S.page.isSome = true ∧ 1 ≤ rem ∧ rem ≤ 256
  | .toCommit => S.InBuffer ∧ S.page.isSome = true
  | .toModeSwitch m => S.selected = true ∧ m ≠ S.mode
  | .toDevReply _ => S.selected = true ∧ S.mode = .app

/-- What a phase may rely on: the locals' ranges of R30; an echo to discard in phase `Echo` (R113 (c)); and a command runs only
while selected (R148). -/
def Phase.Ok (S : Slave) : Phase → Prop
  | .main => True
  | .echo c => S.rx ≠ [] ∧ Cont.Ok S c
  | .asProposal => Cont.Ok S .toAsProposal
  | .asConfirm p => Cont.Ok S (.toAsConfirm p)
  | .bufAddr d i acc => Cont.Ok S (.toBufAddr d i acc)
  | .bufCount d addr => Cont.Ok S (.toBufCount d addr)
  | .rdDummy rem => Cont.Ok S (.toRdDummy rem)
  | .wrByte rem => Cont.Ok S (.toWrByte rem)

/-- The invariant of a slave. -/
structure Slave.Inv (S : Slave) : Prop where
  flash_wf : S.flash.wf = true
  flash_bound : ∀ c ∈ S.flash, c.1 < 2 ^ 32
  eeprom_wf : S.eeprom.wf = true
  cursor_le : S.idCursor ≤ S.board.desc.length
  page_ok : ∀ p, S.page = some p → p.Ok S.board
  app_no_page : S.mode = .app → S.page = none
  phase_ok : S.phase.Ok S

/-- What the master's wait relies on (R221, R222): the ring is empty when a drain begins and holds `j` words at payload
byte `j` of at most `DRAIN_MAX`. -/
def Wait.Ok (ring : List Word) : Wait → Prop
  | .header => ring = []
  | .payload _ c j => j < c ∧ c ≤ 5 ∧ ring.length = j

/-- A started operation: its arguments passed the checks of R227. -/
def Call.Ok (c : Call) : Prop := c.argError = none ∧ c.lengthOk = true

/-- What the master's phase relies on (R37). -/
def MPhase.Ok (ring : List Word) : MPhase → Prop
  | .idle => True
  | .recv call i _ _ wait => call.Ok ∧ i < call.exchanges.length ∧ wait.Ok ring
  | .sleep call => ∃ a, call = .checkSlave a

/-- The invariant of the whole machine; pairwise distinct addresses are part of it (R268). -/
structure State.Inv (s : State) : Prop where
  distinct : s.DistinctAddresses
  slaves : ∀ S ∈ s.slaves, S.Inv
  fifo_le : s.link.fifo.length ≤ s.params.xfifoDepth
  ring_le : s.master.ring.length ≤ 5
  mphase_ok : s.master.phase.Ok s.master.ring

/-! ## Words that claims use -/

/-- The phase a continuation leads to, for those that only go on to the next receive (R30). -/
def Cont.resume : Cont → Option Phase
  | .toMain => some .main
  | .toAsProposal => some .asProposal
  | .toAsConfirm p => some (.asConfirm p)
  | .toBufAddr dir i acc => some (.bufAddr dir i acc)
  | .toBufCount dir addr => some (.bufCount dir addr)
  | .toRdDummy rem => some (.rdDummy rem)
  | .toWrByte rem => some (.wrByte rem)
  | .toCommit | .toModeSwitch _ | .toDevReply _ => none

/-- No other selected slave has the address of the selected slave `S` at index `k` (R268). -/
def State.AnswersAlone (s : State) (k : Nat) (S : Slave) : Prop :=
  S.selected = true → ∀ (j : Nat) (Q : Slave), j ≠ k → s.slaves[j]? = some Q → Q.selected = true → Q.address ≠ S.address

/-- Slave `k` is `S` and is next to take its step, answering alone. -/
structure State.SlaveNext (s : State) (k : Nat) (S : Slave) (ts : List Turn) : Prop where
  turn : s.agenda = .slave k :: ts
  slave_eq : s.slaves[k]? = some S
  alone : s.AnswersAlone k S

/-- `s` with the turn of slave `k` taken: `ts` is left of the agenda, and slave `k` runs. -/
def State.turnOf (s : State) (k : Nat) (ts : List Turn) : State := { s with agenda := ts, active := k }

/-- The page buffer a `set_address` opens in `S` for an address whose page has the class `reg` (R191). -/
def Slave.opened (S : Slave) (addr : BitVec 32) (reg : Region) : PageBuffer where
  pageBase := S.board.pageBase addr
  cursor := S.board.pageOffset addr
  bytes := S.pageContents reg (S.board.pageBase addr)
  dirty := false
  region := reg

/-- `set_byte` of each byte of a list in turn (R194, R201). -/
def setBytes : Slave → List Byte → Option Slave
  | S, [] => some S
  | S, b :: bs => (S.setByte b).bind (setBytes · bs)

/-- `get_byte` `n` times (R193, R201). -/
def getBytes : Slave → Nat → Option (List Byte × Slave)
  | S, 0 => some ([], S)
  | S, n + 1 => (S.getByte).bind fun r => (getBytes r.2 n).map fun q => (r.1 :: q.1, q.2)

/-- `ID_NEXT` `n` times (R162). -/
def idNextTimes : Nat → State → Out
  | 0, s => .next s
  | n + 1, s =>
    match exec .idNext s with
    | .next t => idNextTimes n t
    | .fault f => .fault f
    | .refused r => .refused r

/-- The slaves of a list of indexes each process the address word `ADDR a` (R144). -/
def addrByEach (a : Byte) : List Nat → State → Out
  | [], s => .next s
  | k :: ks, s =>
    match exec (.addr a) { s with active := k } with
    | .next t => addrByEach a ks t
    | .fault f => .fault f
    | .refused r => .refused r

/-! ## The two shapes of a slave's step -/

/-- `t` is `s` with slave `k` replaced by `S'` and nothing else changed. -/
structure OnlySlave (s t : State) (k : Nat) (S' : Slave) : Prop where
  slave_eq : t.slaves[k]? = some S'
  others : ∀ j : Nat, j ≠ k → t.slaves[j]? = s.slaves[j]?
  link_eq : t.link = s.link
  master_eq : t.master = s.master
  params_eq : t.params = s.params
  active_eq : t.active = s.active
  calls_eq : t.calls = s.calls
  returns_eq : t.returns = s.returns
  agenda_eq : t.agenda = s.agenda
  ticks_eq : t.ticks = s.ticks

/-- `X` after a bus word (R62, R128). -/
structure LinkTook (depth : Nat) (X Y : Link) (w : Word) : Prop where
  room : X.fifo.length < depth → Y.fifo = X.fifo ++ [w] ∧ Y.fault = X.fault
  full : ¬ X.fifo.length < depth → Y.fifo = X.fifo ∧ Y.fault = true
  latch_eq : Y.hiLatch = X.hiLatch
  h2x_eq : Y.h2x = X.h2x
  x2h_eq : Y.x2h = X.x2h

/-- `t` is `s` after slave `k`, which is now `S'` but for its queue, has put the one word `w` on the bus (R62): every slave's
queue has `w` at its young end, slave `k`'s own too; `X` took it; nothing else changed. -/
structure Transmits (s t : State) (k : Nat) (S' : Slave) (w : Word) : Prop where
  slave_eq : t.slaves[k]? = some { S' with rx := S'.rx ++ [w] }
  others : ∀ j : Nat, j ≠ k → t.slaves[j]? = (s.slaves[j]?).map (fun Q => { Q with rx := Q.rx ++ [w] })
  link_took : LinkTook s.params.xfifoDepth s.link t.link w
  master_eq : t.master = s.master
  params_eq : t.params = s.params
  active_eq : t.active = s.active
  calls_eq : t.calls = s.calls
  returns_eq : t.returns = s.returns
  agenda_eq : t.agenda = s.agenda
  ticks_eq : t.ticks = s.ticks

end Sys2Proof.Machine
end

