-- ==== Sys2Proof/Certificates/Slice0/Obligations.lean ====
section
/-! DEFINITION. The statements about the model, from the numbered rules of spec/. `k` is always the active slave or the slave
whose turn it is; every statement holds for every configuration, since the configuration is part of the state (log 1). -/

open Sys2Proof Sys2Proof.Machine

/-! ## Encoding -/

/-- Decoding an encoded well-formed instruction, at any position where its row applies, gives it back (R92 to R102). -/
def Obligations.DecodeOfEncodeIsIdentity : Prop :=
  ∀ (p : Position) (i : Instr), i.wf = true → p.admits i = true → decode p (encode i) = .ok i

/-- Every code has one meaning at a position: what is decoded encodes to the code, and its row applies at that position. -/
def Obligations.EncodeOfDecodeIsIdentity : Prop :=
  ∀ (p : Position) (c : Code) (i : Instr), decode p c = .ok i → encode i = c ∧ p.admits i = true

/-- The source's round trip, in its two halves (R84, R85, R89, R129 (a), (b)): `X` rebuilds the word the host encoded and decodes the
two bytes as its two halves; the host decodes what `X` reports. The drain header's layout is decision D3, D4 (log 28). -/
def Obligations.HostCodecRoundTrips : Prop :=
  (∀ w : Word, dec2 (enc2 w).1 (enc2 w).2 = w ∧
    ∃ h l, decode .link (.byte (enc2 w).1) = .ok (.linkHi h) ∧ decode .link (.byte (enc2 w).2) = .ok (.linkLo l) ∧
      wordOfHalves h l = w) ∧
  ∀ ws : List Word, ws.length ≤ 5 → decDrain (encDrain ws) = some ws

/-- Words and bytes written out from the spec's tables (R83, R86, R92 to R95) decode to the instructions they stand for. The layout of
the drain header in the last clause is decision D3 (log 28). -/
def Obligations.TableWordsDecode : Prop :=
  (∀ sel mode reg, decode (.mainLoop sel mode reg) (.word 0b100000101) = .ok (.addr 5)) ∧
  (∀ mode reg, decode (.mainLoop false mode reg) (.word 0b011111110) = .ok (.dataUnselected 0xFE)) ∧
  (∀ mode reg, decode (.mainLoop true mode reg) (.word 0b011111111) = .ok .deselect) ∧
  (∀ mode reg, decode (.mainLoop true mode reg) (.word 0b011111100) = .ok .addrSet) ∧
  (∀ reg, decode (.mainLoop true .boot reg) (.word 0b000000001) = .ok .rdBuf) ∧
  (∀ reg, decode (.mainLoop true .boot reg) (.word 0b000000010) = .ok .wrBuf) ∧
  (decode (.mainLoop true .app [0x01]) (.word 0b000000001) = .ok .dev01) ∧
  (∀ reg, decode (.mainLoop true .boot reg) (.word 0b000000011) = .ok (.unregistered 3)) ∧
  (decode .operand (.word 0b011111111) = .ok (.data 0xFF)) ∧
  (decode .operand (.word 0b100000110) = .error .addressWhereData) ∧
  (decode .reply (.word 0b010100101) = .ok .ack) ∧
  (decode .link (.byte 0b10010000) = .ok (.linkHi 0x10)) ∧
  (decode .link (.byte 0b10100101) = .ok (.linkLo 0x5)) ∧
  (decode .link (.byte 0b10110000) = .ok .linkDrain) ∧
  (decode .link (.byte 0b10110001) = .ok (.linkReserved 0xB1)) ∧
  (decode .drainHeader (.byte 0b00010010) = .ok (.drainHdr 0b00010 2))

/-! ## Reset and the invariant -/

/-- What launch leaves (R43, R280, R281; the values are decision D22), in every instance; `held_addr` is left out, R43 says
"unspecified" (log 14). -/
def Obligations.LaunchLeavesEveryField : Prop :=
  ∀ (p : Params) (bs : List Board),
    (State.resetOf p bs).slaves.length = bs.length ∧
    (∀ (k : Nat) (b : Board), bs[k]? = some b → ∃ S, (State.resetOf p bs).slaves[k]? = some S ∧ S.board = b ∧
      S.selected = false ∧ S.addressPending = false ∧ S.idCursor = 0 ∧ S.rx = [] ∧ S.phase = .main ∧
      S.mode = b.resetMode ∧ S.page = none ∧ S.devState = b.devInit ∧ S.address = b.eepromInit.read 0 ∧
      (∀ a, S.flash.read a = b.flashInit.read a) ∧ (∀ a, S.eeprom.read a = b.eepromInit.read a)) ∧
    (State.resetOf p bs).master = { pendingEchoDiscards := 0, ring := [], phase := .idle } ∧
    (State.resetOf p bs).link = { hiLatch := none, fifo := [], fault := false, h2x := [], x2h := [] }

/-- The invariant holds at launch of every instance whose launch media are in canonical form and whose addresses are pairwise distinct
(R268: a launch premise), and at `State.reset`; and the boards of `State.reset` (log 2) meet the requirements on the launch configuration
(R283: distinct addresses, one `BAUD`, `ee_offset`, descriptors, command tables). -/
def Obligations.LaunchMeetsInvariant : Prop :=
  (∀ (p : Params) (bs : List Board), (∀ b ∈ bs, b.mediaOk = true) → (bs.map fun b => b.eepromInit.read 0).Nodup →
    (State.resetOf p bs).Inv) ∧
  State.reset.Inv ∧ LaunchOk (State.reset.slaves.map Slave.board)

/-- Every step keeps the invariant: pairwise distinct addresses (R268), canonical media, legal phase locals (R30), the page buffer's invariants (R31, R32), no page
buffer in `App` mode (R31), commands only while selected (R148), bounded queues of `X` and `M` (R36, R39, R221). -/
def Obligations.StepKeepsInvariant : Prop :=
  ∀ s t : State, s.Inv → step s = .next t → t.Inv

/-- From a state of the invariant no step ends in a fault of the model, none overflows the master's ring (R221, D31), and none
is refused for want of a meaning: the preconditions of R193 to R195 hold whenever the operations are reached. A step is refused for a
duplicate address only where a slave would take one (R268; log 11): at a confirmation of `ADDR_SET` or at a commit. -/
def Obligations.StepNeverFaults : Prop :=
  ∀ s : State, s.Inv →
    (∀ f, step s ≠ .fault f) ∧ step s ≠ .refused .ringOverflow ∧ (∀ m, step s ≠ .refused (.notModelled m)) ∧
    (step s = .refused .duplicateAddress → ∃ (k : Nat) (S : Slave), s.nextTurn.1 = .slave k ∧ s.slaves[k]? = some S ∧
      (S.phase = .echo .toCommit ∨ ∃ p, S.phase = .asConfirm p))

/-- "writes to BootloaderArea never reach the underlying medium" (R32, R57): from a state of the invariant no step changes a flash
byte of BootloaderArea, whatever agent takes it. -/
def Obligations.BootloaderAreaIsNeverWritten : Prop :=
  ∀ s t : State, s.Inv → step s = .next t →
    ∀ (k : Nat) (S T : Slave), s.slaves[k]? = some S → t.slaves[k]? = some T →
      ∀ addr : BitVec 32, S.board.classify addr = some .bootloaderArea → T.flash.read addr.toNat = S.flash.read addr.toNat

/-- Configuration is not state (R44): no step changes a parameter, a board or the number of slaves. -/
def Obligations.StepKeepsConfiguration : Prop :=
  ∀ s t : State, step s = .next t → t.params = s.params ∧ t.slaves.map Slave.board = s.slaves.map Slave.board

/-! ## Whole-machine rules -/

/-- Who writes the media (R190, R21): a flash byte changes only when its slave commits; an EEPROM byte only then, or offset 0 at
a confirmed `ADDR_SET`: in phase AsConfirm(p), when the word taken is the data word p and no address is pending; it is then p. -/
def Obligations.OnlyCommitAndAddressSetWriteMedia : Prop :=
  ∀ s t : State, step s = .next t → ∀ (k : Nat) (S T : Slave), s.slaves[k]? = some S → t.slaves[k]? = some T → ∀ a : Nat,
    (T.flash.read a ≠ S.flash.read a → s.nextTurn.1 = .slave k ∧ S.phase = .echo .toCommit) ∧
    (T.eeprom.read a ≠ S.eeprom.read a →
      s.nextTurn.1 = .slave k ∧ (S.phase = .echo .toCommit ∨
        (a = 0 ∧ ∃ p, S.phase = .asConfirm p ∧ S.addressPending = false ∧ S.rx.head? = some (Word.data p) ∧
          T.eeprom.read 0 = p)))

/-- Who writes `selected` (R41, R24, R48): a slave becomes selected only in its main loop on its own address; it ceases to be
only there, on another address or on `DESELECT`, or at a mode switch. -/
def Obligations.OnlyAddressWordsDeselectAndModeSwitchWriteSelected : Prop :=
  ∀ s t : State, step s = .next t → ∀ (k : Nat) (S T : Slave), s.slaves[k]? = some S → t.slaves[k]? = some T →
    (S.selected = false → T.selected = true →
      s.nextTurn.1 = .slave k ∧ S.phase = .main ∧ ∃ S', S.takeMain = some (Word.address S.address, S')) ∧
    (S.selected = true → T.selected = false →
      s.nextTurn.1 = .slave k ∧
        ((S.phase = .main ∧ ∃ w S', S.takeMain = some (w, S') ∧
          ((w.isAddress = true ∧ w.payload ≠ S.address) ∨ w = 0x0FF)) ∨
         ∃ m, S.phase = .echo (.toModeSwitch m)))

/-- A slave transmits data words only (R96; decision D32), at most one a step, delivered to every other slave and to `X` (R62);
apart from that its step, listed or free (log 3), changes no other slave and nothing of the link, the master, the caller's side or the
parameters. -/
def Obligations.SlaveStepSendsAtMostOneDataWord : Prop :=
  ∀ (s t : State) (k : Nat), s.nextTurn.1 = .slave k → step s = .next t →
    (t.master = s.master ∧ t.calls = s.calls ∧ t.returns = s.returns ∧ t.params = s.params ∧
      t.agenda = s.nextTurn.2.agenda ∧ t.ticks = s.nextTurn.2.ticks) ∧
    ((t.link = s.link ∧ ∀ j : Nat, j ≠ k → t.slaves[j]? = s.slaves[j]?) ∨
     (∃ w : Word, w.isAddress = false ∧ LinkTook s.params.xfifoDepth s.link t.link w ∧
      ∀ j : Nat, j ≠ k → t.slaves[j]? = (s.slaves[j]?).map (fun Q => { Q with rx := Q.rx ++ [w] })))

/-- A data word while Unselected (R145): the main loop takes it and does nothing. -/
def Obligations.UnselectedSlaveIgnoresDataWords : Prop :=
  ∀ (s : State) (k : Nat) (S : Slave) (ts : List Turn) (d : Byte) (ws : List Word),
    s.SlaveNext k S ts → S.phase = .main → S.addressPending = false → S.selected = false → S.rx = Word.data d :: ws →
    exec (.dataUnselected d) s = .next s ∧
    ∃ t, step s = .next t ∧ OnlySlave (s.turnOf k ts) t k { S with rx := ws }

/-- The master is not attached to the bus (R62): its turns and its timeouts leave every slave and the codec's latch, FIFO and
fault alone. -/
def Obligations.MasterTurnsLeaveTheBusAlone : Prop :=
  ∀ (s t : State), (s.nextTurn.1 = .master ∨ s.nextTurn.1 = .masterTimeout) → step s = .next t →
    t.slaves = s.slaves ∧ t.link.fifo = s.link.fifo ∧ t.link.hiLatch = s.link.hiLatch ∧ t.link.fault = s.link.fault

/-- With pairwise distinct addresses (R42), once every slave has processed the address word `ADDR a`, exactly the slave whose address
it names is selected (R144). -/
def Obligations.AddressWordSelectsExactlyItsSlave : Prop :=
  ∀ (s : State) (a : Byte), s.DistinctAddresses →
    ∃ t, addrByEach a (List.range s.slaves.length) s = .next t ∧ t.slaves.length = s.slaves.length ∧
      ∀ (k : Nat) (S T : Slave), s.slaves[k]? = some S → t.slaves[k]? = some T → (T.selected = true ↔ S.address = a)

/-! ## A step runs the decoded instruction -/

/-- A slave's step is the meaning of what the word it takes decodes to. In the main loop: the oldest word, an address word being taken
for processing at once, or, if an address word is held, that word with no other taken (R141; decision D7). Inside a multi-word command:
the operand word (R112). Where another selected slave has the same address the step has no meaning and is refused (R268, D19; log 11). -/
def Obligations.SlaveStepRunsDecodedWord : Prop :=
  ∀ (s : State) (k : Nat) (S : Slave) (ts : List Turn),
    (s.SlaveNext k S ts →
      (∀ w ws i, S.phase = .main → S.addressPending = false → S.rx = w :: ws →
        decode S.mainPosition (.word w) = .ok i →
        step s = exec i ((s.turnOf k ts).putSlave
          { S with rx := ws, heldAddr := if w.isAddress then w.payload else S.heldAddr })) ∧
      (S.phase = .main → S.addressPending = true →
        step s = exec (.addr S.heldAddr) ((s.turnOf k ts).putSlave { S with addressPending := false })) ∧
      (∀ w ws i, S.phase.awaitsOperand = true → S.addressPending = false → S.rx = w :: ws →
        decode .operand (.word w) = .ok i →
        step s = exec i ((s.turnOf k ts).putSlave { S with rx := ws }))) ∧
    (∀ (j : Nat) (Q : Slave), s.agenda = .slave k :: ts → s.slaves[k]? = some S → S.selected = true →
      j ≠ k → s.slaves[j]? = some Q → Q.selected = true → Q.address = S.address →
      step s = .refused .duplicateAddress)

/-- The link codec's step is the meaning of the oldest byte of `L.h2x` (R120; decision D6), and once `X.fault` is true it takes no
further step. The master's step at a drain response is the meaning of the byte it reads (R221). -/
def Obligations.LinkAndMasterStepsRunDecodedByte : Prop :=
  ∀ (s : State) (ts : List Turn),
    (∀ b bs i, s.agenda = .link :: ts → s.link.fault = false → s.link.h2x = b :: bs → decode .link (.byte b) = .ok i →
      step s = exec i { s with agenda := ts, link := { s.link with h2x := bs } }) ∧
    (s.agenda = .link :: ts → s.link.fault = true → step s = .next { s with agenda := ts }) ∧
    (∀ call n out late b bs i, s.agenda = .master :: ts → s.master.phase = .recv call n out late .header →
      s.link.x2h = b :: bs → decode .drainHeader (.byte b) = .ok i →
      step s = exec i { s with agenda := ts, link := { s.link with x2h := bs } }) ∧
    (∀ call n out late m c j b bs i, s.agenda = .master :: ts → s.master.phase = .recv call n out late (.payload m c j) →
      s.link.x2h = b :: bs → decode .drainPayload (.byte b) = .ok i →
      step s = exec i { s with agenda := ts, link := { s.link with x2h := bs } })

/-! ## Errors on a slave, the echo discard and the continuations -/

/-- Abort of a multi-word command (R112, R256, R206): a pending address word aborts it with nothing consumed; an address word in place
of an operand is consumed, held and aborts it; a finite receive timeout may abort it when the queue is empty. In each case the phase
returns to `Main`, nothing is transmitted and nothing else changes. -/
def Obligations.OperandErrorAbortsSilently : Prop :=
  ∀ (s : State) (k : Nat) (S : Slave) (ts : List Turn),
    s.slaves[k]? = some S → s.AnswersAlone k S → S.phase.awaitsOperand = true →
    (s.agenda = .slave k :: ts → S.addressPending = true →
      ∃ t, step s = .next t ∧ OnlySlave (s.turnOf k ts) t k { S with phase := .main }) ∧
    (∀ a ws, s.agenda = .slave k :: ts → S.addressPending = false → S.rx = Word.address a :: ws →
      ∃ t, step s = .next t ∧
        OnlySlave (s.turnOf k ts) t k { S with rx := ws, addressPending := true, heldAddr := a, phase := .main }) ∧
    (s.agenda = .slaveTimeout k :: ts → S.addressPending = false → S.rx = [] → S.board.devRxTimeout.isSome = true →
      ∃ t, step s = .next t ∧ OnlySlave (s.turnOf k ts) t k { S with phase := .main })

/-- The echo discard (R113; uncompared by decision D8): the oldest word is thrown away whatever it is, an address word is noted, and
a continuation that only waits for the next word sets its phase. -/
def Obligations.EchoDiscardResumes : Prop :=
  ∀ (s : State) (k : Nat) (S : Slave) (ts : List Turn) (w : Word) (ws : List Word) (c : Cont) (ph : Phase),
    s.SlaveNext k S ts → S.phase = .echo c → S.rx = w :: ws → c.resume = some ph →
    ∃ t, step s = .next t ∧
      OnlySlave (s.turnOf k ts) t k
        { S with
          rx := ws
          addressPending := w.isAddress || S.addressPending
          heldAddr := if w.isAddress then w.payload else S.heldAddr
          phase := ph }

/-- When the commit happens (R204, R205): in the step that discards the echo of the last data byte, before any later word is taken;
the phase is then `Main` and the buffer stays open and clean. A commit that writes the address byte has to leave an address no other
slave has (R268); one that would not is refused (log 11). -/
def Obligations.CommitRunsWithLastEchoDiscard : Prop :=
  ∀ (s : State) (k : Nat) (S : Slave) (ts : List Turn) (w : Word) (ws : List Word) (p : PageBuffer),
    s.SlaveNext k S ts → S.phase = .echo .toCommit → S.rx = w :: ws → S.page = some p →
    ∃ C, S.commit = some C ∧
      ((C.address = S.address ∨ ∀ (j : Nat) (Q : Slave), j ≠ k → s.slaves[j]? = some Q → Q.address ≠ C.address) →
        ∃ t, step s = .next t ∧
          OnlySlave (s.turnOf k ts) t k
            { C with
              rx := ws
              addressPending := w.isAddress || S.addressPending
              heldAddr := if w.isAddress then w.payload else S.heldAddr
              phase := .main }) ∧
      (C.address ≠ S.address → (∃ (j : Nat) (Q : Slave), j ≠ k ∧ s.slaves[j]? = some Q ∧ Q.address = C.address) →
        step s = .refused .duplicateAddress)

/-- The mode switch (R48; decision D11): in the step that discards the ACK's echo the slave starts a new session in the other image;
the media, and so the address, stay. -/
def Obligations.ModeSwitchStartsNewSession : Prop :=
  ∀ (s : State) (k : Nat) (S : Slave) (ts : List Turn) (w : Word) (ws : List Word) (m : Mode),
    s.SlaveNext k S ts → S.phase = .echo (.toModeSwitch m) → S.rx = w :: ws →
    ∃ t T, step s = .next t ∧ OnlySlave (s.turnOf k ts) t k T ∧
      T.board = S.board ∧ T.mode = m ∧ T.selected = false ∧ T.addressPending = false ∧ T.idCursor = 0 ∧ T.rx = [] ∧
      T.page = none ∧ T.phase = .main ∧ T.devState = (if m = .app then S.board.devInit else S.devState) ∧
      (∀ a, T.flash.read a = S.flash.read a) ∧ (∀ a, T.eeprom.read a = S.eeprom.read a) ∧ T.address = S.address

/-- A device-specific handler's further replies (R184): one for each echo discarded, then `Main`. -/
def Obligations.DeviceRepliesContinue : Prop :=
  ∀ (s : State) (k : Nat) (S : Slave) (ts : List Turn) (w : Word) (ws : List Word),
    s.SlaveNext k S ts → S.rx = w :: ws →
    (S.phase = .echo (.toDevReply []) →
      ∃ t, step s = .next t ∧
        OnlySlave (s.turnOf k ts) t k
          { S with
            rx := ws
            addressPending := w.isAddress || S.addressPending
            heldAddr := if w.isAddress then w.payload else S.heldAddr
            phase := .main }) ∧
    (∀ r rest, S.phase = .echo (.toDevReply (r :: rest)) →
      ∃ t, step s = .next t ∧
        Transmits (s.turnOf k ts) t k
          { S with
            rx := ws
            addressPending := w.isAddress || S.addressPending
            heldAddr := if w.isAddress then w.payload else S.heldAddr
            phase := .echo (.toDevReply rest) } (Word.data r))

/-! ## Selection and universal commands -/

/-- `ADDR a` (R143): the word 0x100 | a, never an operand; a matching address selects (or re-selects) and ACKs with 0x0A5; any other
address deselects without a response; where another slave has the address too, the run has no meaning and is refused (R268, D19; that it
is refused at once is log 11). -/
def Obligations.AddrSelectsOrDeselects : Prop :=
  ∀ (s : State) (S : Slave) (a : Byte), s.slaves[s.active]? = some S →
    ((∀ sel mode reg, decode (.mainLoop sel mode reg) (.word (0x100#9 ||| a.setWidth 9)) = .ok (.addr a)) ∧
      decode .operand (.word (0x100#9 ||| a.setWidth 9)) = .error .addressWhereData) ∧
    (a = S.address → (∀ (j : Nat) (Q : Slave), j ≠ s.active → s.slaves[j]? = some Q → Q.address ≠ a) →
      ∃ t, exec (.addr a) s = .next t ∧
        Transmits s t s.active { S with selected := true, phase := .echo .toMain } 0x0A5) ∧
    (a ≠ S.address → ∃ t, exec (.addr a) s = .next t ∧ OnlySlave s t s.active { S with selected := false }) ∧
    (a = S.address → (∃ (j : Nat) (Q : Slave), j ≠ s.active ∧ s.slaves[j]? = some Q ∧ Q.address = a) →
      exec (.addr a) s = .refused .duplicateAddress)

/-- `DESELECT` (R146), the data word 0x0FF: the slave leaves the Selected state and replies NACK 0x000; its next step discards the oldest
word of its queue, the NACK's echo where it was empty, although it is unselected. While Unselected, 0x0FF is ignored like any data word. -/
def Obligations.DeselectRepliesNack : Prop :=
  ∀ (s : State) (S : Slave), s.slaves[s.active]? = some S →
    (∀ mode reg, decode (.mainLoop true mode reg) (.word 0x0FF) = .ok .deselect) ∧
    (S.selected = true → ∃ t, exec .deselect s = .next t ∧
      Transmits s t s.active { S with selected := false, phase := .echo .toMain } 0x000 ∧
      ∀ (ts : List Turn) (w : Word) (ws : List Word), S.rx ++ [0x000] = w :: ws →
        ∃ u, step { t with agenda := .slave s.active :: ts } = .next u ∧
          OnlySlave { t with agenda := ts } u s.active
            { S with
              selected := false
              rx := ws
              addressPending := w.isAddress || S.addressPending
              heldAddr := if w.isAddress then w.payload else S.heldAddr
              phase := .main }) ∧
    ((∀ mode reg, decode (.mainLoop false mode reg) (.word 0x0FF) = .ok (.dataUnselected 0xFF)) ∧
      exec (.dataUnselected 0xFF) s = .next s)

/-- `ID_START` (R160), the word 0x0FE: the cursor goes to 0 and the reply is the descriptor's length, at most 255 (R23). `ID_NEXT` (R161),
0x0FD: the byte under the cursor, which moves on; past the end 0x000, and the cursor stays. -/
def Obligations.IdentityCommandsReply : Prop :=
  ∀ (s : State) (S : Slave), s.slaves[s.active]? = some S → S.selected = true → S.board.desc.length ≤ 255 →
    (∀ mode reg, decode (.mainLoop true mode reg) (.word 0x0FE) = .ok .idStart ∧
      decode (.mainLoop true mode reg) (.word 0x0FD) = .ok .idNext) ∧
    (∃ t w, exec .idStart s = .next t ∧ w.toNat = S.board.desc.length ∧
      Transmits s t s.active { S with idCursor := 0, phase := .echo .toMain } w) ∧
    (∀ b, S.board.desc[S.idCursor]? = some b →
      ∃ t, exec .idNext s = .next t ∧
        Transmits s t s.active { S with idCursor := S.idCursor + 1, phase := .echo .toMain } (Word.data b)) ∧
    (S.board.desc.length ≤ S.idCursor →
      ∃ t, exec .idNext s = .next t ∧ Transmits s t s.active { S with phase := .echo .toMain } 0x000)

/-- The law of identity streaming (R162): `ID_START`, then `ID_LENGTH` times `ID_NEXT`, reply the length, at most 255 (R23), and the
descriptor's bytes in order; one more `ID_NEXT` replies 0x000. The replies are read in the slave's own queue, where each arrives as its
bus echo. -/
def Obligations.IdStreamReturnsDescriptor : Prop :=
  ∀ (s : State) (S : Slave), s.slaves[s.active]? = some S → S.selected = true → S.board.desc.length ≤ 255 →
    ∃ t u v T w, exec .idStart s = .next t ∧ idNextTimes S.board.desc.length t = .next u ∧ exec .idNext u = .next v ∧
      v.slaves[s.active]? = some T ∧ w.toNat = S.board.desc.length ∧
      T.rx = S.rx ++ [w] ++ S.board.desc.map Word.data ++ [0x000] ∧
      T.idCursor = S.board.desc.length

/-- `ADDR_SET` (R164): the current address, then the proposal echoed, then, on an equal confirmation, the address byte persisted at
EEPROM offset 0 and ACK, otherwise NACK with the address unchanged. The new address has to be one no other slave has (R268); one that is
in use is refused (log 11). -/
def Obligations.AddressSetDoubleConfirms : Prop :=
  ∀ (s : State) (S : Slave), s.slaves[s.active]? = some S →
    (S.selected = true → ∃ t, exec .addrSet s = .next t ∧
      Transmits s t s.active { S with phase := .echo .toAsProposal } (Word.data S.address)) ∧
    (∀ p, S.phase = .asProposal → ∃ t, exec (.data p) s = .next t ∧
      Transmits s t s.active { S with phase := .echo (.toAsConfirm p) } (Word.data p)) ∧
    (∀ p, S.phase = .asConfirm p →
      (p = S.address ∨ ∀ (j : Nat) (Q : Slave), j ≠ s.active → s.slaves[j]? = some Q → Q.address ≠ p) →
      ∃ t E, exec (.data p) s = .next t ∧
        Transmits s t s.active { S with phase := .echo .toMain, eeprom := E } 0x0A5 ∧
        ∀ a, E.read a = if a = 0 then p else S.eeprom.read a) ∧
    (∀ p, S.phase = .asConfirm p → p ≠ S.address →
      (∃ (j : Nat) (Q : Slave), j ≠ s.active ∧ s.slaves[j]? = some Q ∧ Q.address = p) →
      exec (.data p) s = .refused .duplicateAddress) ∧
    (∀ p c, c ≠ p → S.phase = .asConfirm p → ∃ t, exec (.data c) s = .next t ∧
      Transmits s t s.active { S with phase := .echo .toMain } 0x000)

/-- `BOOT_ENTER` and `BOOT_EXIT` (R168, R170; decision D11): ACK in both modes; the switch is scheduled only where there is another
image to go to. -/
def Obligations.BootCommandsAcknowledge : Prop :=
  ∀ (s : State) (S : Slave), s.slaves[s.active]? = some S → S.selected = true →
    (∃ t, exec .bootEnter s = .next t ∧
      Transmits s t s.active
        { S with phase := .echo (if S.mode = .app then .toModeSwitch .boot else .toMain) } 0x0A5) ∧
    (∃ t, exec .bootExit s = .next t ∧
      Transmits s t s.active
        { S with phase := .echo (if S.mode = .boot then .toModeSwitch .app else .toMain) } 0x0A5)

/-- The commands of the tables are ignored while the slave is unselected (R145, R147; log 15), and an opcode of the device-specific range that
the running image has not registered is ignored (R97, R185). -/
def Obligations.CommandsOutOfConditionAreIgnored : Prop :=
  ∀ (s : State) (S : Slave) (i : Instr), s.slaves[s.active]? = some S →
    (S.selected = false →
      (i ∈ [Instr.deselect, .idStart, .idNext, .addrSet, .bootEnter, .bootExit, .rdBuf, .wrBuf] ∨ i.devOpcode.isSome = true) →
      exec i s = .next s) ∧
    (∀ d, i.devOpcode = some d → (S.mode = .boot ∨ S.board.handler d = none) → exec i s = .next s)

/-! ## Dispatcher -/

/-- `DEV_nn` (R184): the registered handler's function gives the new device state and the reply bytes; the first is transmitted, the rest
wait for the echo discards; an empty list leaves the phase at `Main`. The handler is of the admitted subset (R182, R183): it reads no operand
words, and its listed part keeps the promised number of replies; where its function is not listed it is a free value (log 9), and the statement
holds for every value of it. One that reads operand words is refused. -/
def Obligations.DeviceHandlerReplies : Prop :=
  ∀ (s : State) (S : Slave) (i : Instr) (d : Byte) (h : Handler), i.devOpcode = some d →
    s.slaves[s.active]? = some S → S.selected = true → S.mode = .app → S.board.handler d = some h →
    (h.operands = 0 → (∀ e ∈ h.known, e.2.2.length = h.replies) →
      ((handlerFunction h S.board.image S.devState).2 = [] →
        ∃ t, exec i s = .next t ∧
          OnlySlave s t s.active
            { S with devState := (handlerFunction h S.board.image S.devState).1, phase := .main }) ∧
      (∀ r rest, (handlerFunction h S.board.image S.devState).2 = r :: rest →
        ∃ t, exec i s = .next t ∧
          Transmits s t s.active
            { S with
              devState := (handlerFunction h S.board.image S.devState).1
              phase := .echo (.toDevReply rest) } (Word.data r)) ∧
      (handlerFunction h S.board.image S.devState).2.length = h.replies) ∧
    (h.operands ≠ 0 → exec i s = .refused .handlerOperands)

/-- An unregistered opcode (R185): no reply and no state change; the slave stays Selected in `Main`. This is every opcode 0x0B..0xF9,
one of 0x00..0x0A the application did not register, and in `Boot` mode everything but 0x01 and 0x02. -/
def Obligations.UnregisteredOpcodeIsIgnored : Prop :=
  ∀ (s : State) (k : Nat) (S : Slave) (ts : List Turn) (d : Byte) (ws : List Word),
    s.SlaveNext k S ts → S.phase = .main → S.addressPending = false → S.selected = true → S.rx = Word.data d :: ws →
    d.toNat < 0xFA →
    ((S.mode = .app ∧ (0x0A < d.toNat ∨ S.board.handler d = none)) ∨ (S.mode = .boot ∧ d ≠ 0x01 ∧ d ≠ 0x02)) →
    exec (.unregistered d) s = .next s ∧
    ∃ t, step s = .next t ∧ OnlySlave (s.turnOf k ts) t k { S with rx := ws }

/-! ## Page programmer -/

/-- `set_address(addr)` (R191): base and cursor by the page masks, the buffer read from the page's medium, 0xFF and nothing read for
BootloaderArea, not dirty, the old buffer discarded; an `Unmapped` page has no meaning. -/
def Obligations.SetAddressOpensPage : Prop :=
  ∀ (S : Slave) (addr : BitVec 32),
    (∀ reg, S.board.classify (addr &&& ~~~(BitVec.ofNat 32 (S.board.pageSize - 1))) = some reg →
      ∃ S' p, S.setAddress addr = some S' ∧ S' = { S with page := some p } ∧
        p.pageBase = addr &&& ~~~(BitVec.ofNat 32 (S.board.pageSize - 1)) ∧
        p.cursor = (addr &&& BitVec.ofNat 32 (S.board.pageSize - 1)).toNat ∧
        p.bytes.length = S.board.pageSize ∧ p.dirty = false ∧ p.region = reg ∧
        ∀ i, i < S.board.pageSize → p.bytes[i]? = some
          (match reg with
            | .appArea => S.flash.read (p.pageBase.toNat + i)
            | .eepromArea => S.eeprom.read (S.board.eeOffset p.pageBase + i)
            | .bootloaderArea => 0xFF)) ∧
    (S.board.classify (addr &&& ~~~(BitVec.ofNat 32 (S.board.pageSize - 1))) = none → S.setAddress addr = none)

/-- The class and the offset of a page (R54, R55, R59): an address has the class of its page's base; the base and the cursor add up
to the address; `ee_offset` is linear in a page. -/
def Obligations.PagesAreWholeInTheMap : Prop :=
  ∀ (b : Board) (addr : BitVec 32),
    b.classify addr = b.classify (b.pageBase addr) ∧
    (b.pageBase addr).toNat + b.pageOffset addr = addr.toNat ∧ b.pageOffset addr < b.pageSize ∧
    (b.pageBase addr).toNat % b.pageSize = 0 ∧
    (b.classify addr = some .eepromArea → b.eeOffset addr = b.eeOffset (b.pageBase addr) + b.pageOffset addr)

/-- `get_byte()` and `set_byte(b)` (R193, R194): the byte under the cursor is returned or written, the cursor moves on and wraps to 0
at `page_size`; only `set_byte` marks dirty. -/
def Obligations.GetAndSetByteMoveTheCursor : Prop :=
  ∀ (S : Slave) (p : PageBuffer) (b : Byte), S.page = some p → p.Ok S.board →
    (∃ x, p.bytes[p.cursor]? = some x ∧
      S.getByte = some (x, { S with page := some { p with
        cursor := if p.cursor + 1 = S.board.pageSize then 0 else p.cursor + 1 } })) ∧
    (∃ bs, S.setByte b = some { S with page := some { p with
        bytes := bs, cursor := if p.cursor + 1 = S.board.pageSize then 0 else p.cursor + 1, dirty := true } } ∧
      bs.length = p.bytes.length ∧ ∀ i, i < bs.length → bs[i]? = if i = p.cursor then some b else p.bytes[i]?)

/-- `commit()` (R195, R197): a dirty AppArea page is programmed byte for byte at its base, a dirty EepromArea page at its offset; a dirty
BootloaderArea page and a clean page write nothing; `dirty` is cleared regardless; cursor and bytes stay. -/
def Obligations.CommitWritesBackTheDirtyPage : Prop :=
  ∀ (S : Slave) (p : PageBuffer), S.page = some p → p.Ok S.board →
    ∃ F E, S.commit = some { S with page := some { p with dirty := false }, flash := F, eeprom := E } ∧
      (∀ a, F.read a =
        if p.dirty = true ∧ p.region = .appArea ∧ p.pageBase.toNat ≤ a ∧ a < p.pageBase.toNat + S.board.pageSize
        then p.bytes.getD (a - p.pageBase.toNat) 0 else S.flash.read a) ∧
      (∀ a, E.read a =
        if p.dirty = true ∧ p.region = .eepromArea ∧ S.board.eeOffset p.pageBase ≤ a ∧
          a < S.board.eeOffset p.pageBase + S.board.pageSize
        then p.bytes.getD (a - S.board.eeOffset p.pageBase) 0 else S.eeprom.read a)

/-- Flash words are rebuilt little-endian from the byte buffer (R53, R197): word `j` is `bytes[2j] | (bytes[2j+1] << 8)`, and programming
them leaves `bytes[i]` at `base + i` for every `i`. -/
def Obligations.FlashWordsAreLittleEndian : Prop :=
  ∀ (bs : List Byte) (m : Memory) (base : Nat), bs.length % 2 = 0 →
    (flashWords bs).length = bs.length / 2 ∧
    (∀ (j : Nat) (lo hi : Byte), bs[2 * j]? = some lo → bs[2 * j + 1]? = some hi →
      (flashWords bs)[j]? = some (lo.setWidth 16 ||| (hi.setWidth 16 <<< 8))) ∧
    (∀ (i : Nat) (b : Byte), bs[i]? = some b → (m.programWords base (flashWords bs)).read (base + i) = b) ∧
    (∀ a, a < base ∨ base + bs.length ≤ a → (m.programWords base (flashWords bs)).read a = m.read a)

/-- The law of the page programmer (R201): for an AppArea or EepromArea address, writing up to a page of bytes, committing, re-opening the
same address and reading as many returns exactly the bytes written. -/
def Obligations.CommittedBytesReadBack : Prop :=
  ∀ (S : Slave) (addr : BitVec 32) (bs : List Byte),
    (S.board.classify (S.board.pageBase addr) = some .appArea ∨
      S.board.classify (S.board.pageBase addr) = some .eepromArea) →
    bs.length ≤ S.board.pageSize →
    ∃ S1 S2 S3 S4 S5, S.setAddress addr = some S1 ∧ setBytes S1 bs = some S2 ∧ S2.commit = some S3 ∧
      S3.setAddress addr = some S4 ∧ getBytes S4 bs.length = some (bs, S5)

/-- BootloaderArea, end to end (R200): opening reads nothing and shows 0xFF, bytes written go to the buffer only, the commit writes neither
medium, and re-opening shows 0xFF again. -/
def Obligations.BootloaderAreaReadsBlankAndDropsWrites : Prop :=
  ∀ (S : Slave) (addr : BitVec 32) (bs : List Byte) (n : Nat),
    S.board.classify (S.board.pageBase addr) = some .bootloaderArea →
    ∃ S1 S2 S3 S4 S5, S.setAddress addr = some S1 ∧ setBytes S1 bs = some S2 ∧ S2.commit = some S3 ∧
      S3.flash = S.flash ∧ S3.eeprom = S.eeprom ∧
      S3.setAddress addr = some S4 ∧ getBytes S4 n = some (List.replicate n 0xFF, S5)

/-! ## Buffer commands, slave side (R202: the mirror image of the master's side, decision D13) -/

/-- The opcodes of the buffer commands: ACK and on to the address bytes in `Boot` mode; not in the application table, so ignored in
`App` mode (R181, R203, R204; log 15). -/
def Obligations.BufferOpcodesAcknowledgeInBootMode : Prop :=
  ∀ (s : State) (S : Slave), s.slaves[s.active]? = some S → S.selected = true →
    (S.mode = .boot →
      (∃ t, exec .rdBuf s = .next t ∧
        Transmits s t s.active { S with phase := .echo (.toBufAddr .rd 0 0) } 0x0A5) ∧
      (∃ t, exec .wrBuf s = .next t ∧
        Transmits s t s.active { S with phase := .echo (.toBufAddr .wr 0 0) } 0x0A5)) ∧
    (S.mode = .app → exec .rdBuf s = .next s ∧ exec .wrBuf s = .next s)

/-- The address bytes (R203, R90): each is echoed and shifted into the 24-bit address; after three the count is awaited. -/
def Obligations.BufferAddressBytesAreEchoed : Prop :=
  ∀ (s : State) (S : Slave) (dir : Dir) (i : Nat) (acc : BitVec 24) (b : Byte),
    s.slaves[s.active]? = some S → S.phase = .bufAddr dir i acc →
    (i < 2 → ∃ t acc', exec (.data b) s = .next t ∧ acc'.toNat = (acc.toNat * 256 + b.toNat) % 2 ^ 24 ∧
      Transmits s t s.active { S with phase := .echo (.toBufAddr dir (i + 1) acc') } (Word.data b)) ∧
    (2 ≤ i → ∃ t acc', exec (.data b) s = .next t ∧ acc'.toNat = (acc.toNat * 256 + b.toNat) % 2 ^ 24 ∧
      Transmits s t s.active { S with phase := .echo (.toBufCount dir acc') } (Word.data b))

/-- The count byte (R203, R91): it is echoed as received, 0 means 256, and the page of the address is opened; an `Unmapped` page is
refused (R58). -/
def Obligations.BufferCountOpensThePage : Prop :=
  ∀ (s : State) (S : Slave) (dir : Dir) (addr : BitVec 24) (cb : Byte),
    s.slaves[s.active]? = some S → S.phase = .bufCount dir addr →
    (∀ reg, S.board.classify (S.board.pageBase (addr.setWidth 32)) = some reg →
      ∃ t n, exec (.data cb) s = .next t ∧ n = (if cb = 0 then 256 else cb.toNat) ∧
        Transmits s t s.active
          { S with
            page := some (S.opened (addr.setWidth 32) reg)
            phase := .echo (match dir with | .rd => .toRdDummy n | .wr => .toWrByte n) } (Word.data cb)) ∧
    (S.board.classify (S.board.pageBase (addr.setWidth 32)) = none → exec (.data cb) s = .refused .unmappedPage)

/-- A dummy of READ-BUFFER (R203): whatever its value, the reply is the byte under the cursor, which moves on. -/
def Obligations.DummyIsAnsweredWithTheNextByte : Prop :=
  ∀ (s : State) (S : Slave) (p : PageBuffer) (rem : Nat) (d : Byte),
    s.slaves[s.active]? = some S → S.phase = .rdDummy rem → S.page = some p → p.Ok S.board →
    ∃ t b, exec (.data d) s = .next t ∧ p.bytes[p.cursor]? = some b ∧
      Transmits s t s.active
        { S with
          page := some { p with cursor := (p.cursor + 1) % S.board.pageSize }
          phase := .echo (if 1 < rem then .toRdDummy (rem - 1) else .toMain) } (Word.data b)

/-- A data byte of WRITE-BUFFER (R204): buffered under the cursor, which moves on, and echoed; after the last the commit is scheduled.
The media are untouched. -/
def Obligations.DataByteIsBufferedAndEchoed : Prop :=
  ∀ (s : State) (S : Slave) (p : PageBuffer) (rem : Nat) (b : Byte),
    s.slaves[s.active]? = some S → S.phase = .wrByte rem → S.page = some p →
    ∃ t, exec (.data b) s = .next t ∧
      Transmits s t s.active
        { S with
          page := some { p with
            bytes := p.bytes.set p.cursor b, cursor := (p.cursor + 1) % S.board.pageSize, dirty := true }
          phase := .echo (if 1 < rem then .toWrByte (rem - 1) else .toCommit) } (Word.data b)

/-- The reply words as operations (R96, R113; log 16): the slave transmits 0x0A5 or 0x000 and then discards its echo. -/
def Obligations.ReplyWordsAreTransmitted : Prop :=
  ∀ (s : State) (S : Slave), s.slaves[s.active]? = some S →
    (∃ t, exec .ack s = .next t ∧ Transmits s t s.active { S with phase := .echo .toMain } 0x0A5) ∧
    (∃ t, exec .nack s = .next t ∧ Transmits s t s.active { S with phase := .echo .toMain } 0x000)

/-! ## Link codec (decision D6) -/

/-- `LINK_HI`, `LINK_LO` and reserved bytes (R121, R122, R124, R125, R127): the first half is latched, the second completes the word, which every
slave and `X` itself receive; a half out of order or a reserved byte sets the fault and transmits nothing. -/
def Obligations.LinkHalvesTransmitOneWord : Prop :=
  ∀ (s : State) (h : BitVec 5) (l : BitVec 4) (b : Byte),
    (s.link.hiLatch = none → exec (.linkHi h) s = .next { s with link := { s.link with hiLatch := some h } }) ∧
    (s.link.hiLatch ≠ none → exec (.linkHi h) s = .next { s with link := { s.link with fault := true } }) ∧
    (s.link.hiLatch = none → exec (.linkLo l) s = .next { s with link := { s.link with fault := true } }) ∧
    (s.link.hiLatch = some h → ∃ t w, exec (.linkLo l) s = .next t ∧ w.toNat = 16 * h.toNat + l.toNat ∧
      LinkTook s.params.xfifoDepth { s.link with hiLatch := none } t.link w ∧
      t.slaves = s.slaves.map (fun Q => { Q with rx := Q.rx ++ [w] }) ∧
      t = { s with link := t.link, slaves := t.slaves }) ∧
    exec (.linkReserved b) s = .next { s with link := { s.link with fault := true } }

/-- `LINK_DRAIN` (R123, R126): the oldest words, at most 5, are removed and reported in one response; the latch is not touched. -/
def Obligations.LinkDrainReportsOldestWords : Prop :=
  ∀ s : State, ∃ t ws, exec .linkDrain s = .next t ∧ ws.length = min s.link.fifo.length 5 ∧
    s.link.fifo = ws ++ t.link.fifo ∧ t.link.x2h = s.link.x2h ++ encDrain ws ∧
    t = { s with link := { s.link with fifo := t.link.fifo, x2h := t.link.x2h } }

/-- A word the master sends is transmitted unchanged (R129 (c)): the two bytes of `host_send` at the head of the link, taken in two
turns of `X`, put exactly that word on the bus. -/
def Obligations.SentWordReachesTheBus : Prop :=
  ∀ (s : State) (w : Word) (bs : List Byte) (ts : List Turn),
    s.agenda = .link :: .link :: ts → s.link.fault = false → s.link.hiLatch = none →
    s.link.h2x = (enc2 w).1 :: (enc2 w).2 :: bs →
    ∃ t, Host.Core.run core 2 s = .next t ∧
      LinkTook s.params.xfifoDepth { s.link with h2x := bs } t.link w ∧
      t.slaves = s.slaves.map (fun Q => { Q with rx := Q.rx ++ [w] }) ∧ t.master = s.master

/-! ## Master -/

/-- `DRAIN_HDR` and `DRAIN_PAYLOAD` (R221, R87, R88; decisions D3 to D5): a count of 6 or 7 raises `Desync`, 0 adds nothing and `host_recv` goes
on, otherwise the payload is awaited; payload byte `j` becomes the word whose 9th bit is marker bit `c-1-j`, at the young end of the ring, and
after the last `host_recv` goes on over the ring. A full ring is refused (D31). What `host_recv` then does, with the deadline passed (`late`)
or not, O54 to O56 say. -/
def Obligations.DrainBytesFillTheRing : Prop :=
  ∀ (s : State) (call : Call) (i : Nat) (out : List Byte) (late : Bool),
    (∀ (m : BitVec 5) (c : BitVec 3), s.master.phase = .recv call i out late .header →
      (5 < c.toNat → ∃ t, exec (.drainHdr m c) s = .next t ∧ t.master = { s.master with phase := .idle } ∧
        t.returns = s.returns ++ [.err .desync] ∧ t.slaves = s.slaves ∧ t.link = s.link) ∧
      (c = 0 → exec (.drainHdr m c) s = .next ((hostRecv call i out s.master.ring s).settle late)) ∧
      (0 < c.toNat → c.toNat ≤ 5 → exec (.drainHdr m c) s =
        .next { s with master := { s.master with phase := .recv call i out late (.payload m c.toNat 0) } })) ∧
    (∀ (m : BitVec 5) (c j : Nat) (p : Byte), s.master.phase = .recv call i out late (.payload m c j) →
      (s.master.ring.length < 16 → ∃ w : Word, w.payload = p ∧ w.isAddress = m.getLsbD (c - 1 - j) ∧
        (j + 1 < c → exec (.drainPayload p) s = .next { s with
          master := { s.master with
            ring := s.master.ring ++ [w]
            phase := .recv call i out late (.payload m c (j + 1)) } }) ∧
        (c ≤ j + 1 → exec (.drainPayload p) s =
          .next ((hostRecv call i out (s.master.ring ++ [w]) s).settle late))) ∧
      (16 ≤ s.master.ring.length → exec (.drainPayload p) s = .refused .ringOverflow))

/-- Words on the bus are delivered to the master unchanged and in order (R129 (c)): the master's turns at a whole drain response take its
bytes, and `host_recv` goes on over exactly the reported words. -/
def Obligations.DrainResponseReachesTheRing : Prop :=
  ∀ (s : State) (ws : List Word) (bs : List Byte) (ts : List Turn) (call : Call) (i : Nat) (out : List Byte) (late : Bool),
    ws.length ≤ 5 → s.master.ring = [] → s.master.phase = .recv call i out late .header →
    s.link.x2h = encDrain ws ++ bs → s.agenda = List.replicate (ws.length + 1) .master ++ ts →
    Host.Core.run core (ws.length + 1) s = .next
      ((hostRecv call i out ws { s with agenda := ts, link := { s.link with x2h := bs } }).settle late)

/-- The argument checks (R227, R260; decisions D1, D2): before any traffic, `BufferOverrun` for a count outside 1..256, then
`InvalidAddress` for an address wider than 24 bits; a byte list of the wrong length is refused. That the length is checked last is
log 19. -/
def Obligations.BadArgumentsSendNothing : Prop :=
  ∀ (s : State) (ts : List Turn) (cs : List Call) (a : Byte) (r : BitVec 32) (n : Nat) (bs : List Byte) (call : Call),
    s.agenda = .master :: ts → s.master.phase = .idle → s.calls = call :: cs →
    (call = .readBuffer a r n ∨ call = .writeBuffer a r n bs) →
    ((n = 0 ∨ 256 < n) →
      step s = .next { s with agenda := ts, calls := cs, returns := s.returns ++ [.err .bufferOverrun] }) ∧
    (1 ≤ n → n ≤ 256 → 2 ^ 24 ≤ r.toNat →
      step s = .next { s with agenda := ts, calls := cs, returns := s.returns ++ [.err .invalidAddress] }) ∧
    (1 ≤ n → n ≤ 256 → r.toNat < 2 ^ 24 → call = .writeBuffer a r n bs → bs.length ≠ n →
      step s = .refused .writeListLength)

/-- Starting an operation (R220, R224, R225, R228, R229): the four operations begin with `ADDR a` as two link bytes and one more echo to
discard, and wait for the ACK: exchange 0 expects 0x0A5, and `host_recv` goes on over the ring. With an empty ring it requests a drain and
is suspended at the header byte (R221, R37). A receive on its own (R222, R223; log 8) starts at `host_recv`. -/
def Obligations.OperationsBeginWithSelect : Prop :=
  ∀ (s : State) (ts : List Turn) (cs : List Call) (a : Byte) (call : Call),
    s.agenda = .master :: ts → s.master.phase = .idle → s.calls = call :: cs →
    ((call = .select a ∨ call = .checkSlave a ∨ (∃ r n, call = .readBuffer a r n ∧ 1 ≤ n ∧ n ≤ 256 ∧ r.toNat < 2 ^ 24) ∨
        (∃ r n bs, call = .writeBuffer a r n bs ∧ 1 ≤ n ∧ n ≤ 256 ∧ r.toNat < 2 ^ 24 ∧ bs.length = n)) →
      call.exchanges[0]? = some { send := some (0x100#9 ||| a.setWidth 9), check := .expect 0x0A5 } ∧
      step s = .next ((hostRecv call 0 [] s.master.ring { s with
        agenda := ts
        calls := cs
        link := { s.link with
          h2x := s.link.h2x ++ [(enc2 (0x100#9 ||| a.setWidth 9)).1, (enc2 (0x100#9 ||| a.setWidth 9)).2] }
        master := { s.master with pendingEchoDiscards := s.master.pendingEchoDiscards + 1 } }).settle false) ∧
      (s.master.ring = [] → step s = .next { s with
        agenda := ts
        calls := cs
        link := { s.link with
          h2x := s.link.h2x ++ [(enc2 (0x100#9 ||| a.setWidth 9)).1, (enc2 (0x100#9 ||| a.setWidth 9)).2, 0xB0] }
        master := {
          pendingEchoDiscards := s.master.pendingEchoDiscards + 1
          ring := []
          phase := .recv call 0 [] false .header } })) ∧
    ((call = .hostRecv ∨ (∃ v, call = .expect v) ∨ call = .expectData) →
      step s = .next ((hostRecv call 0 [] s.master.ring { s with agenda := ts, calls := cs }).settle false))

/-- The words the operations exchange. `select` (R224): `ADDR a`, and 0x0A5 is expected. `check_slave` (R225): that, then 0x0FB, and 0x0A5 is
expected. The receives on their own (R222, R223) send nothing. A buffer operation (R226, R228, R229, R297): select, opcode, three address bytes most-significant first, the count
byte (256 as 0), then a dummy 0x00 or a data byte for each byte; every word but the data of a read is checked. -/
def Obligations.BufferOperationsExchange : Prop :=
  (∀ a : Byte, (Call.select a).exchanges = [{ send := some (0x100#9 ||| a.setWidth 9), check := .expect 0x0A5 }] ∧
    (Call.checkSlave a).exchanges =
      [{ send := some (0x100#9 ||| a.setWidth 9), check := .expect 0x0A5 }, { send := some 0x0FB, check := .expect 0x0A5 }]) ∧
  (Call.hostRecv.exchanges = [{ send := none, check := .word }] ∧
    (∀ v, (Call.expect v).exchanges = [{ send := none, check := .expect v }]) ∧
    Call.expectData.exchanges = [{ send := none, check := .data }]) ∧
  ∀ (a : Byte) (r : BitVec 32) (n : Nat) (bs : List Byte), 1 ≤ n → n ≤ 256 → r.toNat < 2 ^ 24 → bs.length = n →
    ∃ b0 b1 b2 cb : Byte, b0.toNat * 65536 + b1.toNat * 256 + b2.toNat = r.toNat ∧
      (cb.toNat = if n = 256 then 0 else n) ∧
      (Call.readBuffer a r n).exchanges.length = n + 6 ∧
      (Call.writeBuffer a r n bs).exchanges.length = n + 6 ∧
      (∀ op call, (call = Call.readBuffer a r n ∧ op = (0x01 : Byte)) ∨ (call = Call.writeBuffer a r n bs ∧ op = (0x02 : Byte)) →
        call.exchanges.take 6 =
          [{ send := some (Word.address a), check := .expect 0x0A5 },
           { send := some (Word.data op), check := .expect 0x0A5 },
           { send := some (Word.data b0), check := .expect (Word.data b0) },
           { send := some (Word.data b1), check := .expect (Word.data b1) },
           { send := some (Word.data b2), check := .expect (Word.data b2) },
           { send := some (Word.data cb), check := .expect (Word.data cb) }]) ∧
      (∀ i, i < n → (Call.readBuffer a r n).exchanges[i + 6]? = some { send := some 0x000, check := .data }) ∧
      (∀ (i : Nat) (b : Byte), bs[i]? = some b → (Call.writeBuffer a r n bs).exchanges[i + 6]? =
        some { send := some (Word.data b), check := .expect (Word.data b) })

/-- `host_recv` (R222): as many words of the ring as echoes are outstanding are discarded unchecked, the oldest first. When they empty the
ring, either a drain is requested and the master suspended at its header byte (R221, R37), or, with the deadline passed, the operation
ends with `Timeout` (decision D17). -/
def Obligations.MasterDiscardsItsOwnEchoes : Prop :=
  ∀ (s : State) (call : Call) (i : Nat) (out : List Byte) (es : List Word), es.length ≤ s.master.pendingEchoDiscards →
    (hostRecv call i out es s).settle false = { s with
      link := { s.link with h2x := s.link.h2x ++ [0xB0] }
      master := {
        pendingEchoDiscards := s.master.pendingEchoDiscards - es.length
        ring := []
        phase := .recv call i out false .header } } ∧
    (hostRecv call i out es s).settle true = { s with
      master := { pendingEchoDiscards := s.master.pendingEchoDiscards - es.length, ring := [], phase := .idle }
      returns := s.returns ++ [.err .timeout] }

/-- `expect` and `expect_data` (R223, R230, R260; decision D10): once the outstanding echoes are discarded, an address word ends the operation
with `InvalidAddress`, another value than the expected one with `Desync`; in both cases nothing further is sent and the words behind it stay
in the ring. -/
def Obligations.BadReplyEndsTheOperation : Prop :=
  ∀ (s : State) (call : Call) (i : Nat) (out : List Byte) (late : Bool) (e : Exchange) (es ws : List Word) (w : Word),
    es.length = s.master.pendingEchoDiscards → call.exchanges[i]? = some e →
    (w.isAddress = true → e.check ≠ .word →
      (hostRecv call i out (es ++ w :: ws) s).settle late = { s with
        master := { pendingEchoDiscards := 0, ring := ws, phase := .idle }
        returns := s.returns ++ [.err .invalidAddress] }) ∧
    (∀ v, w.isAddress = false → e.check = .expect v → w ≠ v →
      (hostRecv call i out (es ++ w :: ws) s).settle late = { s with
        master := { pendingEchoDiscards := 0, ring := ws, phase := .idle }
        returns := s.returns ++ [.err .desync] })

/-- A good reply (R223, R226 to R229): once the outstanding echoes are discarded, the next exchange's word is sent and `host_recv` goes on over
the words left; after the last exchange the operation is over: `read_buffer` and `expect_data` return the bytes collected, `check_slave` sleeps
the settle delay (R225), the others return. `host_recv` on its own returns the word, whatever it is, and `host_send` on its own sends its word
and returns (R220, R222; log 8). -/
def Obligations.GoodReplyGoesOn : Prop :=
  (∀ (s : State) (call : Call) (i : Nat) (out out' : List Byte) (late : Bool) (e : Exchange) (es ws : List Word) (w : Word),
    es.length = s.master.pendingEchoDiscards → call.exchanges[i]? = some e → w.isAddress = false →
    ((e.check = .expect w ∧ out' = out) ∨ (e.check = .data ∧ out' = out ++ [w.payload])) →
    (∀ e' v, call.exchanges[i + 1]? = some e' → e'.send = some v →
      (hostRecv call i out (es ++ w :: ws) s).settle late = (hostRecv call (i + 1) out' ws { s with
        link := { s.link with h2x := s.link.h2x ++ [(enc2 v).1, (enc2 v).2] }
        master := { s.master with pendingEchoDiscards := 1, ring := ws } }).settle late) ∧
    (call.exchanges[i + 1]? = none →
      (∀ a, call = .checkSlave a → (hostRecv call i out (es ++ w :: ws) s).settle late = { s with
        master := { pendingEchoDiscards := 0, ring := ws, phase := .sleep call } }) ∧
      (((∃ a r n, call = .readBuffer a r n) ∨ call = .expectData) →
        (hostRecv call i out (es ++ w :: ws) s).settle late = { s with
          master := { pendingEchoDiscards := 0, ring := ws, phase := .idle }
          returns := s.returns ++ [.bytes out'] }) ∧
      (((∃ a, call = .select a) ∨ (∃ a r n bs, call = .writeBuffer a r n bs) ∨ (∃ v, call = .expect v)) →
        (hostRecv call i out (es ++ w :: ws) s).settle late = { s with
          master := { pendingEchoDiscards := 0, ring := ws, phase := .idle }
          returns := s.returns ++ [.done] }))) ∧
  (∀ (s : State) (out : List Byte) (late : Bool) (es ws : List Word) (w : Word), es.length = s.master.pendingEchoDiscards →
    (hostRecv .hostRecv 0 out (es ++ w :: ws) s).settle late = { s with
      master := { pendingEchoDiscards := 0, ring := ws, phase := .idle }
      returns := s.returns ++ [.word w] }) ∧
  (∀ (s : State) (ts : List Turn) (cs : List Call) (w : Word),
    s.agenda = .master :: ts → s.master.phase = .idle → s.calls = .hostSend w :: cs →
    step s = .next { s with
      agenda := ts
      calls := cs
      link := { s.link with h2x := s.link.h2x ++ [(enc2 w).1, (enc2 w).2] }
      master := { s.master with pendingEchoDiscards := s.master.pendingEchoDiscards + 1 }
      returns := s.returns ++ [.done] })

/-- The master's timeouts and its sleep (R222, R225, R251, R259; decision D17). At a `LinkRead` with no byte there the timeout alternative ends
the operation with `Timeout`, and nothing further is sent; with a byte there the deadline passes meanwhile, and nothing else changes; an
operation may start with its deadline passed, so that `host_recv` ends with `Timeout` at its first empty ring. The sleep ends `check_slave`
with success. -/
def Obligations.MasterTimesOutOrWakes : Prop :=
  ∀ (s : State) (ts : List Turn) (call : Call),
    (∀ (i : Nat) (out : List Byte) (late : Bool) (wait : Wait), s.agenda = .masterTimeout :: ts →
      s.master.phase = .recv call i out late wait →
      (s.link.x2h = [] → step s = .next { s with
        agenda := ts, master := { s.master with phase := .idle }, returns := s.returns ++ [.err .timeout] }) ∧
      (s.link.x2h ≠ [] → step s = .next { s with
        agenda := ts, master := { s.master with phase := .recv call i out true wait } })) ∧
    (∀ (cs : List Call) (e : Exchange), s.agenda = .masterTimeout :: ts → s.master.phase = .idle → s.calls = call :: cs →
      call.argError = none → call.lengthOk = true → call.exchanges[0]? = some e →
      step s = .next ((hostRecv call 0 [] s.master.ring
        (State.sendExchange { s with agenda := ts, calls := cs } e)).settle true)) ∧
    (s.agenda = .master :: ts → s.master.phase = .sleep call →
      step s = .next { s with
        agenda := ts, master := { s.master with phase := .idle }, returns := s.returns ++ [.done] })

/-! ## Frames -/

/-- What the commands, the ignored words and the reply words leave unchanged (R41, R61, R148): every byte of both media, the mode, the
pending address and the page buffer of every slave; `selected` but for `ADDR` and `DESELECT`, `id_cursor` but for the identity commands, the
device state but for `DEV_nn`; every slave but the active one, apart from its queue; the master, and the link but for a word that arrives. -/
def Obligations.CommandsFrame : Prop :=
  ∀ (s t : State) (i : Instr),
    ((∃ a, i = .addr a) ∨ (∃ d, i = .dataUnselected d) ∨ (∃ d, i = .unregistered d) ∨ i.devOpcode.isSome = true ∨
      i ∈ [Instr.deselect, .idStart, .idNext, .addrSet, .bootEnter, .bootExit, .rdBuf, .wrBuf, .ack, .nack]) →
    exec i s = .next t →
    t.params = s.params ∧ t.master = s.master ∧ t.active = s.active ∧ t.calls = s.calls ∧ t.returns = s.returns ∧
    t.agenda = s.agenda ∧ t.ticks = s.ticks ∧
    (t.link = s.link ∨ ∃ w, LinkTook s.params.xfifoDepth s.link t.link w) ∧
    t.slaves.length = s.slaves.length ∧
    ∀ (k : Nat) (S : Slave), s.slaves[k]? = some S → ∃ T, t.slaves[k]? = some T ∧
      (∃ ext, T.rx = S.rx ++ ext ∧ ext.length ≤ 1) ∧
      (k ≠ s.active → T = { S with rx := T.rx }) ∧
      T.board = S.board ∧ T.addressPending = S.addressPending ∧ T.heldAddr = S.heldAddr ∧ T.mode = S.mode ∧
      T.page = S.page ∧ (∀ x, T.flash.read x = S.flash.read x) ∧ (∀ x, T.eeprom.read x = S.eeprom.read x) ∧
      ((∀ a, i ≠ .addr a) → i ≠ .deselect → T.selected = S.selected) ∧
      (i ≠ .idStart → i ≠ .idNext → T.idCursor = S.idCursor) ∧
      (i.devOpcode = none → T.devState = S.devState)

/-- What an operand word leaves unchanged (R164, R203, R204): `selected`, the mode, the cursor of the identity stream, the pending address, the
device state and every flash byte; every EEPROM byte but offset 0 on a matching confirmation; the page buffer but in the phases that
open, read or fill it; every slave but the active one, apart from its queue; the master. -/
def Obligations.OperandFrame : Prop :=
  ∀ (s t : State) (d : Byte), exec (.data d) s = .next t →
    t.params = s.params ∧ t.master = s.master ∧ t.active = s.active ∧ t.calls = s.calls ∧ t.returns = s.returns ∧
    t.agenda = s.agenda ∧ t.ticks = s.ticks ∧
    (t.link = s.link ∨ ∃ w, LinkTook s.params.xfifoDepth s.link t.link w) ∧
    t.slaves.length = s.slaves.length ∧
    ∀ (k : Nat) (S : Slave), s.slaves[k]? = some S → ∃ T, t.slaves[k]? = some T ∧
      (∃ ext, T.rx = S.rx ++ ext ∧ ext.length ≤ 1) ∧
      (k ≠ s.active → T = { S with rx := T.rx }) ∧
      T.board = S.board ∧ T.selected = S.selected ∧ T.addressPending = S.addressPending ∧ T.heldAddr = S.heldAddr ∧
      T.mode = S.mode ∧ T.idCursor = S.idCursor ∧ T.devState = S.devState ∧
      (∀ x, T.flash.read x = S.flash.read x) ∧
      (∀ x, (x ≠ 0 ∨ S.phase ≠ .asConfirm d) → T.eeprom.read x = S.eeprom.read x) ∧
      ((∀ dir addr, S.phase ≠ .bufCount dir addr) → (∀ rem, S.phase ≠ .rdDummy rem) → (∀ rem, S.phase ≠ .wrByte rem) →
        T.page = S.page)

/-- What link bytes and drain bytes leave unchanged: `X`'s steps every slave but for one arriving word, which only `LINK_LO` sends, and the
master; the master's reads every slave and the link but for bytes it writes to `L.h2x`, and add at most one result. Every byte of every
medium reads as before. -/
def Obligations.LinkAndDrainFrame : Prop :=
  ∀ (s t : State) (i : Instr), exec i s = .next t →
    (((∃ h, i = .linkHi h) ∨ (∃ l, i = .linkLo l) ∨ i = .linkDrain ∨ (∃ b, i = .linkReserved b)) →
      t.params = s.params ∧ t.master = s.master ∧ t.active = s.active ∧ t.calls = s.calls ∧ t.returns = s.returns ∧
      t.agenda = s.agenda ∧ t.ticks = s.ticks ∧ t.link.h2x = s.link.h2x ∧ (i ≠ .linkDrain → t.link.x2h = s.link.x2h) ∧
      ((∀ h, i ≠ .linkHi h) → (∀ l, i ≠ .linkLo l) → t.link.hiLatch = s.link.hiLatch) ∧ t.slaves.length = s.slaves.length ∧
      ∀ (k : Nat) (S : Slave), s.slaves[k]? = some S → ∃ T ext, t.slaves[k]? = some T ∧ T = { S with rx := S.rx ++ ext } ∧
        ext.length ≤ 1 ∧ ((∀ l, i ≠ .linkLo l) → ext = []) ∧
        (∀ x, T.flash.read x = S.flash.read x) ∧ (∀ x, T.eeprom.read x = S.eeprom.read x)) ∧
    (((∃ m c, i = .drainHdr m c) ∨ (∃ p, i = .drainPayload p)) →
      t.params = s.params ∧ t.slaves = s.slaves ∧ t.active = s.active ∧ t.calls = s.calls ∧
      t.agenda = s.agenda ∧ t.ticks = s.ticks ∧ (∃ bs, t.link = { s.link with h2x := s.link.h2x ++ bs }) ∧
      ∃ rs, t.returns = s.returns ++ rs ∧ rs.length ≤ 1)
end

