-- ==== Sys2Proof/Laws/Words.lean ====
section
/-! SUPPORT. The 9-bit word, its two halves and its fields. -/

namespace Sys2Proof

@[simp] theorem Word.isAddress_address (a : Byte) : (Word.address a).isAddress = true := by
  simp [Word.isAddress, Word.address]

@[simp] theorem Word.payload_address (a : Byte) : (Word.address a).payload = a := by
  simp only [Word.payload, Word.address]
  revert a; decide

@[simp] theorem Word.isAddress_data (d : Byte) : (Word.data d).isAddress = false := by
  simp [Word.isAddress, Word.data]

@[simp] theorem Word.payload_data (d : Byte) : (Word.data d).payload = d := by
  simp [Word.payload, Word.data]

/-- A word is `Address(a)` or `Data(d)` of its payload (R12). -/
theorem Word.eq_of_flag (w : Word) : w = if w.isAddress then Word.address w.payload else Word.data w.payload := by
  revert w; decide

theorem Word.eq_address {w : Word} (h : w.isAddress = true) : w = Word.address w.payload := by
  have := Word.eq_of_flag w; simpa [h] using this

theorem Word.eq_data {w : Word} (h : w.isAddress = false) : w = Word.data w.payload := by
  have := Word.eq_of_flag w; simpa [h] using this

theorem Word.address_injective {a b : Byte} (h : Word.address a = Word.address b) : a = b := by
  have := congrArg Word.payload h; simpa using this

theorem Word.data_injective {a b : Byte} (h : Word.data a = Word.data b) : a = b := by
  have := congrArg Word.payload h; simpa using this

theorem Word.ack_eq : Word.ack = Word.data 0xA5 := by decide
theorem Word.nack_eq : Word.nack = Word.data 0x00 := by decide
theorem Word.sentinel_eq : Word.sentinel = Word.data 0x00 := by decide

/-! ## The link codec's decoder on the bytes of `enc2` -/

theorem decodeLink_enc2_fst (w : Word) : decodeLink (enc2 w).1 = .linkHi ((w >>> 4).setWidth 5) := by
  revert w; decide

theorem decodeLink_enc2_snd (w : Word) : decodeLink (enc2 w).2 = .linkLo (w.setWidth 4) := by
  revert w; decide

theorem wordOfHalves_split (w : Word) : wordOfHalves ((w >>> 4).setWidth 5) (w.setWidth 4) = w := by
  revert w; decide

/-! ## The opcode tables -/

/-- What a universal opcode is (R93). -/
theorem decodeUniversal_cases {d : Byte} {i : Instr} (h : decodeUniversal d = some i) :
    (d = 0xFF ∧ i = .deselect) ∨ (d = 0xFE ∧ i = .idStart) ∨ (d = 0xFD ∧ i = .idNext) ∨
    (d = 0xFC ∧ i = .addrSet) ∨ (d = 0xFB ∧ i = .bootEnter) ∨ (d = 0xFA ∧ i = .bootExit) := by
  unfold decodeUniversal at h
  split_ifs at h <;> simp_all

theorem decodeUniversal_none {d : Byte} (h : d.toNat < 0xFA) : decodeUniversal d = none := by
  cases hu : decodeUniversal d with
  | none => rfl
  | some i => rcases decodeUniversal_cases hu with ⟨rfl, _⟩ | ⟨rfl, _⟩ | ⟨rfl, _⟩ | ⟨rfl, _⟩ | ⟨rfl, _⟩ | ⟨rfl, _⟩ <;> simp at h

theorem decodeUniversal_isSome {d : Byte} (h : decodeUniversal d = none) : d.toNat < 0xFA := by
  by_contra hge
  have hlt := d.isLt
  rw [show d = BitVec.ofNat 8 d.toNat by simp] at h
  generalize d.toNat = n at h hge hlt
  have : 0xFA ≤ n := by omega
  interval_cases n <;> revert h <;> decide

/-- What an application opcode is (R94). -/
theorem decodeDev_cases {d : Byte} {i : Instr} (h : decodeDev d = some i) :
    i.devOpcode = some d ∧ d.toNat ≤ 0x0A := by
  unfold decodeDev at h
  iterate 11 (rcases ite_eq_iff.1 h with ⟨rfl, h⟩ | ⟨-, h⟩; · cases h; exact ⟨rfl, by decide⟩)
  cases h

theorem decodeDev_none {d : Byte} (h : 0x0A < d.toNat) : decodeDev d = none := by
  cases hd : decodeDev d with
  | none => rfl
  | some i => have := (decodeDev_cases hd).2; omega

theorem decodeDev_isSome {d : Byte} (h : decodeDev d = none) : 0x0A < d.toNat := by
  by_contra hle
  rw [show d = BitVec.ofNat 8 d.toNat by simp] at h
  generalize d.toNat = n at h hle
  have : n ≤ 0x0A := by omega
  interval_cases n <;> revert h <;> decide

/-- The row of an application opcode (R94). -/
theorem decodeDev_devOpcode {i : Instr} {d : Byte} (h : i.devOpcode = some d) : decodeDev d = some i := by
  cases i <;> simp only [Instr.devOpcode, Option.some.injEq, reduceCtorEq] at h <;> subst h <;> decide

/-- What a bootloader opcode is (R94). -/
theorem decodeBoot_cases {d : Byte} {i : Instr} (h : decodeBoot d = some i) :
    (d = 0x01 ∧ i = .rdBuf) ∨ (d = 0x02 ∧ i = .wrBuf) := by
  unfold decodeBoot at h
  split_ifs at h <;> simp_all

end Sys2Proof
end

