-- ==== Sys2Proof/Laws/Drain.lean ====
section
/-! SUPPORT. The drain response: its header's fields, and that it reports the words it was built from (R86 to R89). -/

namespace Sys2Proof

/-- A word is its 9th bit above its payload. -/
theorem Word.eq_flag_payload (w : Word) : (BitVec.ofBool w.isAddress).setWidth 9 <<< 8 ||| w.payload.setWidth 9 = w := by
  revert w; decide

/-- The words from byte `k` on do not touch the marker bits of the bytes before. -/
theorem markerOf_bit_before (c i : Nat) (ws : List Word) : ∀ k : Nat, i < k → k + ws.length = c →
    (markerOf c k ws).getLsbD (drainMarkerMap i c) = false := by
  induction ws with
  | nil => intro k _ _; simp [markerOf]
  | cons w ws ih =>
    intro k hk hl
    simp only [List.length_cons] at hl
    have := ih (k + 1) (by omega) (by omega)
    simp only [drainMarkerMap] at this
    simp only [markerOf, BitVec.getLsbD_or, BitVec.getLsbD_shiftLeft, BitVec.getLsbD_setWidth, BitVec.getLsbD_ofBool,
      drainMarkerMap, this]
    simp [show c - 1 - i - (c - 1 - k) ≠ 0 by omega]

/-- The marker bit of byte `i` is the 9th bit of its word (R87). -/
theorem markerOf_bit (c : Nat) (ws : List Word) : ∀ j i : Nat, j + ws.length = c → c ≤ 5 → j ≤ i → i < c →
    (markerOf c j ws).getLsbD (drainMarkerMap i c) = (ws[i - j]?.map Word.isAddress).getD false := by
  induction ws with
  | nil => intro j i h1 _ h3 h4; simp at h1; omega
  | cons w ws ih =>
    intro j i h1 h2 h3 h4
    simp only [List.length_cons] at h1
    by_cases hij : i = j
    · subst hij
      have := markerOf_bit_before c i ws (i + 1) (by omega) (by omega)
      simp only [drainMarkerMap] at this
      simp only [markerOf, BitVec.getLsbD_or, BitVec.getLsbD_shiftLeft, BitVec.getLsbD_setWidth, BitVec.getLsbD_ofBool,
        drainMarkerMap, this]
      simp [show c - 1 - i < 5 by omega]
    · have := ih (j + 1) i (by omega) h2 (by omega) h4
      simp only [drainMarkerMap] at this
      simp only [markerOf, BitVec.getLsbD_or, BitVec.getLsbD_shiftLeft, BitVec.getLsbD_setWidth, BitVec.getLsbD_ofBool,
        drainMarkerMap, this, show i - j = (i - (j + 1)) + 1 by omega]
      simp [show c - 1 - i < c - 1 - j by omega]

/-- The payload bytes from byte `j` on give back the words whose 9th bits the marker holds. -/
theorem drainWords_payloads (m : BitVec 5) (c : Nat) (ws : List Word) : ∀ j : Nat,
    (∀ (i : Nat) (w : Word), ws[i]? = some w → m.getLsbD (drainMarkerMap (j + i) c) = w.isAddress) →
    drainWords m c j (ws.map Word.payload) = ws := by
  induction ws with
  | nil => intro j _; rfl
  | cons w ws ih =>
    intro j h
    have h0 := h 0 w rfl
    simp only [List.map_cons, drainWords, drainWord, List.cons.injEq]
    refine ⟨by rw [Nat.add_zero] at h0; rw [h0]; exact w.eq_flag_payload, ih (j + 1) fun i v hv => ?_⟩
    have := h (i + 1) v (by simpa using hv)
    rwa [show j + 1 + i = j + (i + 1) by omega]

/-- The words of a whole response are the words reported (R89). -/
theorem drainWords_markerOf (ws : List Word) (h : ws.length ≤ 5) :
    drainWords (markerOf ws.length 0 ws) ws.length 0 (ws.map Word.payload) = ws := by
  apply drainWords_payloads
  intro i w hw
  have hi := (List.getElem?_eq_some_iff.1 hw).1
  rw [Nat.zero_add, markerOf_bit ws.length ws 0 i (by omega) h (by omega) hi, Nat.sub_zero, hw]
  rfl

/-- The fields of a header byte (R86). -/
theorem header_marker (m : BitVec 5) (c : Nat) (h : c ≤ 5) :
    ((m.setWidth 8 <<< 3) ||| BitVec.ofNat 8 c).extractLsb' 3 5 = m := by
  interval_cases c <;> revert m <;> decide

theorem header_count (m : BitVec 5) (c : Nat) (h : c ≤ 5) :
    ((m.setWidth 8 <<< 3) ||| BitVec.ofNat 8 c).setWidth 3 = BitVec.ofNat 3 c := by
  interval_cases c <;> revert m <;> decide

/-- The decoder reads a response's header as its marker and count. -/
theorem decodeHeader_markerOf (m : BitVec 5) (c : Nat) (h : c ≤ 5) :
    decodeHeader ((m.setWidth 8 <<< 3) ||| BitVec.ofNat 8 c) = .drainHdr m (BitVec.ofNat 3 c) := by
  simp only [decodeHeader, header_marker m c h, header_count m c h]

end Sys2Proof
end

