-- ==== Sys2Proof/Laws/State.lean ====
section
/-! SUPPORT. One lemma per field per update of the state records, so that no later proof unfolds a record update. -/

namespace Sys2Proof.Machine

/-! ## `putSlave` -/

@[simp] theorem State.putSlave_params (s : State) (S : Slave) :
    (s.putSlave S).params = s.params := rfl
@[simp] theorem State.putSlave_slaves (s : State) (S : Slave) :
    (s.putSlave S).slaves = s.slaves.set s.active S := rfl
@[simp] theorem State.putSlave_link (s : State) (S : Slave) :
    (s.putSlave S).link = s.link := rfl
@[simp] theorem State.putSlave_master (s : State) (S : Slave) :
    (s.putSlave S).master = s.master := rfl
@[simp] theorem State.putSlave_active (s : State) (S : Slave) :
    (s.putSlave S).active = s.active := rfl
@[simp] theorem State.putSlave_calls (s : State) (S : Slave) :
    (s.putSlave S).calls = s.calls := rfl
@[simp] theorem State.putSlave_returns (s : State) (S : Slave) :
    (s.putSlave S).returns = s.returns := rfl
@[simp] theorem State.putSlave_agenda (s : State) (S : Slave) :
    (s.putSlave S).agenda = s.agenda := rfl
@[simp] theorem State.putSlave_ticks (s : State) (S : Slave) :
    (s.putSlave S).ticks = s.ticks := rfl

/-! ## `busTx` -/

@[simp] theorem State.busTx_params (s : State) (w : Word) :
    (s.busTx w).params = s.params := rfl
@[simp] theorem State.busTx_slaves (s : State) (w : Word) :
    (s.busTx w).slaves = s.slaves.map (Slave.deliver w) := rfl
@[simp] theorem State.busTx_link (s : State) (w : Word) :
    (s.busTx w).link = s.link.deliver s.params.xfifoDepth w := rfl
@[simp] theorem State.busTx_master (s : State) (w : Word) :
    (s.busTx w).master = s.master := rfl
@[simp] theorem State.busTx_active (s : State) (w : Word) :
    (s.busTx w).active = s.active := rfl
@[simp] theorem State.busTx_calls (s : State) (w : Word) :
    (s.busTx w).calls = s.calls := rfl
@[simp] theorem State.busTx_returns (s : State) (w : Word) :
    (s.busTx w).returns = s.returns := rfl
@[simp] theorem State.busTx_agenda (s : State) (w : Word) :
    (s.busTx w).agenda = s.agenda := rfl
@[simp] theorem State.busTx_ticks (s : State) (w : Word) :
    (s.busTx w).ticks = s.ticks := rfl

/-! ## `reply` -/

@[simp] theorem State.reply_params (s : State) (S : Slave) (w : Word) (c : Cont) :
    (s.reply S w c).params = s.params := rfl
@[simp] theorem State.reply_slaves (s : State) (S : Slave) (w : Word) (c : Cont) :
    (s.reply S w c).slaves = (s.slaves.set s.active { S with phase := .echo c }).map (Slave.deliver w) := rfl
@[simp] theorem State.reply_link (s : State) (S : Slave) (w : Word) (c : Cont) :
    (s.reply S w c).link = s.link.deliver s.params.xfifoDepth w := rfl
@[simp] theorem State.reply_master (s : State) (S : Slave) (w : Word) (c : Cont) :
    (s.reply S w c).master = s.master := rfl
@[simp] theorem State.reply_active (s : State) (S : Slave) (w : Word) (c : Cont) :
    (s.reply S w c).active = s.active := rfl
@[simp] theorem State.reply_calls (s : State) (S : Slave) (w : Word) (c : Cont) :
    (s.reply S w c).calls = s.calls := rfl
@[simp] theorem State.reply_returns (s : State) (S : Slave) (w : Word) (c : Cont) :
    (s.reply S w c).returns = s.returns := rfl
@[simp] theorem State.reply_agenda (s : State) (S : Slave) (w : Word) (c : Cont) :
    (s.reply S w c).agenda = s.agenda := rfl
@[simp] theorem State.reply_ticks (s : State) (S : Slave) (w : Word) (c : Cont) :
    (s.reply S w c).ticks = s.ticks := rfl

/-! ## `finish` -/

@[simp] theorem State.finish_params (s : State) (r : Return) :
    (s.finish r).params = s.params := rfl
@[simp] theorem State.finish_slaves (s : State) (r : Return) :
    (s.finish r).slaves = s.slaves := rfl
@[simp] theorem State.finish_link (s : State) (r : Return) :
    (s.finish r).link = s.link := rfl
@[simp] theorem State.finish_master (s : State) (r : Return) :
    (s.finish r).master = { s.master with phase := .idle } := rfl
@[simp] theorem State.finish_active (s : State) (r : Return) :
    (s.finish r).active = s.active := rfl
@[simp] theorem State.finish_calls (s : State) (r : Return) :
    (s.finish r).calls = s.calls := rfl
@[simp] theorem State.finish_returns (s : State) (r : Return) :
    (s.finish r).returns = s.returns ++ [r] := rfl
@[simp] theorem State.finish_agenda (s : State) (r : Return) :
    (s.finish r).agenda = s.agenda := rfl
@[simp] theorem State.finish_ticks (s : State) (r : Return) :
    (s.finish r).ticks = s.ticks := rfl

/-! ## `raise` -/

@[simp] theorem State.raise_params (s : State) (k : ErrKind) :
    (s.raise k).params = s.params := rfl
@[simp] theorem State.raise_slaves (s : State) (k : ErrKind) :
    (s.raise k).slaves = s.slaves := rfl
@[simp] theorem State.raise_link (s : State) (k : ErrKind) :
    (s.raise k).link = s.link := rfl
@[simp] theorem State.raise_master (s : State) (k : ErrKind) :
    (s.raise k).master = { s.master with phase := .idle } := rfl
@[simp] theorem State.raise_active (s : State) (k : ErrKind) :
    (s.raise k).active = s.active := rfl
@[simp] theorem State.raise_calls (s : State) (k : ErrKind) :
    (s.raise k).calls = s.calls := rfl
@[simp] theorem State.raise_returns (s : State) (k : ErrKind) :
    (s.raise k).returns = s.returns ++ [.err k] := rfl
@[simp] theorem State.raise_agenda (s : State) (k : ErrKind) :
    (s.raise k).agenda = s.agenda := rfl
@[simp] theorem State.raise_ticks (s : State) (k : ErrKind) :
    (s.raise k).ticks = s.ticks := rfl

/-! ## `linkWrite` -/

@[simp] theorem State.linkWrite_params (s : State) (bs : List Byte) :
    (s.linkWrite bs).params = s.params := rfl
@[simp] theorem State.linkWrite_slaves (s : State) (bs : List Byte) :
    (s.linkWrite bs).slaves = s.slaves := rfl
@[simp] theorem State.linkWrite_link (s : State) (bs : List Byte) :
    (s.linkWrite bs).link = { s.link with h2x := s.link.h2x ++ bs } := rfl
@[simp] theorem State.linkWrite_master (s : State) (bs : List Byte) :
    (s.linkWrite bs).master = s.master := rfl
@[simp] theorem State.linkWrite_active (s : State) (bs : List Byte) :
    (s.linkWrite bs).active = s.active := rfl
@[simp] theorem State.linkWrite_calls (s : State) (bs : List Byte) :
    (s.linkWrite bs).calls = s.calls := rfl
@[simp] theorem State.linkWrite_returns (s : State) (bs : List Byte) :
    (s.linkWrite bs).returns = s.returns := rfl
@[simp] theorem State.linkWrite_agenda (s : State) (bs : List Byte) :
    (s.linkWrite bs).agenda = s.agenda := rfl
@[simp] theorem State.linkWrite_ticks (s : State) (bs : List Byte) :
    (s.linkWrite bs).ticks = s.ticks := rfl

/-! ## `hostSend` -/

@[simp] theorem State.hostSend_params (s : State) (w : Word) :
    (s.hostSend w).params = s.params := rfl
@[simp] theorem State.hostSend_slaves (s : State) (w : Word) :
    (s.hostSend w).slaves = s.slaves := rfl
@[simp] theorem State.hostSend_link (s : State) (w : Word) :
    (s.hostSend w).link = { s.link with h2x := s.link.h2x ++ [(enc2 w).1, (enc2 w).2] } := rfl
@[simp] theorem State.hostSend_master (s : State) (w : Word) :
    (s.hostSend w).master = { s.master with pendingEchoDiscards := s.master.pendingEchoDiscards + 1 } := rfl
@[simp] theorem State.hostSend_active (s : State) (w : Word) :
    (s.hostSend w).active = s.active := rfl
@[simp] theorem State.hostSend_calls (s : State) (w : Word) :
    (s.hostSend w).calls = s.calls := rfl
@[simp] theorem State.hostSend_returns (s : State) (w : Word) :
    (s.hostSend w).returns = s.returns := rfl
@[simp] theorem State.hostSend_agenda (s : State) (w : Word) :
    (s.hostSend w).agenda = s.agenda := rfl
@[simp] theorem State.hostSend_ticks (s : State) (w : Word) :
    (s.hostSend w).ticks = s.ticks := rfl

/-! ## `setFault` -/

@[simp] theorem State.setFault_params (s : State)  :
    (s.setFault).params = s.params := rfl
@[simp] theorem State.setFault_slaves (s : State)  :
    (s.setFault).slaves = s.slaves := rfl
@[simp] theorem State.setFault_link (s : State)  :
    (s.setFault).link = { s.link with fault := true } := rfl
@[simp] theorem State.setFault_master (s : State)  :
    (s.setFault).master = s.master := rfl
@[simp] theorem State.setFault_active (s : State)  :
    (s.setFault).active = s.active := rfl
@[simp] theorem State.setFault_calls (s : State)  :
    (s.setFault).calls = s.calls := rfl
@[simp] theorem State.setFault_returns (s : State)  :
    (s.setFault).returns = s.returns := rfl
@[simp] theorem State.setFault_agenda (s : State)  :
    (s.setFault).agenda = s.agenda := rfl
@[simp] theorem State.setFault_ticks (s : State)  :
    (s.setFault).ticks = s.ticks := rfl

/-! ## `deliver` -/

@[simp] theorem Slave.deliver_board (S : Slave) (w : Word) :
    (S.deliver w).board = S.board := rfl
@[simp] theorem Slave.deliver_selected (S : Slave) (w : Word) :
    (S.deliver w).selected = S.selected := rfl
@[simp] theorem Slave.deliver_addressPending (S : Slave) (w : Word) :
    (S.deliver w).addressPending = S.addressPending := rfl
@[simp] theorem Slave.deliver_heldAddr (S : Slave) (w : Word) :
    (S.deliver w).heldAddr = S.heldAddr := rfl
@[simp] theorem Slave.deliver_mode (S : Slave) (w : Word) :
    (S.deliver w).mode = S.mode := rfl
@[simp] theorem Slave.deliver_idCursor (S : Slave) (w : Word) :
    (S.deliver w).idCursor = S.idCursor := rfl
@[simp] theorem Slave.deliver_rx (S : Slave) (w : Word) :
    (S.deliver w).rx = S.rx ++ [w] := rfl
@[simp] theorem Slave.deliver_phase (S : Slave) (w : Word) :
    (S.deliver w).phase = S.phase := rfl
@[simp] theorem Slave.deliver_page (S : Slave) (w : Word) :
    (S.deliver w).page = S.page := rfl
@[simp] theorem Slave.deliver_flash (S : Slave) (w : Word) :
    (S.deliver w).flash = S.flash := rfl
@[simp] theorem Slave.deliver_eeprom (S : Slave) (w : Word) :
    (S.deliver w).eeprom = S.eeprom := rfl
@[simp] theorem Slave.deliver_devState (S : Slave) (w : Word) :
    (S.deliver w).devState = S.devState := rfl

/-! ## `setSelected` -/

@[simp] theorem Slave.setSelected_board (S : Slave) (v : Bool) :
    (S.setSelected v).board = S.board := rfl
@[simp] theorem Slave.setSelected_selected (S : Slave) (v : Bool) :
    (S.setSelected v).selected = v := rfl
@[simp] theorem Slave.setSelected_addressPending (S : Slave) (v : Bool) :
    (S.setSelected v).addressPending = S.addressPending := rfl
@[simp] theorem Slave.setSelected_heldAddr (S : Slave) (v : Bool) :
    (S.setSelected v).heldAddr = S.heldAddr := rfl
@[simp] theorem Slave.setSelected_mode (S : Slave) (v : Bool) :
    (S.setSelected v).mode = S.mode := rfl
@[simp] theorem Slave.setSelected_idCursor (S : Slave) (v : Bool) :
    (S.setSelected v).idCursor = S.idCursor := rfl
@[simp] theorem Slave.setSelected_rx (S : Slave) (v : Bool) :
    (S.setSelected v).rx = S.rx := rfl
@[simp] theorem Slave.setSelected_phase (S : Slave) (v : Bool) :
    (S.setSelected v).phase = S.phase := rfl
@[simp] theorem Slave.setSelected_page (S : Slave) (v : Bool) :
    (S.setSelected v).page = S.page := rfl
@[simp] theorem Slave.setSelected_flash (S : Slave) (v : Bool) :
    (S.setSelected v).flash = S.flash := rfl
@[simp] theorem Slave.setSelected_eeprom (S : Slave) (v : Bool) :
    (S.setSelected v).eeprom = S.eeprom := rfl
@[simp] theorem Slave.setSelected_devState (S : Slave) (v : Bool) :
    (S.setSelected v).devState = S.devState := rfl

/-! ## `abort` -/

@[simp] theorem Slave.abort_board (S : Slave)  :
    (S.abort).board = S.board := rfl
@[simp] theorem Slave.abort_selected (S : Slave)  :
    (S.abort).selected = S.selected := rfl
@[simp] theorem Slave.abort_addressPending (S : Slave)  :
    (S.abort).addressPending = S.addressPending := rfl
@[simp] theorem Slave.abort_heldAddr (S : Slave)  :
    (S.abort).heldAddr = S.heldAddr := rfl
@[simp] theorem Slave.abort_mode (S : Slave)  :
    (S.abort).mode = S.mode := rfl
@[simp] theorem Slave.abort_idCursor (S : Slave)  :
    (S.abort).idCursor = S.idCursor := rfl
@[simp] theorem Slave.abort_rx (S : Slave)  :
    (S.abort).rx = S.rx := rfl
@[simp] theorem Slave.abort_phase (S : Slave)  :
    (S.abort).phase = .main := rfl
@[simp] theorem Slave.abort_page (S : Slave)  :
    (S.abort).page = S.page := rfl
@[simp] theorem Slave.abort_flash (S : Slave)  :
    (S.abort).flash = S.flash := rfl
@[simp] theorem Slave.abort_eeprom (S : Slave)  :
    (S.abort).eeprom = S.eeprom := rfl
@[simp] theorem Slave.abort_devState (S : Slave)  :
    (S.abort).devState = S.devState := rfl

/-! ## `modeSwitch` -/

@[simp] theorem Slave.modeSwitch_board (S : Slave) (m : Mode) :
    (S.modeSwitch m).board = S.board := rfl
@[simp] theorem Slave.modeSwitch_selected (S : Slave) (m : Mode) :
    (S.modeSwitch m).selected = false := rfl
@[simp] theorem Slave.modeSwitch_addressPending (S : Slave) (m : Mode) :
    (S.modeSwitch m).addressPending = false := rfl
@[simp] theorem Slave.modeSwitch_heldAddr (S : Slave) (m : Mode) :
    (S.modeSwitch m).heldAddr = S.heldAddr := rfl
@[simp] theorem Slave.modeSwitch_mode (S : Slave) (m : Mode) :
    (S.modeSwitch m).mode = m := rfl
@[simp] theorem Slave.modeSwitch_idCursor (S : Slave) (m : Mode) :
    (S.modeSwitch m).idCursor = 0 := rfl
@[simp] theorem Slave.modeSwitch_rx (S : Slave) (m : Mode) :
    (S.modeSwitch m).rx = [] := rfl
@[simp] theorem Slave.modeSwitch_phase (S : Slave) (m : Mode) :
    (S.modeSwitch m).phase = .main := rfl
@[simp] theorem Slave.modeSwitch_page (S : Slave) (m : Mode) :
    (S.modeSwitch m).page = none := rfl
@[simp] theorem Slave.modeSwitch_flash (S : Slave) (m : Mode) :
    (S.modeSwitch m).flash = S.flash := rfl
@[simp] theorem Slave.modeSwitch_eeprom (S : Slave) (m : Mode) :
    (S.modeSwitch m).eeprom = S.eeprom := rfl
@[simp] theorem Slave.modeSwitch_devState (S : Slave) (m : Mode) :
    (S.modeSwitch m).devState = (match m with | .app => S.board.devInit | .boot => S.devState) := rfl

/-! ## `noteWord` -/

@[simp] theorem Slave.noteWord_board (S : Slave) (w : Word) :
    (S.noteWord w).board = S.board := by
  unfold Slave.noteWord; split <;> rfl
@[simp] theorem Slave.noteWord_selected (S : Slave) (w : Word) :
    (S.noteWord w).selected = S.selected := by
  unfold Slave.noteWord; split <;> rfl
@[simp] theorem Slave.noteWord_addressPending (S : Slave) (w : Word) :
    (S.noteWord w).addressPending = (w.isAddress || S.addressPending) := by
  unfold Slave.noteWord; split <;> simp_all
@[simp] theorem Slave.noteWord_heldAddr (S : Slave) (w : Word) :
    (S.noteWord w).heldAddr = if w.isAddress then w.payload else S.heldAddr := by
  unfold Slave.noteWord; split <;> rfl
@[simp] theorem Slave.noteWord_mode (S : Slave) (w : Word) :
    (S.noteWord w).mode = S.mode := by
  unfold Slave.noteWord; split <;> rfl
@[simp] theorem Slave.noteWord_idCursor (S : Slave) (w : Word) :
    (S.noteWord w).idCursor = S.idCursor := by
  unfold Slave.noteWord; split <;> rfl
@[simp] theorem Slave.noteWord_rx (S : Slave) (w : Word) :
    (S.noteWord w).rx = S.rx := by
  unfold Slave.noteWord; split <;> rfl
@[simp] theorem Slave.noteWord_phase (S : Slave) (w : Word) :
    (S.noteWord w).phase = S.phase := by
  unfold Slave.noteWord; split <;> rfl
@[simp] theorem Slave.noteWord_page (S : Slave) (w : Word) :
    (S.noteWord w).page = S.page := by
  unfold Slave.noteWord; split <;> rfl
@[simp] theorem Slave.noteWord_flash (S : Slave) (w : Word) :
    (S.noteWord w).flash = S.flash := by
  unfold Slave.noteWord; split <;> rfl
@[simp] theorem Slave.noteWord_eeprom (S : Slave) (w : Word) :
    (S.noteWord w).eeprom = S.eeprom := by
  unfold Slave.noteWord; split <;> rfl
@[simp] theorem Slave.noteWord_devState (S : Slave) (w : Word) :
    (S.noteWord w).devState = S.devState := by
  unfold Slave.noteWord; split <;> rfl

/-! ## `Link.deliver` -/

@[simp] theorem Link.deliver_hiLatch (d : Nat) (w : Word) (X : Link) :
    (X.deliver d w).hiLatch = X.hiLatch := by
  unfold Link.deliver; split <;> rfl
@[simp] theorem Link.deliver_h2x (d : Nat) (w : Word) (X : Link) :
    (X.deliver d w).h2x = X.h2x := by
  unfold Link.deliver; split <;> rfl
@[simp] theorem Link.deliver_x2h (d : Nat) (w : Word) (X : Link) :
    (X.deliver d w).x2h = X.x2h := by
  unfold Link.deliver; split <;> rfl

theorem Link.deliver_fifo (d : Nat) (w : Word) (X : Link) :
    (X.deliver d w).fifo = if X.fifo.length < d then X.fifo ++ [w] else X.fifo := by
  unfold Link.deliver; split <;> rfl

theorem Link.deliver_fault (d : Nat) (w : Word) (X : Link) :
    (X.deliver d w).fault = if X.fifo.length < d then X.fault else true := by
  unfold Link.deliver; split <;> rfl

/-! ## The page buffer -/

@[simp] theorem PageBuffer.put_pageBase (p : PageBuffer) (n : Nat) (b : Byte) :
    (p.put n b).pageBase = p.pageBase := rfl
@[simp] theorem PageBuffer.put_cursor (p : PageBuffer) (n : Nat) (b : Byte) :
    (p.put n b).cursor = (p.cursor + 1) % n := rfl
@[simp] theorem PageBuffer.put_bytes (p : PageBuffer) (n : Nat) (b : Byte) :
    (p.put n b).bytes = p.bytes.set p.cursor b := rfl
@[simp] theorem PageBuffer.put_dirty (p : PageBuffer) (n : Nat) (b : Byte) :
    (p.put n b).dirty = true := rfl
@[simp] theorem PageBuffer.put_region (p : PageBuffer) (n : Nat) (b : Byte) :
    (p.put n b).region = p.region := rfl
@[simp] theorem PageBuffer.advance_pageBase (p : PageBuffer) (n : Nat) :
    (p.advance n).pageBase = p.pageBase := rfl
@[simp] theorem PageBuffer.advance_cursor (p : PageBuffer) (n : Nat) :
    (p.advance n).cursor = (p.cursor + 1) % n := rfl
@[simp] theorem PageBuffer.advance_bytes (p : PageBuffer) (n : Nat) :
    (p.advance n).bytes = p.bytes := rfl
@[simp] theorem PageBuffer.advance_dirty (p : PageBuffer) (n : Nat) :
    (p.advance n).dirty = p.dirty := rfl
@[simp] theorem PageBuffer.advance_region (p : PageBuffer) (n : Nat) :
    (p.advance n).region = p.region := rfl
@[simp] theorem PageBuffer.clean_pageBase (p : PageBuffer)  :
    (p.clean).pageBase = p.pageBase := rfl
@[simp] theorem PageBuffer.clean_cursor (p : PageBuffer)  :
    (p.clean).cursor = p.cursor := rfl
@[simp] theorem PageBuffer.clean_bytes (p : PageBuffer)  :
    (p.clean).bytes = p.bytes := rfl
@[simp] theorem PageBuffer.clean_dirty (p : PageBuffer)  :
    (p.clean).dirty = false := rfl
@[simp] theorem PageBuffer.clean_region (p : PageBuffer)  :
    (p.clean).region = p.region := rfl

end Sys2Proof.Machine
end

