-- ==== Sys2Proof/Laws/Slaves.lean ====
section
/-! SUPPORT. What the shared operations over slaves do, once: replacing the active slave, replying, and running a meaning on the active
slave. -/

namespace Sys2Proof.Machine

theorem State.activeSlave_eq (s : State) : s.activeSlave = s.slaves[s.active]? := rfl

/-- Running a meaning on the active slave when there is one. -/
theorem withSlave_some {s : State} {S : Slave} (h : s.slaves[s.active]? = some S) (f : Slave → Out) :
    withSlave s f = f S := by
  simp [withSlave, State.activeSlave_eq, h]

/-- A meaning on the active slave that ends in a next state found the slave. -/
theorem withSlave_next {s t : State} {f : Slave → Out} (h : withSlave s f = .next t) :
    ∃ S, s.slaves[s.active]? = some S ∧ f S = .next t := by
  unfold withSlave at h
  rw [State.activeSlave_eq] at h
  split at h
  · next S hS => exact ⟨S, hS, h⟩
  · cases h

theorem whenSelected_some {s : State} {S : Slave} (h : s.slaves[s.active]? = some S) (f : Slave → Out) :
    whenSelected s f = if S.selected then f S else .next s := withSlave_some h _

/-- A command that ends in a next state either found its slave unselected and changed nothing, or ran on it. -/
theorem whenSelected_next {s t : State} {f : Slave → Out} (h : whenSelected s f = .next t) :
    ∃ S, s.slaves[s.active]? = some S ∧ ((S.selected = false ∧ t = s) ∨ (S.selected = true ∧ f S = .next t)) := by
  obtain ⟨S, hS, h⟩ := withSlave_next h
  refine ⟨S, hS, ?_⟩
  cases hsel : S.selected with
  | false => left; simp [hsel] at h; exact ⟨rfl, h.symm⟩
  | true => right; simpa [hsel] using h

theorem getElem?_set_self {s : State} {S : Slave} (h : s.slaves[s.active]? = some S) (S' : Slave) :
    (s.slaves.set s.active S')[s.active]? = some S' := by
  have := (List.getElem?_eq_some_iff.1 h).1
  simp [this]

/-- Replacing the active slave changes nothing else. -/
theorem onlySlave_putSlave {s : State} {S : Slave} (h : s.slaves[s.active]? = some S) (S' : Slave) :
    OnlySlave s (s.putSlave S') s.active S' where
  slave_eq := getElem?_set_self h S'
  others j hj := by simp [Ne.symm hj]
  link_eq := rfl
  master_eq := rfl
  params_eq := rfl
  active_eq := rfl
  calls_eq := rfl
  returns_eq := rfl
  agenda_eq := rfl
  ticks_eq := rfl

/-- `X` takes every word on the bus (R62, R128). -/
theorem linkTook_deliver (d : Nat) (w : Word) (X : Link) : LinkTook d X (X.deliver d w) w where
  room h := by simp [Link.deliver, h]
  full h := by simp [Link.deliver, h]
  latch_eq := by simp
  h2x_eq := by simp
  x2h_eq := by simp

/-- A reply is one transmission by the active slave, which then waits for its echo (R113). -/
theorem transmits_reply {s : State} {S : Slave} (h : s.slaves[s.active]? = some S) (S' : Slave) (w : Word) (c : Cont) :
    Transmits s (s.reply S' w c) s.active { S' with phase := .echo c } w where
  slave_eq := by
    rw [State.reply_slaves, List.getElem?_map, getElem?_set_self h]; rfl
  others j hj := by
    rw [State.reply_slaves, List.getElem?_map, List.getElem?_set, if_neg (Ne.symm hj)]; rfl
  link_took := linkTook_deliver _ _ _
  master_eq := rfl
  params_eq := rfl
  active_eq := rfl
  calls_eq := rfl
  returns_eq := rfl
  agenda_eq := rfl
  ticks_eq := rfl

/-! ## The address checks -/

theorem sharesAddress_eq_false {s : State} {k : Nat} {S : Slave} :
    s.sharesAddress k S = false ↔ ∀ (j : Nat) (Q : Slave), j ≠ k → s.slaves[j]? = some Q → Q.address ≠ S.address := by
  simp only [State.sharesAddress, List.any_eq_false, Prod.forall, List.mk_mem_zipIdx_iff_getElem?, Bool.and_eq_true,
    decide_eq_true_eq, not_and]
  exact ⟨fun h j Q hj hQ => h Q j hQ hj, fun h Q j hQ hj => h j Q hj hQ⟩

theorem collides_eq_false {s : State} {k : Nat} {S : Slave} :
    s.collides k S = false ↔ s.AnswersAlone k S := by
  unfold State.collides State.AnswersAlone
  cases hsel : S.selected with
  | false => simp
  | true =>
    simp only [Bool.true_and, List.any_eq_false, Prod.forall, List.mk_mem_zipIdx_iff_getElem?, Bool.and_eq_true,
      decide_eq_true_eq, not_and, and_imp, forall_const]
    exact ⟨fun h j Q hj hQ hs => h Q j hQ hj hs, fun h Q j hQ hj hs => h j Q hj hQ hs⟩

/-! ## Receives -/

theorem Slave.takeMain_held {S : Slave} (h : S.addressPending = true) :
    S.takeMain = some (Word.address S.heldAddr, { S with addressPending := false }) := by
  simp [Slave.takeMain, h]

theorem Slave.takeMain_rx {S : Slave} {w : Word} {ws : List Word} (h : S.addressPending = false) (hr : S.rx = w :: ws) :
    S.takeMain = some (w, { S with rx := ws, heldAddr := if w.isAddress then w.payload else S.heldAddr }) := by
  obtain ⟨⟩ := S
  simp only at h hr
  subst h hr
  cases hw : w.isAddress <;> simp [Slave.takeMain, Slave.recv, Slave.noteWord, hw]

theorem Slave.takeMain_empty {S : Slave} (h : S.addressPending = false) (hr : S.rx = []) : S.takeMain = none := by
  simp [Slave.takeMain, Slave.recv, h, hr]

/-- What the main loop can take, and what it leaves unchanged (R141). -/
theorem Slave.takeMain_cases {S S' : Slave} {w : Word} (h : S.takeMain = some (w, S')) :
    (S.addressPending = true ∧ w = Word.address S.heldAddr ∧ S' = { S with addressPending := false }) ∨
    (S.addressPending = false ∧ ∃ ws, S.rx = w :: ws ∧
      S' = { S with rx := ws, heldAddr := if w.isAddress then w.payload else S.heldAddr }) := by
  cases hp : S.addressPending with
  | true =>
    rw [Slave.takeMain_held hp] at h
    simp only [Option.some.injEq, Prod.mk.injEq] at h
    exact .inl ⟨rfl, h.1.symm, h.2.symm⟩
  | false =>
    cases hr : S.rx with
    | nil => rw [Slave.takeMain_empty hp hr] at h; cases h
    | cons x ws =>
      rw [Slave.takeMain_rx hp hr] at h
      simp only [Option.some.injEq, Prod.mk.injEq] at h
      obtain ⟨rfl, rfl⟩ := h
      exact .inr ⟨rfl, ws, rfl, by rw [hp]⟩

theorem Slave.recv_cons {S : Slave} {w : Word} {ws : List Word} (hr : S.rx = w :: ws) :
    S.recv = some (w, { S with
      rx := ws
      addressPending := w.isAddress || S.addressPending
      heldAddr := if w.isAddress then w.payload else S.heldAddr }) := by
  obtain ⟨⟩ := S
  simp only at hr
  subst hr
  simp only [Slave.recv, Slave.noteWord]
  split <;> simp_all

theorem Slave.recv_nil {S : Slave} (hr : S.rx = []) : S.recv = none := by simp [Slave.recv, hr]

/-- What a data receive can answer (R112). -/
theorem Slave.recvData_cases (S : Slave) :
    (S.addressPending = true ∧ S.recvData = .err .invalidAddress S) ∨
    (S.addressPending = false ∧ S.rx = [] ∧ S.recvData = .wait) ∨
    (S.addressPending = false ∧ ∃ a ws, S.rx = Word.address a :: ws ∧
      S.recvData = .err .invalidAddress { S with rx := ws, addressPending := true, heldAddr := a }) ∨
    (S.addressPending = false ∧ ∃ d ws, S.rx = Word.data d :: ws ∧ S.recvData = .ok d { S with rx := ws }) := by
  cases hp : S.addressPending with
  | true => exact .inl ⟨rfl, by simp [Slave.recvData, hp]⟩
  | false =>
    right
    cases hr : S.rx with
    | nil => exact .inl ⟨rfl, rfl, by simp [Slave.recvData, hp, Slave.recv_nil hr]⟩
    | cons w ws =>
      right
      cases hw : w.isAddress with
      | true =>
        left
        refine ⟨rfl, w.payload, ws, by rw [← Word.eq_address hw], ?_⟩
        simp [Slave.recvData, hp, Slave.recv_cons hr, hw]
      | false =>
        right
        refine ⟨rfl, w.payload, ws, by rw [← Word.eq_data hw], ?_⟩
        obtain ⟨⟩ := S
        simp only at hp hr
        subst hp hr
        simp [Slave.recvData, Slave.recv, Slave.noteWord, hw]

end Sys2Proof.Machine
end

