-- ==== Sys2Proof/Laws/Handlers.lean ====
section
/-! SUPPORT. Device-specific handlers: the promised number of replies, and every way running one can end (R182 to R184). -/

namespace Sys2Proof.Machine

/-- A handler of the admitted subset whose listed part keeps its contract replies the promised count, listed or free (R182). -/
theorem handlerFunction_length {h : Handler} (hk : ∀ e ∈ h.known, e.2.2.length = h.replies) (image : Nat) (st : DevState) :
    (handlerFunction h image st).2.length = h.replies := by
  unfold handlerFunction
  split
  · next e he => exact hk e (List.mem_of_find?_eq_some he)
  · simp

/-- Every way a handler can end. -/
theorem runHandler_cases (h : Handler) (S : Slave) (s : State) :
    (h.operands ≠ 0 ∧ runHandler h S s = .refused .handlerOperands) ∨
    (h.operands = 0 ∧ (handlerFunction h S.board.image S.devState).2.length ≠ h.replies ∧
      runHandler h S s = .refused .handlerContract) ∨
    (h.operands = 0 ∧ (handlerFunction h S.board.image S.devState).2.length = h.replies ∧
      runHandler h S s = .next (s.sendList { S with devState := (handlerFunction h S.board.image S.devState).1 }
        (handlerFunction h S.board.image S.devState).2)) := by
  unfold runHandler
  by_cases ho : h.operands = 0
  · by_cases hl : (handlerFunction h S.board.image S.devState).2.length = h.replies
    · exact .inr (.inr ⟨ho, hl, by simp [ho, hl]⟩)
    · exact .inr (.inl ⟨ho, hl, by simp [ho, hl]⟩)
  · exact .inl ⟨ho, by simp [ho]⟩

/-- A registered opcode of the application image runs its handler (R184). -/
theorem runDev_handler {s : State} {S : Slave} {d : Byte} {h : Handler} (hS : s.slaves[s.active]? = some S)
    (hs : S.selected = true) (hm : S.mode = .app) (hh : S.board.handler d = some h) : runDev d s = runHandler h S s := by
  rw [runDev, whenSelected_some hS]
  simp [hs, hm, hh]

end Sys2Proof.Machine
end

