-- ==== Sys2Proof/Laws/Master.lean ====
section
/-! SUPPORT. The master's run over its ring: what it can change, once; and one lemma for each way its loop can go (R221 to R226). -/

namespace Sys2Proof.Machine

/-- The ring the loop is given stands for the one in the state. -/
theorem hostRecv_ring (call : Call) (i : Nat) (out : List Byte) (l r : List Word) (s : State) :
    hostRecv call i out l { s with master := { s.master with ring := r } } = hostRecv call i out l s := by
  cases l <;> rfl

theorem hostRecv_nil (call : Call) (i : Nat) (out : List Byte) (s : State) :
    hostRecv call i out [] s = .empty call i out { s with master := { s.master with ring := [] } } := rfl

/-- While echoes are outstanding the oldest word is discarded (R222). -/
theorem hostRecv_echo {s : State} (h : 0 < s.master.pendingEchoDiscards) (call : Call) (i : Nat) (out : List Byte) (w : Word)
    (ws : List Word) :
    hostRecv call i out (w :: ws) s = hostRecv call i out ws
      { s with master := { s.master with ring := ws, pendingEchoDiscards := s.master.pendingEchoDiscards - 1 } } := by
  rw [hostRecv, if_pos h]

/-- As many words as echoes are outstanding are discarded, unchecked (R222). -/
theorem hostRecv_echoes (call : Call) (i : Nat) (out : List Byte) (es ws : List Word) : ∀ s : State,
    es.length ≤ s.master.pendingEchoDiscards →
    hostRecv call i out (es ++ ws) s = hostRecv call i out ws
      { s with master := { s.master with pendingEchoDiscards := s.master.pendingEchoDiscards - es.length } } := by
  induction es with
  | nil => intro s _; rfl
  | cons e es ih =>
    intro s h
    simp only [List.length_cons] at h
    rw [List.cons_append, hostRecv_echo (by omega), ih _ (by simp only; omega)]
    simp only [List.length_cons, Nat.sub_sub, Nat.add_comm 1]
    exact hostRecv_ring call i out ws (es ++ ws)
      { s with master := { s.master with pendingEchoDiscards := s.master.pendingEchoDiscards - (es.length + 1) } }

/-- With no echo outstanding the oldest word is the reply: a bad one ends the operation. -/
theorem hostRecv_error {s : State} (h : s.master.pendingEchoDiscards = 0) {call : Call} {i : Nat} {out : List Byte} {w : Word}
    {r : Return} (hc : call.checkReply i out w = .error r) (ws : List Word) :
    hostRecv call i out (w :: ws) s = .rest (State.finish { s with master := { s.master with ring := ws } } r) := by
  simp [hostRecv, h, hc]

/-- The last good reply completes the operation. -/
theorem hostRecv_last {s : State} (h : s.master.pendingEchoDiscards = 0) {call : Call} {i : Nat} {out out' : List Byte} {w : Word}
    (hc : call.checkReply i out w = .ok out') (he : call.exchanges[i + 1]? = none) (ws : List Word) :
    hostRecv call i out (w :: ws) s = .rest (State.completeCall { s with master := { s.master with ring := ws } } call out') := by
  simp [hostRecv, h, hc, he]

/-- After another good reply the next exchange begins. -/
theorem hostRecv_next {s : State} (h : s.master.pendingEchoDiscards = 0) {call : Call} {i : Nat} {out out' : List Byte} {w : Word}
    {e : Exchange} (hc : call.checkReply i out w = .ok out') (he : call.exchanges[i + 1]? = some e) (ws : List Word) :
    hostRecv call i out (w :: ws) s =
      hostRecv call (i + 1) out' ws (State.sendExchange { s with master := { s.master with ring := ws } } e) := by
  simp [hostRecv, h, hc, he]

/-! ## What the master's run can change -/

/-- `t` is `s` but for the master, bytes written to the link, and at most one result for the caller. -/
structure MasterRan (s t : State) : Prop where
  params_eq : t.params = s.params
  slaves_eq : t.slaves = s.slaves
  active_eq : t.active = s.active
  calls_eq : t.calls = s.calls
  agenda_eq : t.agenda = s.agenda
  ticks_eq : t.ticks = s.ticks
  link_eq : ∃ bs, t.link = { s.link with h2x := s.link.h2x ++ bs }
  returns_eq : ∃ rs, t.returns = s.returns ++ rs ∧ rs.length ≤ 1

/-- One exchange sends at most one word, and leaves the results alone. -/
theorem sendExchange_eq (s : State) (e : Exchange) : ∃ bs n,
    s.sendExchange e = { s with
      link := { s.link with h2x := s.link.h2x ++ bs }
      master := { s.master with pendingEchoDiscards := n } } := by
  unfold State.sendExchange
  split
  · exact ⟨_, _, rfl⟩
  · exact ⟨[], s.master.pendingEchoDiscards, by simp⟩

theorem sendExchange_some {s : State} {e : Exchange} {w : Word} (h : e.send = some w) : s.sendExchange e = s.hostSend w := by
  simp [State.sendExchange, h]

theorem sendExchange_none {s : State} {e : Exchange} (h : e.send = none) : s.sendExchange e = s := by
  simp [State.sendExchange, h]

/-- Completing an operation writes a result or goes to sleep. -/
theorem completeCall_eq (s : State) (call : Call) (out : List Byte) :
    (∃ r, s.completeCall call out = s.finish r) ∨
    (∃ a, call = .checkSlave a ∧ s.completeCall call out = { s with master := { s.master with phase := .sleep call } }) := by
  cases call with
  | checkSlave a => exact .inr ⟨a, rfl, rfl⟩
  | _ => exact .inl ⟨_, rfl⟩

/-- The state a run over the ring stops in: the master's phase and ring, the echoes outstanding, the bytes written and the result. -/
theorem hostRecv_settle (call : Call) (late : Bool) (l : List Word) : ∀ (i : Nat) (out : List Byte) (s : State),
    MasterRan s ((hostRecv call i out l s).settle late) := by
  induction l with
  | nil =>
    intro i out s
    cases late
    · exact ⟨rfl, rfl, rfl, rfl, rfl, rfl, ⟨[0xB0], rfl⟩, ⟨[], by simp [hostRecv, Progress.settle], by simp⟩⟩
    · exact ⟨rfl, rfl, rfl, rfl, rfl, rfl, ⟨[], by simp [hostRecv, Progress.settle]⟩, ⟨[.err .timeout], rfl, by simp⟩⟩
  | cons w ws ih =>
    intro i out s
    by_cases h : 0 < s.master.pendingEchoDiscards
    · rw [hostRecv_echo h]
      obtain ⟨h1, h2, h3, h4, h5, h6, h7, h8⟩ := ih i out
        { s with master := { s.master with ring := ws, pendingEchoDiscards := s.master.pendingEchoDiscards - 1 } }
      exact ⟨h1, h2, h3, h4, h5, h6, h7, h8⟩
    · have h0 : s.master.pendingEchoDiscards = 0 := by omega
      cases hc : call.checkReply i out w with
      | error r =>
        rw [hostRecv_error h0 hc]
        exact ⟨rfl, rfl, rfl, rfl, rfl, rfl, ⟨[], by simp [Progress.settle]⟩, ⟨[r], rfl, by simp⟩⟩
      | ok out' =>
        cases he : call.exchanges[i + 1]? with
        | none =>
          rw [hostRecv_last h0 hc he]
          simp only [Progress.settle]
          obtain ⟨r, hr⟩ | ⟨a, -, hr⟩ := completeCall_eq { s with master := { s.master with ring := ws } } call out'
          · rw [hr]
            exact ⟨rfl, rfl, rfl, rfl, rfl, rfl, ⟨[], by simp⟩, ⟨[r], rfl, by simp⟩⟩
          · rw [hr]
            exact ⟨rfl, rfl, rfl, rfl, rfl, rfl, ⟨[], by simp⟩, ⟨[], by simp, by simp⟩⟩
        | some e =>
          rw [hostRecv_next h0 hc he]
          obtain ⟨bs, n, hs⟩ := sendExchange_eq { s with master := { s.master with ring := ws } } e
          rw [hs]
          obtain ⟨h1, h2, h3, h4, h5, h6, ⟨bs', h7⟩, h8⟩ := ih (i + 1) out'
            { s with link := { s.link with h2x := s.link.h2x ++ bs },
                     master := { s.master with ring := ws, pendingEchoDiscards := n } }
          exact ⟨h1, h2, h3, h4, h5, h6, ⟨bs ++ bs', by rw [h7]; simp⟩, h8⟩

/-- Two states that differ in the master's phase and ring alone: a run over the same ring ends in the same state. -/
theorem hostRecv_settle_phase (call : Call) (late : Bool) (l r : List Word) (ph : MPhase) :
    ∀ (i : Nat) (out : List Byte) (s : State),
      (hostRecv call i out l { s with master := { s.master with ring := r, phase := ph } }).settle late =
        (hostRecv call i out l s).settle late := by
  induction l generalizing r ph with
  | nil => intro i out s; cases late <;> rfl
  | cons w ws ih =>
    intro i out s
    by_cases h : 0 < s.master.pendingEchoDiscards
    · rw [hostRecv_echo h, hostRecv_echo (s := { s with master := { s.master with ring := r, phase := ph } }) h]
      exact ih ws ph i out
        { s with master := { s.master with ring := ws, pendingEchoDiscards := s.master.pendingEchoDiscards - 1 } }
    · have h0 : s.master.pendingEchoDiscards = 0 := by omega
      cases hc : call.checkReply i out w with
      | error e =>
        rw [hostRecv_error h0 hc, hostRecv_error (s := { s with master := { s.master with ring := r, phase := ph } }) h0 hc]
        rfl
      | ok out' =>
        cases he : call.exchanges[i + 1]? with
        | none =>
          rw [hostRecv_last h0 hc he, hostRecv_last (s := { s with master := { s.master with ring := r, phase := ph } }) h0 hc he]
          cases call <;> rfl
        | some e =>
          rw [hostRecv_next h0 hc he, hostRecv_next (s := { s with master := { s.master with ring := r, phase := ph } }) h0 hc he]
          cases hs : e.send with
          | none =>
            rw [sendExchange_none hs, sendExchange_none hs]
            exact ih ws ph (i + 1) out' { s with master := { s.master with ring := ws } }
          | some v =>
            rw [sendExchange_some hs, sendExchange_some hs]
            exact ih ws ph (i + 1) out' (State.hostSend { s with master := { s.master with ring := ws } } v)

/-- Starting an operation changes what a run of the master can change. -/
theorem startCall_ran {late : Bool} {call : Call} {s t : State} (h : startCall late call s = .next t) : MasterRan s t := by
  unfold startCall at h
  split at h
  · cases h
    exact ⟨rfl, rfl, rfl, rfl, rfl, rfl, ⟨[], by simp⟩, ⟨[_], rfl, by simp⟩⟩
  · split at h
    · cases h
    · cases h
      have key : ∀ e : Exchange, MasterRan s ((hostRecv call 0 [] s.master.ring (s.sendExchange e)).settle late) := by
        intro e
        obtain ⟨bs, n, hs⟩ := sendExchange_eq s e
        rw [hs]
        obtain ⟨h1, h2, h3, h4, h5, h6, ⟨bs', h7⟩, h8⟩ := hostRecv_settle call late s.master.ring 0 []
          { s with link := { s.link with h2x := s.link.h2x ++ bs }, master := { s.master with pendingEchoDiscards := n } }
        exact ⟨h1, h2, h3, h4, h5, h6, ⟨bs ++ bs', by rw [h7]; simp⟩, h8⟩
      cases call with
      | hostSend w =>
        exact ⟨rfl, rfl, rfl, rfl, rfl, rfl, ⟨_, rfl⟩, ⟨[_], rfl, by simp⟩⟩
      | hostRecv => exact key _
      | expect v => exact key _
      | expectData => exact key _
      | select a => exact key _
      | checkSlave a => exact key _
      | readBuffer a r n => exact key _
      | writeBuffer a r n bs => exact key _

end Sys2Proof.Machine
end

