-- ==== Sys2Proof/Laws/Memory.lean ====
section
/-! SUPPORT. What a medium reads after a write, and that every memory operation keeps the canonical form. -/

namespace Sys2Proof

theorem Memory.read_erase (m : Memory) (a x : Nat) :
    (m.erase a).read x = if x = a then Memory.blank else m.read x := by
  induction m with
  | nil => simp [Memory.erase, Memory.read]
  | cons c m ih =>
    obtain ⟨k, b⟩ := c
    by_cases hk : k = a
    · subst hk
      have : Memory.erase ((k, b) :: m) k = Memory.erase m k := by simp [Memory.erase]
      rw [this, ih]
      by_cases hx : x = k <;> simp [Memory.read, hx]
    · have : Memory.erase ((k, b) :: m) a = (k, b) :: Memory.erase m a := by simp [Memory.erase, hk]
      rw [this]
      simp only [Memory.read, ih]
      by_cases hx : x = k
      · subst hx; simp [hk]
      · simp [hx]

theorem Memory.read_insert (m : Memory) (a x : Nat) (b : Byte) (h : ∀ c ∈ m, c.1 ≠ a) :
    (Memory.insert m a b).read x = if x = a then b else m.read x := by
  induction m with
  | nil => simp [Memory.insert, Memory.read]
  | cons c m ih =>
    obtain ⟨k, b'⟩ := c
    have hk : k ≠ a := h (k, b') (by simp)
    have ih := ih (fun c hc => h c (by simp [hc]))
    unfold Memory.insert
    split
    · simp [Memory.read]
    · simp only [Memory.read, ih]
      by_cases hx : x = k
      · subst hx; simp [hk]
      · simp [hx]

theorem Memory.erase_ne (m : Memory) (a : Nat) : ∀ c ∈ m.erase a, c.1 ≠ a := by
  simp [Memory.erase]

/-- A read after a write: the byte written at its own address, every other byte as before. -/
theorem Memory.read_write (m : Memory) (a x : Nat) (b : Byte) :
    (m.write a b).read x = if x = a then b else m.read x := by
  unfold Memory.write
  split
  · next h => rw [Memory.read_erase, h]
  · rw [Memory.read_insert _ _ _ _ (m.erase_ne a), Memory.read_erase]
    split <;> simp_all

@[simp] theorem Memory.read_write_same (m : Memory) (a : Nat) (b : Byte) : (m.write a b).read a = b := by
  simp [Memory.read_write]

theorem Memory.read_write_other (m : Memory) {a x : Nat} (b : Byte) (h : x ≠ a) :
    (m.write a b).read x = m.read x := by
  simp [Memory.read_write, h]

/-! ## The canonical form -/

theorem Memory.wf_cons (k : Nat) (b : Byte) (m : Memory) :
    Memory.wf ((k, b) :: m) = true ↔ b ≠ Memory.blank ∧ (∀ c ∈ m, k < c.1) ∧ Memory.wf m = true := by
  simp [Memory.wf, and_assoc]

theorem Memory.erase_wf (m : Memory) (a : Nat) (h : m.wf = true) : (m.erase a).wf = true := by
  induction m with
  | nil => simp [Memory.erase, Memory.wf]
  | cons c m ih =>
    obtain ⟨k, b⟩ := c
    rw [Memory.wf_cons] at h
    by_cases hk : k = a
    · have : Memory.erase ((k, b) :: m) a = Memory.erase m a := by simp [Memory.erase, hk]
      rw [this]; exact ih h.2.2
    · have : Memory.erase ((k, b) :: m) a = (k, b) :: Memory.erase m a := by simp [Memory.erase, hk]
      rw [this, Memory.wf_cons]
      exact ⟨h.1, fun c hc => h.2.1 c (List.mem_of_mem_filter hc), ih h.2.2⟩

theorem Memory.mem_insert (m : Memory) (a : Nat) (b : Byte) (c : Host.Cell) :
    c ∈ Memory.insert m a b → c = (a, b) ∨ c ∈ m := by
  induction m with
  | nil => simp [Memory.insert]
  | cons d m ih =>
    obtain ⟨k, b'⟩ := d
    unfold Memory.insert
    split
    · simp
    · simp only [List.mem_cons]
      rintro (h | h)
      · exact .inr (.inl h)
      · rcases ih h with h | h
        · exact .inl h
        · exact .inr (.inr h)

theorem Memory.insert_wf (m : Memory) (a : Nat) (b : Byte) (hb : b ≠ Memory.blank) (hm : m.wf = true)
    (h : ∀ c ∈ m, c.1 ≠ a) : (Memory.insert m a b).wf = true := by
  induction m with
  | nil => simp [Memory.insert, Memory.wf, hb]
  | cons c m ih =>
    obtain ⟨k, b'⟩ := c
    have hm' := (Memory.wf_cons ..).1 hm
    have hk : k ≠ a := h (k, b') (by simp)
    unfold Memory.insert
    split
    · next hlt =>
      rw [Memory.wf_cons]
      refine ⟨hb, ?_, hm⟩
      intro c hc
      rcases List.mem_cons.1 hc with rfl | hc
      · exact hlt
      · exact Nat.lt_trans hlt (hm'.2.1 c hc)
    · next hlt =>
      rw [Memory.wf_cons]
      refine ⟨hm'.1, ?_, ih hm'.2.2 (fun c hc => h c (by simp [hc]))⟩
      intro c hc
      rcases Memory.mem_insert _ _ _ _ hc with rfl | hc
      · simp only; omega
      · exact hm'.2.1 c hc

/-- A write keeps the canonical form. -/
theorem Memory.write_wf (m : Memory) (a : Nat) (b : Byte) (h : m.wf = true) : (m.write a b).wf = true := by
  unfold Memory.write
  split
  · exact m.erase_wf a h
  · next hb => exact Memory.insert_wf _ _ _ hb (m.erase_wf a h) (m.erase_ne a)

/-- A write lists no address but its own that was not listed before. -/
theorem Memory.mem_write (m : Memory) (a : Nat) (b : Byte) (c : Host.Cell) (h : c ∈ m.write a b) :
    c = (a, b) ∨ c ∈ m := by
  unfold Memory.write at h
  split at h
  · exact .inr (List.mem_of_mem_filter h)
  · rcases Memory.mem_insert _ _ _ _ h with h | h
    · exact .inl h
    · exact .inr (List.mem_of_mem_filter h)

/-! ## Several bytes -/

@[simp] theorem Memory.readBytes_length (m : Memory) (a n : Nat) : (m.readBytes a n).length = n := by
  induction n generalizing a with
  | zero => simp [Memory.readBytes]
  | succ n ih => simp [Memory.readBytes, ih]

theorem Memory.readBytes_getElem? (m : Memory) (a n i : Nat) (h : i < n) :
    (m.readBytes a n)[i]? = some (m.read (a + i)) := by
  induction n generalizing a i with
  | zero => omega
  | succ n ih =>
    cases i with
    | zero => simp [Memory.readBytes]
    | succ i => simp [Memory.readBytes, ih (a + 1) i (by omega), Nat.add_assoc, Nat.add_comm 1 i]

/-- A read after a write of several bytes. -/
theorem Memory.read_writeBytes (m : Memory) (a x : Nat) (bs : List Byte) :
    (m.writeBytes a bs).read x =
      if a ≤ x ∧ x < a + bs.length then bs.getD (x - a) 0 else m.read x := by
  induction bs generalizing m a with
  | nil => simp [Memory.writeBytes, show ¬ (a ≤ x ∧ x < a) by omega]
  | cons b bs ih =>
    simp only [Memory.writeBytes, ih, Memory.read_write, List.length_cons]
    by_cases hx : x = a
    · subst hx; simp
    · by_cases h : a + 1 ≤ x ∧ x < a + 1 + bs.length
      · have h' : a ≤ x ∧ x < a + (bs.length + 1) := by omega
        have e : x - a = (x - (a + 1)) + 1 := by omega
        simp only [h, h', and_self, if_true, e, List.getD_cons_succ]
      · have h' : ¬ (a ≤ x ∧ x < a + (bs.length + 1)) := by omega
        rw [if_neg h, if_neg h', if_neg hx]

theorem Memory.writeBytes_wf (m : Memory) (a : Nat) (bs : List Byte) (h : m.wf = true) :
    (m.writeBytes a bs).wf = true := by
  induction bs generalizing m a with
  | nil => exact h
  | cons b bs ih => exact ih _ _ (m.write_wf a b h)

theorem Memory.mem_writeBytes (m : Memory) (a : Nat) (bs : List Byte) (c : Host.Cell)
    (h : c ∈ m.writeBytes a bs) : (a ≤ c.1 ∧ c.1 < a + bs.length) ∨ c ∈ m := by
  induction bs generalizing m a with
  | nil => exact .inr h
  | cons b bs ih =>
    rcases ih _ _ h with h | h
    · left; simp only [List.length_cons]; omega
    · rcases Memory.mem_write _ _ _ _ h with rfl | h
      · left; simp only [List.length_cons]; omega
      · exact .inr h

/-- The low half of a program word. -/
theorem flashWord_low (lo hi : Byte) :
    (lo.setWidth 16 ||| (hi.setWidth 16 <<< 8)).setWidth 8 = lo := by
  apply BitVec.eq_of_getLsbD_eq
  intro i hi'
  simp only [BitVec.getLsbD_setWidth, BitVec.getLsbD_or, BitVec.getLsbD_shiftLeft]
  simp [hi', show i < 16 by omega]

/-- The high half of a program word. -/
theorem flashWord_high (lo hi : Byte) :
    ((lo.setWidth 16 ||| (hi.setWidth 16 <<< 8)) >>> 8).setWidth 8 = hi := by
  apply BitVec.eq_of_getLsbD_eq
  intro i hi'
  simp [hi', show 8 + i < 16 by omega]

/-- Programming the rebuilt little-endian words writes the bytes they were rebuilt from (R53, R197). -/
theorem Memory.programWords_flashWords (m : Memory) (a : Nat) (bs : List Byte) (h : bs.length % 2 = 0) :
    m.programWords a (flashWords bs) = m.writeBytes a bs := by
  induction bs using flashWords.induct generalizing m a with
  | case1 lo hi bs ih =>
    simp only [flashWords, Memory.programWords, Memory.writeBytes, flashWord_low, flashWord_high]
    exact ih _ _ (by simp only [List.length_cons] at h; omega)
  | case2 bs hbs =>
    match bs, hbs with
    | [], _ => simp [flashWords, Memory.programWords, Memory.writeBytes]
    | [b], _ => simp at h
    | lo :: hi :: t, hbs => exact absurd rfl (hbs lo hi t)

theorem Memory.programWords_wf (m : Memory) (a : Nat) (ws : List (BitVec 16)) (h : m.wf = true) :
    (m.programWords a ws).wf = true := by
  induction ws generalizing m a with
  | nil => exact h
  | cons w ws ih => exact ih _ _ (Memory.write_wf _ _ _ (Memory.write_wf _ _ _ h))

end Sys2Proof
end

