-- ==== Sys2Proof/Laws/Operands.lean ====
section
/-! SUPPORT. The operand forms of a buffer command as numbers, and that the two ends agree on them (R90, R91). -/

namespace Sys2Proof.Machine

/-- One more address byte: `acc * 256 + b` at 24 bits (R203). -/
theorem accAddress_toNat (acc : BitVec 24) (b : Byte) :
    (accAddress acc b).toNat = (acc.toNat * 256 + b.toNat) % 2 ^ 24 := by
  have hd : acc <<< 8 &&& b.setWidth 24 = 0 := by
    ext i hi
    simp only [BitVec.getElem_and, BitVec.getElem_shiftLeft, BitVec.getElem_setWidth]
    by_cases h : i < 8
    · simp [h]
    · simp [BitVec.getLsbD_of_ge b i (by omega)]
  have hb := b.isLt
  rw [accAddress, ← BitVec.add_eq_or_of_and_eq_zero _ _ hd, BitVec.toNat_add, BitVec.toNat_shiftLeft, BitVec.toNat_setWidth,
    Nat.shiftLeft_eq]
  omega

/-- A count byte denotes a count in 1..256 (R91). -/
theorem countOf_range (cb : Byte) : 1 ≤ countOf cb ∧ countOf cb ≤ 256 := by
  unfold countOf
  split
  · omega
  · next h =>
    have := cb.isLt
    have : cb.toNat ≠ 0 := fun h0 => h (BitVec.eq_of_toNat_eq h0)
    omega

/-- The slave reads the count the master meant (R91). -/
theorem countOf_countByte {n : Nat} (h1 : 1 ≤ n) (h2 : n ≤ 256) : countOf (countByte n) = n := by
  by_cases h : n = 256
  · subst h; rfl
  · have hn : (countByte n).toNat = n := by simp only [countByte, BitVec.toNat_ofNat]; omega
    have h0 : countByte n ≠ 0 := fun h0 => by rw [h0] at hn; simp at hn; omega
    rw [countOf, if_neg h0, hn]

/-- The three address bytes are the 24-bit address, most-significant first (R90). -/
theorem addressBytes_toNat (r : BitVec 32) :
    addressBytes r = [BitVec.ofNat 8 (r.toNat / 65536), BitVec.ofNat 8 (r.toNat / 256), BitVec.ofNat 8 r.toNat] := by
  simp only [addressBytes, List.cons.injEq, and_true]
  refine ⟨?_, ?_, ?_⟩ <;> apply BitVec.eq_of_toNat_eq <;> simp [Nat.shiftRight_eq_div_pow]

/-- The argument check of R227 is a bound on the address. -/
theorem fitsWire_iff (r : BitVec 32) : fitsWire r = true ↔ r.toNat < 2 ^ 24 := by
  have hr := r.isLt
  unfold fitsWire
  rw [beq_iff_eq]
  constructor
  · intro h
    have := congrArg BitVec.toNat h
    simp [Nat.shiftRight_eq_div_pow] at this
    omega
  · intro h
    apply BitVec.eq_of_toNat_eq
    simp [Nat.shiftRight_eq_div_pow]
    omega

/-- The slave rebuilds the address the master sent (R90, R203). -/
theorem accAddress_addressBytes (r : BitVec 32) (h : r.toNat < 2 ^ 24) :
    wireAddress ((addressBytes r).foldl accAddress 0) = r := by
  rw [addressBytes_toNat]
  apply BitVec.eq_of_toNat_eq
  simp only [List.foldl_cons, List.foldl_nil, wireAddress, BitVec.toNat_setWidth, accAddress_toNat, BitVec.toNat_ofNat]
  omega

end Sys2Proof.Machine
end

