-- ==== Sys2Proof/Laws/Pages.lean ====
section
/-! SUPPORT. Pages of the memory map, and what the page programmer's four operations do, once each. -/

namespace Sys2Proof

/-! ## Page masks (R191) -/

theorem Board.pageSize_le (b : Board) : b.pageSize ≤ 2 ^ 32 :=
  Nat.pow_le_pow_right (by decide) (by have := b.pageExp.isLt; omega)

theorem Board.pageSize_pos (b : Board) : 0 < b.pageSize := Nat.two_pow_pos _

/-- A page is a whole number of program words (R9). -/
theorem Board.pageSize_even (b : Board) : b.pageSize % 2 = 0 := by
  simp [Board.pageSize, Nat.pow_succ]

theorem Board.pageSize_dvd (b : Board) : b.pageSize ∣ 2 ^ 32 :=
  Nat.pow_dvd_pow 2 (by have := b.pageExp.isLt; omega)

theorem Board.pageMask_toNat (b : Board) : b.pageMask.toNat = b.pageSize - 1 := by
  have := b.pageSize_le
  have := b.pageSize_pos
  simp only [Board.pageMask, BitVec.toNat_ofNat]
  exact Nat.mod_eq_of_lt (by omega)

theorem Board.pageOffset_eq (b : Board) (addr : BitVec 32) : b.pageOffset addr = addr.toNat % b.pageSize := by
  rw [Board.pageOffset, BitVec.toNat_and, b.pageMask_toNat]
  exact Nat.and_two_pow_sub_one_eq_mod _ _

/-- Base and offset are the two parts of an address. -/
theorem Board.pageBase_add_offset (b : Board) (addr : BitVec 32) :
    (b.pageBase addr).toNat + b.pageOffset addr = addr.toNat := by
  have h : addr = (addr &&& ~~~b.pageMask) + (addr &&& b.pageMask) := by
    rw [BitVec.add_eq_or_of_and_eq_zero]
    · ext i hi; simp only [BitVec.getElem_or, BitVec.getElem_and, BitVec.getElem_not]
      cases addr[i] <;> simp
    · ext i hi; simp only [BitVec.getElem_and, BitVec.getElem_not, BitVec.getElem_zero]
      cases b.pageMask[i] <;> simp
  have hlt : (b.pageBase addr).toNat + b.pageOffset addr < 2 ^ 32 := by
    by_contra hge
    have h1 : b.pageOffset addr ≤ addr.toNat := by rw [b.pageOffset_eq]; exact Nat.mod_le _ _
    have h2 : (b.pageBase addr).toNat ≤ addr.toNat := by
      rw [Board.pageBase, BitVec.toNat_and]; exact Nat.and_le_left
    have e := congrArg BitVec.toNat h
    rw [BitVec.toNat_add] at e
    have h3 : (addr &&& ~~~b.pageMask).toNat = (b.pageBase addr).toNat := rfl
    have h4 : (addr &&& b.pageMask).toNat = b.pageOffset addr := rfl
    rw [h3, h4] at e
    have := addr.isLt
    have := (b.pageBase addr).isLt
    omega
  have e := congrArg BitVec.toNat h
  rw [BitVec.toNat_add] at e
  have h3 : (addr &&& ~~~b.pageMask).toNat = (b.pageBase addr).toNat := rfl
  have h4 : (addr &&& b.pageMask).toNat = b.pageOffset addr := rfl
  rw [h3, h4, Nat.mod_eq_of_lt hlt] at e
  exact e.symm

theorem Board.pageOffset_lt (b : Board) (addr : BitVec 32) : b.pageOffset addr < b.pageSize := by
  rw [b.pageOffset_eq]; exact Nat.mod_lt _ b.pageSize_pos

/-- A page base is the page's number times the page size. -/
theorem Board.pageBase_toNat (b : Board) (addr : BitVec 32) :
    (b.pageBase addr).toNat = addr.toNat / b.pageSize * b.pageSize := by
  have h := b.pageBase_add_offset addr
  rw [b.pageOffset_eq] at h
  have := Nat.div_add_mod addr.toNat b.pageSize
  rw [Nat.mul_comm] at this
  omega

theorem Board.pageBase_div (b : Board) (addr : BitVec 32) :
    (b.pageBase addr).toNat / b.pageSize = addr.toNat / b.pageSize := by
  rw [b.pageBase_toNat, Nat.mul_div_cancel _ b.pageSize_pos]

theorem Board.pageBase_and_mask (b : Board) (addr : BitVec 32) : b.pageBase addr &&& b.pageMask = 0 := by
  ext i hi; simp only [Board.pageBase, BitVec.getElem_and, BitVec.getElem_not]
  cases b.pageMask[i] <;> simp

/-- An address with no offset is a multiple of the page size. -/
theorem Board.aligned_mod (b : Board) {base : BitVec 32} (h : base &&& b.pageMask = 0) : base.toNat % b.pageSize = 0 := by
  rw [← b.pageOffset_eq, Board.pageOffset, h]; rfl

/-- The whole page of an aligned base lies in the 32-bit address space. -/
theorem Board.aligned_add_le (b : Board) {base : BitVec 32} (h : base &&& b.pageMask = 0) :
    base.toNat + b.pageSize ≤ 2 ^ 32 := by
  obtain ⟨q, hq⟩ := Nat.dvd_of_mod_eq_zero (b.aligned_mod h)
  obtain ⟨n, hn⟩ := b.pageSize_dvd
  have hlt := base.isLt
  rw [hq, hn] at hlt
  have : q + 1 ≤ n := Nat.lt_of_mul_lt_mul_left hlt
  rw [hq, hn, ← Nat.mul_succ]
  exact Nat.mul_le_mul_left _ this

/-- An address of the page at an aligned base has that base's page number. -/
theorem Board.aligned_div (b : Board) {base : BitVec 32} (h : base &&& b.pageMask = 0) {a : Nat}
    (h1 : base.toNat ≤ a) (h2 : a < base.toNat + b.pageSize) : a / b.pageSize = base.toNat / b.pageSize := by
  obtain ⟨q, hq⟩ := Nat.dvd_of_mod_eq_zero (b.aligned_mod h)
  rw [hq, Nat.mul_div_cancel_left _ b.pageSize_pos]
  rw [hq] at h1 h2
  apply Nat.div_eq_of_lt_le
  · rw [Nat.mul_comm]; exact h1
  · rw [Nat.mul_comm, Nat.mul_succ]; exact h2

/-! ## The map (R54, R55) -/

/-- The range of an address depends only on its page. -/
theorem Board.rangeAt_of_div (b : Board) {x y : BitVec 32} (h : x.toNat / b.pageSize = y.toNat / b.pageSize) :
    b.rangeAt x = b.rangeAt y := by
  have : (fun r : MapRange => r.holds b x) = fun r => r.holds b y := by
    funext r; simp only [MapRange.holds, h]
  simp only [Board.rangeAt, this]

theorem Board.classify_of_div (b : Board) {x y : BitVec 32} (h : x.toNat / b.pageSize = y.toNat / b.pageSize) :
    b.classify x = b.classify y := by
  simp only [Board.classify, b.rangeAt_of_div h]

theorem Board.classify_pageBase (b : Board) (addr : BitVec 32) : b.classify (b.pageBase addr) = b.classify addr :=
  b.classify_of_div (b.pageBase_div addr)

/-- A mapped address lies above the first byte of its range. -/
theorem Board.rangeAt_first_le (b : Board) {addr : BitVec 32} {r : MapRange} (h : b.rangeAt addr = some r) :
    r.firstPage * b.pageSize ≤ (b.pageBase addr).toNat := by
  have hr := List.find?_some h
  simp only [MapRange.holds, Bool.and_eq_true, decide_eq_true_eq] at hr
  rw [b.pageBase_toNat]
  exact Nat.mul_le_mul_right _ hr.1

/-- `ee_offset` is linear in a page (R55). -/
theorem Board.eeOffset_pageBase (b : Board) (addr : BitVec 32) (h : b.classify addr ≠ none) :
    b.eeOffset addr = b.eeOffset (b.pageBase addr) + b.pageOffset addr := by
  cases hr : b.rangeAt addr with
  | none => simp [Board.classify, hr] at h
  | some r =>
    have hr' : b.rangeAt (b.pageBase addr) = some r := by rw [b.rangeAt_of_div (b.pageBase_div addr), hr]
    have h1 := b.rangeAt_first_le hr
    have h2 := b.pageBase_add_offset addr
    simp only [Board.eeOffset, hr, hr']
    omega

end Sys2Proof

namespace Sys2Proof.Machine

/-! ## The four operations (R191 to R195) -/

/-- `set_address` opens the page of a mapped address. -/
theorem Slave.setAddress_some {S : Slave} {addr : BitVec 32} {reg : Region}
    (h : S.board.classify (S.board.pageBase addr) = some reg) :
    S.setAddress addr = some { S with page := some (S.opened addr reg) } := by
  simp [Slave.setAddress, h, Slave.opened]

theorem Slave.setAddress_none {S : Slave} {addr : BitVec 32}
    (h : S.board.classify (S.board.pageBase addr) = none) : S.setAddress addr = none := by
  simp [Slave.setAddress, h]

/-- What `set_address` answers. -/
theorem Slave.setAddress_cases {S S' : Slave} {addr : BitVec 32} (h : S.setAddress addr = some S') :
    ∃ reg, S.board.classify (S.board.pageBase addr) = some reg ∧
      S' = { S with page := some (S.opened addr reg) } := by
  cases hc : S.board.classify (S.board.pageBase addr) with
  | none => rw [Slave.setAddress_none hc] at h; cases h
  | some reg =>
    rw [Slave.setAddress_some hc] at h
    exact ⟨reg, rfl, (Option.some.inj h).symm⟩

theorem Slave.pageContents_length (S : Slave) (reg : Region) (base : BitVec 32) :
    (S.pageContents reg base).length = S.board.pageSize := by
  cases reg <;> simp [Slave.pageContents]

/-- The byte a freshly opened page shows at an offset (R191). -/
theorem Slave.pageContents_getElem? (S : Slave) (reg : Region) (base : BitVec 32) {i : Nat} (h : i < S.board.pageSize) :
    (S.pageContents reg base)[i]? = some
      (match reg with
        | .appArea => S.flash.read (base.toNat + i)
        | .eepromArea => S.eeprom.read (S.board.eeOffset base + i)
        | .bootloaderArea => 0xFF) := by
  cases reg with
  | appArea => exact Memory.readBytes_getElem? _ _ _ _ h
  | eepromArea => exact Memory.readBytes_getElem? _ _ _ _ h
  | bootloaderArea => simp [Slave.pageContents, h]

/-- A freshly opened page meets the page buffer's invariants (R31, R32). -/
theorem Slave.opened_ok (S : Slave) {addr : BitVec 32} {reg : Region}
    (h : S.board.classify (S.board.pageBase addr) = some reg) : (S.opened addr reg).Ok S.board where
  aligned := S.board.pageBase_and_mask addr
  cursor_lt := S.board.pageOffset_lt addr
  bytes_length := S.pageContents_length reg _
  region_eq := h

theorem Slave.getByte_some {S : Slave} {p : PageBuffer} (h : S.page = some p) :
    S.getByte = some (p.bytes.getD p.cursor 0, { S with page := some (p.advance S.board.pageSize) }) := by
  simp [Slave.getByte, h]

theorem Slave.setByte_some {S : Slave} {p : PageBuffer} (h : S.page = some p) (b : Byte) :
    S.setByte b = some { S with page := some (p.put S.board.pageSize b) } := by
  simp [Slave.setByte, h]

theorem PageBuffer.advance_ok {b : Board} {p : PageBuffer} (h : p.Ok b) : (p.advance b.pageSize).Ok b where
  aligned := h.aligned
  cursor_lt := Nat.mod_lt _ b.pageSize_pos
  bytes_length := h.bytes_length
  region_eq := h.region_eq

theorem PageBuffer.put_ok {b : Board} {p : PageBuffer} (h : p.Ok b) (x : Byte) : (p.put b.pageSize x).Ok b where
  aligned := h.aligned
  cursor_lt := Nat.mod_lt _ b.pageSize_pos
  bytes_length := by simp [h.bytes_length]
  region_eq := h.region_eq

theorem PageBuffer.clean_ok {b : Board} {p : PageBuffer} (h : p.Ok b) : p.clean.Ok b where
  aligned := h.aligned
  cursor_lt := h.cursor_lt
  bytes_length := h.bytes_length
  region_eq := h.region_eq

/-- The flash after a commit of `p`: the bytes of a dirty AppArea page at its base (R195, R197). -/
def Slave.flashAfter (S : Slave) (p : PageBuffer) : Memory :=
  if p.dirty = true ∧ p.region = .appArea then S.flash.programWords p.pageBase.toNat (flashWords p.bytes) else S.flash

/-- The EEPROM after a commit of `p`: the bytes of a dirty EepromArea page at its offset (R195). -/
def Slave.eepromAfter (S : Slave) (p : PageBuffer) : Memory :=
  if p.dirty = true ∧ p.region = .eepromArea then S.eeprom.writeBytes (S.board.eeOffset p.pageBase) p.bytes else S.eeprom

/-- `commit` writes the media of a dirty page and clears `dirty`; nothing else changes (R195). -/
theorem Slave.commit_some {S : Slave} {p : PageBuffer} (h : S.page = some p) :
    S.commit = some { S with page := some p.clean, flash := S.flashAfter p, eeprom := S.eepromAfter p } := by
  simp only [Slave.commit, h, Slave.flashAfter, Slave.eepromAfter, Slave.writeBack]
  cases p.dirty <;> cases p.region <;> simp

theorem Slave.commit_none {S : Slave} (h : S.page = none) : S.commit = none := by simp [Slave.commit, h]

theorem Slave.flashAfter_read {S : Slave} {p : PageBuffer} (hp : p.bytes.length = S.board.pageSize) (a : Nat) :
    (S.flashAfter p).read a =
      if p.dirty = true ∧ p.region = .appArea ∧ p.pageBase.toNat ≤ a ∧ a < p.pageBase.toNat + S.board.pageSize
      then p.bytes.getD (a - p.pageBase.toNat) 0 else S.flash.read a := by
  unfold Slave.flashAfter
  by_cases hd : p.dirty = true ∧ p.region = .appArea
  · rw [if_pos hd, Memory.programWords_flashWords _ _ _ (by rw [hp]; exact S.board.pageSize_even), Memory.read_writeBytes, hp]
    simp [hd]
  · rw [if_neg hd, if_neg (fun h => hd ⟨h.1, h.2.1⟩)]

theorem Slave.eepromAfter_read {S : Slave} {p : PageBuffer} (hp : p.bytes.length = S.board.pageSize) (a : Nat) :
    (S.eepromAfter p).read a =
      if p.dirty = true ∧ p.region = .eepromArea ∧ S.board.eeOffset p.pageBase ≤ a ∧
        a < S.board.eeOffset p.pageBase + S.board.pageSize
      then p.bytes.getD (a - S.board.eeOffset p.pageBase) 0 else S.eeprom.read a := by
  unfold Slave.eepromAfter
  by_cases hd : p.dirty = true ∧ p.region = .eepromArea
  · rw [if_pos hd, Memory.read_writeBytes, hp]; simp [hd]
  · rw [if_neg hd, if_neg (fun h => hd ⟨h.1, h.2.1⟩)]

/-- A commit keeps the canonical form of both media. -/
theorem Slave.flashAfter_wf {S : Slave} (p : PageBuffer) (h : S.flash.wf = true) : (S.flashAfter p).wf = true := by
  unfold Slave.flashAfter; split
  · exact Memory.programWords_wf _ _ _ h
  · exact h

theorem Slave.eepromAfter_wf {S : Slave} (p : PageBuffer) (h : S.eeprom.wf = true) : (S.eepromAfter p).wf = true := by
  unfold Slave.eepromAfter; split
  · exact Memory.writeBytes_wf _ _ _ h
  · exact h

/-- A commit keeps flash addresses in the 32-bit address space. -/
theorem Slave.flashAfter_bound {S : Slave} {p : PageBuffer} (hp : p.Ok S.board) (h : ∀ c ∈ S.flash, c.1 < 2 ^ 32) :
    ∀ c ∈ S.flashAfter p, c.1 < 2 ^ 32 := by
  intro c hc
  unfold Slave.flashAfter at hc
  split at hc
  · rw [Memory.programWords_flashWords _ _ _ (by rw [hp.bytes_length]; exact S.board.pageSize_even)] at hc
    rcases Memory.mem_writeBytes _ _ _ _ hc with hc | hc
    · have := S.board.aligned_add_le hp.aligned
      rw [hp.bytes_length] at hc
      omega
    · exact h c hc
  · exact h c hc

end Sys2Proof.Machine
end

