-- ==== Sys2Proof/Laws/PerInstr.lean ====
section
/-! SUPPORT. One lemma per constructor: the code of an instruction matches its row of opcode_table.json. -/

namespace Sys2Proof.Laws

/-- The row of opcode_table.json an instruction belongs to: the bits its mask fixes, and their values. -/
def rowOf : Instr → Nat × Nat
  | .addr _ => (0x100, 0x100)
  | .dataUnselected _ => (0x100, 0x000)
  | .deselect => (0x1FF, 0x0FF)
  | .idStart => (0x1FF, 0x0FE)
  | .idNext => (0x1FF, 0x0FD)
  | .addrSet => (0x1FF, 0x0FC)
  | .bootEnter => (0x1FF, 0x0FB)
  | .bootExit => (0x1FF, 0x0FA)
  | .rdBuf => (0x1FF, 0x001)
  | .wrBuf => (0x1FF, 0x002)
  | .dev00 => (0x1FF, 0x000)
  | .dev01 => (0x1FF, 0x001)
  | .dev02 => (0x1FF, 0x002)
  | .dev03 => (0x1FF, 0x003)
  | .dev04 => (0x1FF, 0x004)
  | .dev05 => (0x1FF, 0x005)
  | .dev06 => (0x1FF, 0x006)
  | .dev07 => (0x1FF, 0x007)
  | .dev08 => (0x1FF, 0x008)
  | .dev09 => (0x1FF, 0x009)
  | .dev0A => (0x1FF, 0x00A)
  | .unregistered _ => (0x100, 0x000)
  | .data _ => (0x100, 0x000)
  | .ack => (0x1FF, 0x0A5)
  | .nack => (0x1FF, 0x000)
  | .linkHi _ => (0xE0, 0x80)
  | .linkLo _ => (0xF0, 0xA0)
  | .linkDrain => (0xFF, 0xB0)
  | .linkReserved _ => (0x00, 0x00)
  | .drainHdr _ _ => (0x00, 0x00)
  | .drainPayload _ => (0x00, 0x00)

/-- A code as a number. -/
def codeBits : Code → Nat
  | .word w => w.toNat
  | .byte b => b.toNat

/-- The fixed bits of an instruction's code are its row's (R92, R99). -/
def RowMatch.Statement (i : Instr) : Prop := codeBits (encode i) &&& (rowOf i).1 = (rowOf i).2

theorem RowMatch.addr (x : Byte) : RowMatch.Statement (.addr x) := by revert x; unfold RowMatch.Statement; decide
theorem RowMatch.dataUnselected (x : Byte) : RowMatch.Statement (.dataUnselected x) := by revert x; unfold RowMatch.Statement; decide
theorem RowMatch.deselect : RowMatch.Statement .deselect := rfl
theorem RowMatch.idStart : RowMatch.Statement .idStart := rfl
theorem RowMatch.idNext : RowMatch.Statement .idNext := rfl
theorem RowMatch.addrSet : RowMatch.Statement .addrSet := rfl
theorem RowMatch.bootEnter : RowMatch.Statement .bootEnter := rfl
theorem RowMatch.bootExit : RowMatch.Statement .bootExit := rfl
theorem RowMatch.rdBuf : RowMatch.Statement .rdBuf := rfl
theorem RowMatch.wrBuf : RowMatch.Statement .wrBuf := rfl
theorem RowMatch.dev00 : RowMatch.Statement .dev00 := rfl
theorem RowMatch.dev01 : RowMatch.Statement .dev01 := rfl
theorem RowMatch.dev02 : RowMatch.Statement .dev02 := rfl
theorem RowMatch.dev03 : RowMatch.Statement .dev03 := rfl
theorem RowMatch.dev04 : RowMatch.Statement .dev04 := rfl
theorem RowMatch.dev05 : RowMatch.Statement .dev05 := rfl
theorem RowMatch.dev06 : RowMatch.Statement .dev06 := rfl
theorem RowMatch.dev07 : RowMatch.Statement .dev07 := rfl
theorem RowMatch.dev08 : RowMatch.Statement .dev08 := rfl
theorem RowMatch.dev09 : RowMatch.Statement .dev09 := rfl
theorem RowMatch.dev0A : RowMatch.Statement .dev0A := rfl
theorem RowMatch.unregistered (x : Byte) : RowMatch.Statement (.unregistered x) := by revert x; unfold RowMatch.Statement; decide
theorem RowMatch.data (x : Byte) : RowMatch.Statement (.data x) := by revert x; unfold RowMatch.Statement; decide
theorem RowMatch.ack : RowMatch.Statement .ack := rfl
theorem RowMatch.nack : RowMatch.Statement .nack := rfl
theorem RowMatch.linkHi (x : BitVec 5) : RowMatch.Statement (.linkHi x) := by revert x; unfold RowMatch.Statement; decide
theorem RowMatch.linkLo (x : BitVec 4) : RowMatch.Statement (.linkLo x) := by revert x; unfold RowMatch.Statement; decide
theorem RowMatch.linkDrain : RowMatch.Statement .linkDrain := rfl
theorem RowMatch.linkReserved (x : Byte) : RowMatch.Statement (.linkReserved x) := by simp [RowMatch.Statement, rowOf]
theorem RowMatch.drainHdr (m : BitVec 5) (c : BitVec 3) : RowMatch.Statement (.drainHdr m c) := by simp [RowMatch.Statement, rowOf]
theorem RowMatch.drainPayload (x : Byte) : RowMatch.Statement (.drainPayload x) := by simp [RowMatch.Statement, rowOf]

end Sys2Proof.Laws
end

