-- ==== Sys2Proof/Laws/Steps.lean ====
section
/-! SUPPORT. What a turn takes: one lemma for each way a fetch can go. -/

namespace Sys2Proof.Machine

/-- What the step does with what the turn takes. -/
def Fetched.result : Fetched → Out
  | .run i t => exec i t
  | .done o => o

theorem step_eq (s : State) : step s = (fetch s.nextTurn.1 s.nextTurn.2).result := by
  unfold step Fetched.result; split <;> simp_all

/-- The turn at the head of the agenda is taken. -/
theorem step_of_agenda {s : State} {t : Turn} {ts : List Turn} (h : s.agenda = t :: ts) :
    step s = (fetch t { s with agenda := ts }).result := by
  rw [step_eq, State.nextTurn, h]

/-- A turn is taken from the agenda or is free; either way only the model's own fields change. -/
theorem nextTurn_state (s : State) :
    ∃ ag n, s.nextTurn.2 = { s with agenda := ag, ticks := n } := by
  unfold State.nextTurn
  split
  · exact ⟨_, s.ticks, rfl⟩
  · next h => exact ⟨[], s.ticks + 1, by simp [h]⟩

/-! ## Slaves -/

theorem fetchSlave_none {s : State} {k : Nat} (h : s.slaves[k]? = none) : fetchSlave k s = .done (.next s) := by
  simp [fetchSlave, h]

theorem fetchSlave_collides {s : State} {k : Nat} {S : Slave} (h : s.slaves[k]? = some S) (hc : s.collides k S = true) :
    fetchSlave k s = .done (.refused .duplicateAddress) := by
  simp [fetchSlave, h, hc]

/-- The main loop with a word to take (R141). -/
theorem fetchSlave_main {s : State} {k : Nat} {S S' : Slave} {w : Word} (h : s.slaves[k]? = some S)
    (hc : s.collides k S = false) (hp : S.phase = .main) (ht : S.takeMain = some (w, S')) :
    fetchSlave k s =
      .run (decodeMain S.selected S.mode S.board.registered w) ({ s with active := k }.putSlave S') := by
  simp [fetchSlave, h, hc, hp, ht]

theorem fetchSlave_main_waits {s : State} {k : Nat} {S : Slave} (h : s.slaves[k]? = some S)
    (hc : s.collides k S = false) (hp : S.phase = .main) (ht : S.takeMain = none) : fetchSlave k s = .done (.next s) := by
  simp [fetchSlave, h, hc, hp, ht]

/-- The echo discard (R113). -/
theorem fetchSlave_echo {s : State} {k : Nat} {S S' : Slave} {w : Word} {c : Cont} (h : s.slaves[k]? = some S)
    (hc : s.collides k S = false) (hp : S.phase = .echo c) (ht : S.recv = some (w, S')) :
    fetchSlave k s = .done (runCont c S' ({ s with active := k }.putSlave S')) := by
  simp [fetchSlave, h, hc, hp, ht]

theorem fetchSlave_echo_waits {s : State} {k : Nat} {S : Slave} {c : Cont} (h : s.slaves[k]? = some S)
    (hc : s.collides k S = false) (hp : S.phase = .echo c) (ht : S.recv = none) : fetchSlave k s = .done (.next s) := by
  simp [fetchSlave, h, hc, hp, ht]

/-- A phase that waits for an operand word (R112). -/
theorem fetchSlave_operand {s : State} {k : Nat} {S : Slave} (h : s.slaves[k]? = some S)
    (hc : s.collides k S = false) (hp : S.phase.awaitsOperand = true) :
    fetchSlave k s =
      match S.recvData with
      | .wait => .done (.next s)
      | .err _ S' => .done (.next ({ s with active := k }.putSlave S'.abort))
      | .ok d S' => .run (.data d) ({ s with active := k }.putSlave S') := by
  unfold fetchSlave
  rw [h]
  simp only [hc]
  cases hph : S.phase <;> simp [hph, Phase.awaitsOperand] at hp ⊢ <;> rfl

/-- Every way a slave's turn can go. -/
theorem fetchSlave_cases (k : Nat) (s : State) :
    fetchSlave k s = .done (.next s) ∨
    (fetchSlave k s = .done (.refused .duplicateAddress) ∧ ∃ S, s.slaves[k]? = some S ∧ s.collides k S = true) ∨
    ∃ S, s.slaves[k]? = some S ∧ s.AnswersAlone k S ∧
      ((∃ w S', S.phase = .main ∧ S.takeMain = some (w, S') ∧
        fetchSlave k s =
          .run (decodeMain S.selected S.mode S.board.registered w) ({ s with active := k }.putSlave S')) ∨
       (∃ c w S', S.phase = .echo c ∧ S.recv = some (w, S') ∧
        fetchSlave k s = .done (runCont c S' ({ s with active := k }.putSlave S'))) ∨
       (∃ e S', S.phase.awaitsOperand = true ∧ S.recvData = .err e S' ∧
        fetchSlave k s = .done (.next ({ s with active := k }.putSlave S'.abort))) ∨
       (∃ d S', S.phase.awaitsOperand = true ∧ S.recvData = .ok d S' ∧
        fetchSlave k s = .run (.data d) ({ s with active := k }.putSlave S'))) := by
  cases h : s.slaves[k]? with
  | none => exact .inl (fetchSlave_none h)
  | some S =>
    cases hc : s.collides k S with
    | true => exact .inr (.inl ⟨fetchSlave_collides h hc, S, rfl, hc⟩)
    | false =>
      have ha := collides_eq_false.1 hc
      by_cases hop : S.phase.awaitsOperand = true
      · have hf := fetchSlave_operand h hc hop
        cases hr : S.recvData with
        | wait => rw [hr] at hf; exact .inl hf
        | err e S' => rw [hr] at hf; exact .inr (.inr ⟨S, rfl, ha, .inr (.inr (.inl ⟨e, S', hop, hr, hf⟩))⟩)
        | ok d S' => rw [hr] at hf; exact .inr (.inr ⟨S, rfl, ha, .inr (.inr (.inr ⟨d, S', hop, hr, hf⟩))⟩)
      · cases hp : S.phase with
        | main =>
          cases ht : S.takeMain with
          | none => exact .inl (fetchSlave_main_waits h hc hp ht)
          | some r => exact .inr (.inr ⟨S, rfl, ha, .inl ⟨r.1, r.2, hp, ht, fetchSlave_main h hc hp ht⟩⟩)
        | echo c =>
          cases ht : S.recv with
          | none => exact .inl (fetchSlave_echo_waits h hc hp ht)
          | some r => exact .inr (.inr ⟨S, rfl, ha, .inr (.inl ⟨c, r.1, r.2, hp, ht, fetchSlave_echo h hc hp ht⟩)⟩)
        | _ => simp [hp, Phase.awaitsOperand] at hop

/-- A slave's timeout turn: the abort of a command that waits for an operand word, or nothing. -/
theorem timeoutSlave_cases (k : Nat) (s : State) :
    timeoutSlave k s = .next s ∨
    ∃ S, s.slaves[k]? = some S ∧ S.phase.awaitsOperand = true ∧ S.recvTimesOut = true ∧
      timeoutSlave k s = .next ({ s with active := k }.putSlave S.abort) := by
  unfold timeoutSlave
  cases h : s.slaves[k]? with
  | none => exact .inl rfl
  | some S =>
    simp only
    split
    · next hb =>
      rw [Bool.and_eq_true] at hb
      exact .inr ⟨S, rfl, hb.1, hb.2, rfl⟩
    · exact .inl rfl

end Sys2Proof.Machine
end

