-- ==== Sys2Proof/Tests/Slice0.lean ====
section
/-! SUPPORT. Tests of the model, their expected values from 95_test_vectors.md and the encodings of 30_encoding.md, and one
witness of the hypotheses of every obligation that has some. -/

namespace Sys2Proof.Tests

open Sys2Proof Sys2Proof.Machine

/-! ## Small states -/

/-- Slave 5 of the example configuration, at reset. -/
def slave5 : Slave := Slave.resetOf (Config.exampleBoard 5)

/-- Slave 5, selected. -/
def sel5 : Slave := { slave5 with selected := true }

/-- Slave 5, selected, in `Boot` mode. -/
def boot5 : Slave := { sel5 with mode := .boot }

/-- The example system with slave 0 replaced, and an agenda. -/
def sys (S : Slave) (ts : List Turn := []) : State :=
  { State.reset with slaves := [S, Slave.resetOf (Config.exampleBoard 6)], agenda := ts }

/-- The example system with the master in a phase, its ring and its echo count. -/
def host (ph : MPhase) (ring : List Word) (echoes : Nat) (ts : List Turn := []) : State :=
  { State.reset with master := { pendingEchoDiscards := echoes, ring := ring, phase := ph }, agenda := ts }

/-- The example system with a link codec. -/
def linked (X : Link) (ts : List Turn := []) : State := { State.reset with link := X, agenda := ts }

/-- The example system with a caller's request. -/
def asked (c : Call) : State := { State.reset with calls := [c], agenda := [.master] }

/-- Where the master waits in the exchange of `select(5)`. -/
def selecting (wait : Wait) : MPhase := .recv (.select 5) 0 [] false wait

/-- A page of 64 bytes at `base`, the first and the last of them `b`, the others 0xFF. -/
def pageOf (reg : Region) (base : BitVec 32) (cur : Nat) (b : Byte) (dirty : Bool) : PageBuffer where
  pageBase := base
  cursor := cur
  bytes := b :: List.replicate 62 0xFF ++ [b]
  dirty := dirty
  region := reg

/-- The next state of an outcome. -/
def nextOf : Out → Option State
  | .next t => some t
  | .fault _ | .refused _ => none

/-- What slave 0 shows after an outcome. -/
def seen {α : Type} (o : Out) (f : Slave → α) : Option α := (nextOf o).bind fun t => (t.slaves[0]?).map f

/-- The refusal of an outcome. -/
def refusalOf : Out → Option Refusal
  | .refused r => some r
  | .next _ | .fault _ => none

/-- Slave 0's reply: the words that reached `X`. -/
def heard (o : Out) : Option (List Word) := (nextOf o).map fun t => t.link.fifo

/-! ## WellFormed refuses (R95, R99, R88) -/

theorem test_wf_unregistered : (Instr.unregistered 0xFA).wf = false ∧ (Instr.unregistered 0xF9).wf = true := by decide

theorem test_wf_reserved : (Instr.linkReserved 0x80).wf = false ∧ (Instr.linkReserved 0xB0).wf = false ∧
    (Instr.linkReserved 0x7F).wf = true ∧ (Instr.linkReserved 0xB1).wf = true := by decide

theorem test_wf_drain_count : (Instr.drainHdr 0 6).wf = false ∧ (Instr.drainHdr 0b11111 5).wf = true := by decide

theorem test_wf_drain_marker : (Instr.drainHdr 0b00100 2).wf = false ∧ (Instr.drainHdr 0b00011 2).wf = true := by decide

/-! ## Decoding words written out from opcode_table.json and R83 to R96 -/

theorem test_decode_words :
    decodeMain false .app [] 0b100000101 = .addr 0b00000101 ∧
    decodeMain false .app [] 0b000010001 = .dataUnselected 0b00010001 ∧
    decodeMain true .app [] 0b011111111 = .deselect ∧
    decodeMain true .app [] 0b011111110 = .idStart ∧
    decodeMain true .app [] 0b011111101 = .idNext ∧
    decodeMain true .app [] 0b011111100 = .addrSet ∧
    decodeMain true .app [] 0b011111011 = .bootEnter ∧
    decodeMain true .boot [] 0b011111010 = .bootExit ∧
    decodeMain true .boot [] 0b000000001 = .rdBuf ∧
    decodeMain true .boot [] 0b000000010 = .wrBuf ∧
    decodeMain true .app [3] 0b000000100 = .unregistered 0b00000100 ∧
    decodeMain true .boot [3] 0b000000011 = .unregistered 0b00000011 := by decide

theorem test_decode_dev :
    decodeMain true .app [0] 0b000000000 = .dev00 ∧ decodeMain true .app [1] 0b000000001 = .dev01 ∧
    decodeMain true .app [2] 0b000000010 = .dev02 ∧ decodeMain true .app [3] 0b000000011 = .dev03 ∧
    decodeMain true .app [4] 0b000000100 = .dev04 ∧ decodeMain true .app [5] 0b000000101 = .dev05 ∧
    decodeMain true .app [6] 0b000000110 = .dev06 ∧ decodeMain true .app [7] 0b000000111 = .dev07 ∧
    decodeMain true .app [8] 0b000001000 = .dev08 ∧ decodeMain true .app [9] 0b000001001 = .dev09 ∧
    decodeMain true .app [10] 0b000001010 = .dev0A ∧ decodeMain true .app [11] 0b000001011 = .unregistered 11 := by decide

theorem test_decode_operand_and_reply :
    decode .operand (.word 0b011111010) = .ok (.data 0xFA) ∧ decode .operand (.word 0b100001001) = .error .addressWhereData ∧
    decode .reply (.word 0b010100101) = .ok .ack ∧ decode .reply (.word 0b000000000) = .ok .nack ∧
    decode .reply (.word 0b000001010) = .ok (.data 0x0A) ∧ decode .reply (.word 0b101000101) = .error .addressAsReply ∧
    decode .link (.word 0) = .error .wrongFormat := by refine ⟨?_, ?_, ?_, ?_, ?_, ?_, ?_⟩ <;> rfl

theorem test_decode_link :
    decodeLink 0b10010000 = .linkHi 0b10000 ∧ decodeLink 0b10100101 = .linkLo 0b0101 ∧ decodeLink 0b10110000 = .linkDrain ∧
    decodeLink 0b10110001 = .linkReserved 0xB1 ∧ decodeLink 0b01000010 = .linkReserved 0x42 ∧
    decodeHeader 0b00010010 = .drainHdr 0b00010 2 ∧ decodeHeader 0b10101101 = .drainHdr 0b10101 5 ∧
    decode .drainPayload (.byte 0xA5) = .ok (.drainPayload 0xA5) := by refine ⟨?_, ?_, ?_, ?_, ?_, ?_, ?_, ?_⟩ <;> rfl

/-- V1. -/
theorem test_enc2 : enc2 0x0A5 = (0x8A, 0xA5) ∧ enc2 0x0FC = (0x8F, 0xAC) ∧ enc2 0x105 = (0x90, 0xA5) ∧
    enc2 0x1FF = (0x9F, 0xAF) ∧ dec2 0x9A 0xA5 = 0x1A5 := by decide

/-- V2. -/
theorem test_enc_drain : encDrain [] = [0x00] ∧ encDrain [0x105, 0x0A5] = [0x12, 0x05, 0xA5] ∧
    encDrain [0x0A5, 0x105] = [0x0A, 0xA5, 0x05] ∧ encDrain [0x100, 0x101, 0x102] = [0x3B, 0x00, 0x01, 0x02] ∧
    encDrain [0x1FF, 0x000, 0x1AA, 0x055, 0x100] = [0xAD, 0xFF, 0x00, 0xAA, 0x55, 0x00] := by decide

/-- V2. -/
theorem test_dec_drain : decDrain [0x12, 0x05, 0xA5] = some [0x105, 0x0A5] ∧ decDrain [0x06] = none ∧
    decDrain [0x02, 0xFE, 0x0A] = some [0x0FE, 0x00A] := by decide

/-! ## Selection (V5) -/

theorem test_addr_self : seen (exec (.addr 5) (sys slave5)) (fun S => (S.selected, S.phase)) = some (true, .echo .toMain) ∧
    heard (exec (.addr 5) (sys slave5)) = some [0x0A5] := by decide

theorem test_addr_other : seen (exec (.addr 6) (sys sel5)) (fun S => (S.selected, S.phase)) = some (false, .main) ∧
    heard (exec (.addr 6) (sys sel5)) = some [] := by decide

theorem test_data_unselected : seen (step (sys { slave5 with rx := [0x0FE] } [.slave 0])) (fun S => (S.rx, S.selected)) =
    some ([], false) ∧ heard (step (sys { slave5 with rx := [0x0FE] } [.slave 0])) = some [] := by decide

theorem test_deselect : seen (exec .deselect (sys sel5)) (fun S => (S.selected, S.rx)) = some (false, [0x000]) := by decide

theorem test_unregistered : seen (step (sys { sel5 with rx := [0x0F9] } [.slave 0])) (fun S => (S.rx, S.selected, S.phase)) =
    some ([], true, .main) := by decide

theorem test_held_address : seen (step (sys { sel5 with addressPending := true, heldAddr := 6 } [.slave 0]))
    (fun S => (S.addressPending, S.selected)) = some (false, false) := by decide

/-! ## Universal commands (V6) -/

theorem test_id_start : seen (exec .idStart (sys { sel5 with idCursor := 7 })) (fun S => (S.idCursor, S.rx)) =
    some (0, [0x00A]) := by decide

theorem test_id_next : seen (exec .idNext (sys { sel5 with idCursor := 2 })) (fun S => (S.idCursor, S.rx)) =
    some (3, [0x01D]) := by decide

theorem test_id_next_past_end : seen (exec .idNext (sys { sel5 with idCursor := 10 })) (fun S => (S.idCursor, S.rx)) =
    some (10, [0x000]) := by decide

theorem test_addr_set : seen (exec .addrSet (sys sel5)) (fun S => (S.phase, S.rx)) =
    some (.echo .toAsProposal, [0x005]) := by decide

theorem test_data_handshake :
    seen (exec (.data 0xFF) (sys { sel5 with phase := .asConfirm 0xFF })) (fun S => (S.address, S.selected, S.rx)) =
      some (0xFF, true, [0x0A5]) ∧
    seen (exec (.data 8) (sys { sel5 with phase := .asConfirm 9 })) (fun S => (S.address, S.rx)) = some (5, [0x000]) := by decide

/-- R268: address 6 is in use. -/
theorem test_addr_set_in_use : refusalOf (exec (.data 6) (sys { sel5 with phase := .asConfirm 6 })) = some .duplicateAddress := by
  decide

theorem test_boot_enter : seen (step (sys { sel5 with idCursor := 3, phase := .echo (.toModeSwitch .boot), rx := [0x0A5] } [.slave 0]))
    (fun S => (S.mode, S.selected, S.idCursor, S.rx)) = some (.boot, false, 0, []) := by decide

theorem test_boot_enter_again : seen (exec .bootEnter (sys boot5)) (fun S => (S.phase, S.mode, S.rx)) =
    some (.echo .toMain, .boot, [0x0A5]) := by decide

theorem test_boot_exit : seen (exec .bootExit (sys boot5)) (fun S => (S.phase, S.rx)) =
    some (.echo (.toModeSwitch .app), [0x0A5]) := by decide

theorem test_addr_set_interrupted : seen (step (sys { sel5 with phase := .asProposal, rx := [0x106] } [.slave 0]))
    (fun S => (S.phase, S.addressPending, S.heldAddr, S.rx)) = some (.main, true, 6, []) := by decide

/-! ## Dispatcher (V5, P9) -/

theorem test_dev_registered : seen (step (sys { sel5 with rx := [0x003] } [.slave 0])) (fun S => (S.rx, S.phase)) =
    some ([0x02A], .echo (.toDevReply [])) := by decide

theorem test_dev_not_registered : heard (step (sys { sel5 with rx := [0x004] } [.slave 0])) = some [] ∧
    heard (step (sys { sel5 with rx := [0x001] } [.slave 0])) = some [] ∧
    heard (step (sys { boot5 with rx := [0x003] } [.slave 0])) = some [] := by decide

/-! ## Page programmer (V7, P3, P5) -/

/-- `FLASH[0x40..0x43] = DE AD BE EF`. -/
def flashed : Slave := { boot5 with flash := [(0x40, 0xDE), (0x41, 0xAD), (0x42, 0xBE), (0x43, 0xEF)] }

/-- A byte of the bootloader itself (P5). -/
def protected5 : Slave := { boot5 with flash := [(0x1C10, 0x77)] }

theorem test_set_address : ((flashed.setAddress 0x41).bind Slave.page).map
    (fun p => (p.pageBase, p.cursor, p.bytes.take 5, p.dirty, p.region)) =
    some (0x40, 1, [0xDE, 0xAD, 0xBE, 0xEF, 0xFF], false, .appArea) := by decide

theorem test_set_address_bootloader : ((protected5.setAddress 0x1C10).bind Slave.page).map
    (fun p => (p.cursor, p.bytes[0x10]?)) = some (0x10, some 0xFF) ∧ boot5.setAddress 0x3000 = none := by decide

theorem test_set_byte_wraps : ((boot5.setAddress 0x7F).bind (fun S => (S.setByte 0x7E).bind Slave.page)).map
    (fun p => (p.cursor, p.bytes[63]?, p.dirty)) = some (0, some 0x7E, true) := by decide

theorem test_commit_flash : (flashed.setAddress 0x7F).bind (fun S => (S.setByte 0x7E).bind
    (fun S => (S.commit).map (fun S => (S.flash.readBytes 0x40 5, S.flash.read 0x7F)))) =
    some ([0xDE, 0xAD, 0xBE, 0xEF, 0xFF], 0x7E) := by decide

theorem test_commit_eeprom : (boot5.setAddress 0x10004).bind (fun S => (S.setByte 0x33).bind
    (fun S => (S.commit).map (fun S => S.eeprom))) = some [(0, 5), (4, 0x33)] := by decide

theorem test_flash_words : flashWords [0x34, 0x12, 0x78, 0x56] = [0x1234, 0x5678] := by decide

theorem test_rd_buf : seen (exec .rdBuf (sys boot5)) (fun S => (S.phase, S.rx)) =
    some (.echo (.toBufAddr .rd 0 0), [0x0A5]) := by decide

theorem test_wr_buf : seen (exec .wrBuf (sys boot5)) (fun S => (S.phase, S.rx)) =
    some (.echo (.toBufAddr .wr 0 0), [0x0A5]) := by decide

theorem test_data_buffer :
    seen (exec (.data 0x10) (sys { boot5 with phase := .bufAddr .wr 2 0x001C })) (fun S => (S.phase, S.rx)) =
      some (.echo (.toBufCount .wr 0x001C10), [0x010]) ∧
    seen (exec (.data 0) (sys { boot5 with phase := .bufCount .rd 0 })) (fun S => (S.phase, S.rx)) =
      some (.echo (.toRdDummy 256), [0x000]) ∧
    seen (exec (.data 0) (sys { boot5 with phase := .rdDummy 1, page := some (pageOf .appArea 0 63 7 false) }))
      (fun S => (S.phase, S.rx, S.page.map PageBuffer.cursor)) = some (.echo .toMain, [0x007], some 0) ∧
    seen (exec (.data 9) (sys { boot5 with phase := .wrByte 1, page := some (pageOf .appArea 0 63 7 false) }))
      (fun S => (S.phase, S.rx, S.page.map PageBuffer.dirty)) = some (.echo .toCommit, [0x009], some true) := by decide

/-! ## Replies, link codec (V3, V4) -/

theorem test_ack : seen (exec .ack (sys sel5)) (fun S => (S.phase, S.rx)) = some (.echo .toMain, [0x0A5]) := by decide

theorem test_nack : seen (exec .nack (sys sel5)) (fun S => (S.phase, S.rx)) = some (.echo .toMain, [0x000]) := by decide

theorem test_link_hi : (nextOf (exec (.linkHi 0x10) (linked .reset))).map (fun t => (t.link.hiLatch, t.link.fault)) =
    some (some 0x10, false) := by decide

theorem test_link_hi_twice : (nextOf (exec (.linkHi 0x11) (linked { Link.reset with hiLatch := some 0x10 }))).map
    (fun t => (t.link.hiLatch, t.link.fault)) = some (some 0x10, true) := by decide

theorem test_link_lo : (nextOf (exec (.linkLo 5) (linked { Link.reset with hiLatch := some 0x10 }))).map
    (fun t => (t.link.hiLatch, t.link.fifo, t.slaves.map Slave.rx)) = some (none, [0x105], [[0x105], [0x105]]) := by decide

theorem test_link_lo_alone : (nextOf (exec (.linkLo 5) (linked .reset))).map (fun t => t.link.fault) = some true := by decide

theorem test_link_drain : (nextOf (exec .linkDrain (linked { Link.reset with fifo := [0x105, 0x0A5] }))).map
    (fun t => (t.link.fifo, t.link.x2h)) = some ([], [0x12, 0x05, 0xA5]) := by decide

theorem test_link_reserved : (nextOf (step (linked { Link.reset with h2x := [0x42] } [.link]))).map
    (fun t => (t.link.fault, t.link.h2x)) = some (true, []) := by decide

theorem test_fifo_full : (nextOf (exec (.addr 5) { sys slave5 with params := { Config.exampleParams with xfifoRoom := 0 }, link :=
    { Link.reset with fifo := [0x105] } })).map (fun t => (t.link.fifo, t.link.fault)) = some ([0x105], true) := by decide

/-! ## Master (V8, V9) -/

theorem test_drain_hdr : (nextOf (exec (.drainHdr 2 2) (host (selecting .header) [] 1))).map (fun t => t.master.phase) =
    some (selecting (.payload 2 2 0)) := by decide

theorem test_drain_hdr_reserved : (nextOf (exec (.drainHdr 0 6) (host (selecting .header) [] 1))).map
    (fun t => (t.master.phase, t.returns)) = some (.idle, [.err .desync]) := by decide

theorem test_drain_payload : (nextOf (exec (.drainPayload 0x05) (host (selecting (.payload 2 2 0)) [] 1))).map
    (fun t => (t.master.ring, t.master.phase)) = some ([0x105], selecting (.payload 2 2 1)) := by decide

theorem test_read_buffer_arguments :
    (nextOf (step (asked (.readBuffer 5 0 257)))).map (fun t => (t.returns, t.link.h2x)) = some ([.err .bufferOverrun], []) ∧
    (nextOf (step (asked (.readBuffer 5 0x01000000 1)))).map (fun t => t.returns) = some [.err .invalidAddress] ∧
    (nextOf (step (asked (.readBuffer 5 0x01000000 0)))).map (fun t => t.returns) = some [.err .bufferOverrun] := by decide

theorem test_select : (nextOf (step (asked (.select 5)))).map (fun t => (t.link.h2x, t.master.pendingEchoDiscards, t.master.phase)) =
    some ([0x90, 0xA5, 0xB0], 1, selecting .header) := by decide

/-- The example of R222: counter 1, the drain reports 0x105 and 0x0A5; and other replies. -/
theorem test_expect_replies :
    (nextOf (exec (.drainPayload 0xA5) (host (selecting (.payload 2 2 1)) [0x105] 1))).map
      (fun t => (t.returns, t.master.pendingEchoDiscards, t.link.h2x)) = some ([.done], 0, []) ∧
    (nextOf (exec (.drainPayload 0x00) (host (selecting (.payload 0 1 0)) [] 0))).map (fun t => t.returns) = some [.err .desync] ∧
    (nextOf (exec (.drainPayload 0x06) (host (selecting (.payload 1 1 0)) [] 0))).map (fun t => t.returns) =
      some [.err .invalidAddress] := by decide

/-- R225: after the ACK of the select, `BOOT_ENTER` is sent (V1: 0x0FB is 0x8F 0xAB) and the next drain requested. -/
theorem test_check_slave : (nextOf (exec (.drainPayload 0xA5)
    (host (.recv (.checkSlave 5) 0 [] false (.payload 0 1 0)) [] 0))).map
    (fun t => (t.link.h2x, t.master.pendingEchoDiscards, t.master.phase)) =
    some ([0x8F, 0xAB, 0xB0], 1, .recv (.checkSlave 5) 1 [] false .header) := by decide

/-- R222: with the deadline passed, an empty drain response ends the operation. -/
theorem test_late : (nextOf (exec (.drainHdr 0 0) (host (.recv (.select 5) 0 [] true .header) [] 0))).map
    (fun t => (t.returns, t.master.phase, t.link.h2x)) = some ([.err .timeout], .idle, []) := by decide

/-! ## The host's word placement -/

/-- Every row of opcode_table.json whose word is no other row's is read back at its position (log 20). -/
theorem test_table_words :
    decodeTableWord 16 0x105 = some (.addr 5) ∧ decodeTableWord 16 0x0FF = some .deselect ∧
    decodeTableWord 16 0x001 = some .rdBuf ∧ decodeTableWord 16 0x002 = some .wrBuf ∧ decodeTableWord 16 0x000 = some .dev00 ∧
    decodeTableWord 16 0x00A = some .dev0A ∧ decodeTableWord 16 0x00B = some (.unregistered 0x0B) ∧
    decodeTableWord 8 0x90 = some (.linkHi 0x10) ∧ decodeTableWord 8 0xB0 = some .linkDrain ∧
    decodeTableWord 8 0xB1 = some (.linkReserved 0xB1) ∧ decodeTableWord 16 0x200 = none ∧ decodeTableWord 8 0x100 = none := by
  decide

theorem test_fetch_word :
    heard (step (State.reset.withFetchWord 16 0x105)) = some [0x0A5] ∧
    heard (step (State.reset.withFetchWord 16 0x003)) = some [0x02A] ∧
    heard (step (State.reset.withFetchWord 16 0x001)) = some [0x0A5] ∧
    (nextOf (step (State.reset.withFetchWord 8 0x90))).map (fun t => t.link.hiLatch) = some (some 0x10) := by decide

/-! ## Witnesses: the hypotheses of each obligation are met together -/

/-- Slave 6 is unselected, so slave 0 answers alone. -/
theorem sys_alone (S : Slave) (ts : List Turn) : (sys S ts).AnswersAlone 0 S := by
  intro _ j Q hj hQ hsel
  match j with
  | 0 => exact absurd rfl hj
  | 1 =>
    have : Q = Slave.resetOf (Config.exampleBoard 6) := by simpa [sys] using hQ.symm
    subst this
    cases hsel
  | n + 2 => simp [sys] at hQ

theorem sys_next (S : Slave) (ts : List Turn) : (sys S (.slave 0 :: ts)).SlaveNext 0 S ts := ⟨rfl, rfl, sys_alone S _⟩

theorem slave6_inv : (Slave.resetOf (Config.exampleBoard 6)).Inv :=
  ⟨by decide, by decide, by decide, by decide, nofun, fun _ => rfl, trivial⟩

theorem slave5_inv : slave5.Inv := ⟨by decide, by decide, by decide, by decide, nofun, fun _ => rfl, trivial⟩

theorem sys_inv {S : Slave} (h : S.Inv) (ha : S.address ≠ 6) (ts : List Turn) : (sys S ts).Inv where
  distinct := by
    simp only [State.DistinctAddresses, sys, List.map_cons, List.map_nil, List.nodup_cons, List.mem_cons, List.not_mem_nil,
      or_false, not_false_eq_true, List.nodup_nil, and_true]
    exact ha
  slaves := by
    intro Q hQ
    simp only [sys, List.mem_cons, List.not_mem_nil, or_false] at hQ
    obtain rfl | rfl := hQ
    · exact h
    · exact slave6_inv
  fifo_le := Nat.zero_le _
  ring_le := Nat.zero_le _
  mphase_ok := trivial

/-- A slave about to commit a dirty page. -/
def committing (reg : Region) (base : BitVec 32) : Slave :=
  { boot5 with phase := .echo .toCommit, rx := [0x0AA], page := some (pageOf reg base 2 0xAA true) }

theorem committing_protected_inv : (committing .bootloaderArea 0x1C00).Inv where
  flash_wf := by decide
  flash_bound := by decide
  eeprom_wf := by decide
  cursor_le := by decide
  page_ok := by
    rintro p ⟨⟩
    exact ⟨by decide, by decide, by decide, by decide⟩
  app_no_page := nofun
  phase_ok := ⟨by decide, ⟨rfl, rfl⟩, rfl⟩

/-- O1: at the ends of the operands' ranges. -/
theorem witness_DecodeOfEncodeIsIdentity :
    let main := Position.mainLoop true .app [0, 0x0A]
    ((Instr.addr 0xFF).wf = true ∧ main.admits (.addr 0xFF) = true) ∧
    ((Instr.dev00).wf = true ∧ main.admits .dev00 = true) ∧ ((Instr.dev0A).wf = true ∧ main.admits .dev0A = true) ∧
    ((Instr.unregistered 0xF9).wf = true ∧ main.admits (.unregistered 0xF9) = true) ∧
    ((Instr.rdBuf).wf = true ∧ (Position.mainLoop true .boot []).admits .rdBuf = true) ∧
    ((Instr.data 0xFA).wf = true ∧ Position.operand.admits (.data 0xFA) = true) ∧
    ((Instr.data 0xA4).wf = true ∧ Position.reply.admits (.data 0xA4) = true) ∧
    ((Instr.linkReserved 0xB1).wf = true ∧ Position.link.admits (.linkReserved 0xB1) = true) ∧
    ((Instr.drainHdr 31 5).wf = true ∧ Position.drainHeader.admits (.drainHdr 31 5) = true) := by decide

/-- O2. -/
theorem witness_EncodeOfDecodeIsIdentity :
    decode .link (.byte 0x7F) = .ok (.linkReserved 0x7F) ∧ decode .drainHeader (.byte 0xFF) = .ok (.drainHdr 31 7) ∧
    decode .reply (.word 0x0A5) = .ok .ack ∧ decode (.mainLoop false .app []) (.word 0x0FF) = .ok (.dataUnselected 0xFF) :=
  ⟨rfl, rfl, rfl, rfl⟩

/-- O3: a full drain. -/
theorem witness_HostCodecRoundTrips : ([0x1FF, 0x000, 0x1AA, 0x055, 0x100] : List Word).length ≤ 5 := by decide

/-- O5: the instance of `State.reset`. -/
theorem witness_LaunchLeavesEveryField :
    [Config.exampleBoard 5, Config.exampleBoard 6][1]? = some (Config.exampleBoard 6) := by decide

/-- `ee_offset` of the example board is injective: its EepromArea is one range. -/
theorem exampleBoard_eeInjective (a : Byte) : (Config.exampleBoard a).EeInjective := by
  intro x y hx hy h
  have key : ∀ z : BitVec 32, (Config.exampleBoard a).classify z = some .eepromArea →
      (Config.exampleBoard a).eeOffset z = z.toNat - 0x10000 ∧ 0x10000 ≤ z.toNat := by
    intro z hz
    simp only [Board.classify, Board.eeOffset, Board.rangeAt, Config.exampleBoard, MapRange.holds, Board.pageSize,
      List.find?_cons] at hz ⊢
    norm_num at hz ⊢
    have one : ∀ (r : MapRange), (∃ q, some r = some q ∧ q.kind = .eepromArea) → r.kind = .eepromArea := by
      rintro r ⟨q, hq, hk⟩
      cases hq
      exact hk
    split at hz
    · cases one _ hz
    · split at hz
      · cases one _ hz
      · split at hz <;> simp_all
        omega
  obtain ⟨h1, h2⟩ := key x hx
  obtain ⟨h3, h4⟩ := key y hy
  apply BitVec.eq_of_toNat_eq
  omega

/-- The boards of the example meet the requirements on the launch configuration (R283). -/
theorem example_launchOk : LaunchOk [Config.exampleBoard 5, Config.exampleBoard 6] where
  distinct := by decide
  sameBaud := by decide
  descOk := by decide
  tableOk := by decide
  eeInjective := by
    intro b hb
    simp only [List.mem_cons, List.not_mem_nil, or_false] at hb
    obtain rfl | rfl := hb <;> exact exampleBoard_eeInjective _
  mediaOk := by decide

/-- O6: the boards of the example, at the last address too. -/
theorem witness_LaunchMeetsInvariant : (∀ b ∈ [Config.exampleBoard 5, Config.exampleBoard 0xFF], b.mediaOk = true) ∧
    ([Config.exampleBoard 5, Config.exampleBoard 0xFF].map fun b => b.eepromInit.read 0).Nodup := by decide

/-- O7, O8: a slave takes a word. -/
theorem witness_StepKeepsInvariant :
    (sys slave5 [.slave 0]).Inv ∧ ∃ t, step (sys { slave5 with rx := [0x105] } [.slave 0]) = .next t :=
  ⟨sys_inv slave5_inv (by decide) _, _, rfl⟩

/-- O7, O8, O9: a dirty page of BootloaderArea is committed. Both ends of the page are of that class. -/
theorem witness_BootloaderAreaIsNeverWritten :
    (sys (committing .bootloaderArea 0x1C00) [.slave 0]).Inv ∧
    (∃ t, step (sys (committing .bootloaderArea 0x1C00) [.slave 0]) = .next t) ∧
    (committing .bootloaderArea 0x1C00).board.classify 0x1C00 = some .bootloaderArea ∧
    (committing .bootloaderArea 0x1C00).board.classify 0x1FFF = some .bootloaderArea :=
  ⟨sys_inv committing_protected_inv (by decide) _, ⟨_, rfl⟩, by decide, by decide⟩

/-- O8: a refused change of address. -/
theorem witness_StepNeverFaults :
    (sys { sel5 with phase := .asConfirm 6, rx := [0x006] } [.slave 0]).Inv ∧
    refusalOf (step (sys { sel5 with phase := .asConfirm 6, rx := [0x006] } [.slave 0])) = some .duplicateAddress :=
  ⟨sys_inv (S := { sel5 with phase := .asConfirm 6, rx := [0x006] })
    ⟨by decide, by decide, by decide, by decide, nofun, fun _ => rfl, rfl⟩ (by decide) _, by decide⟩

/-- O10. -/
theorem witness_StepKeepsConfiguration : ∃ t, step (sys { sel5 with rx := [0x003] } [.slave 0]) = .next t := ⟨_, rfl⟩

/-- O11: a flash byte at each end of the committed page, an EEPROM byte at a commit and at a confirmed `ADDR_SET`. -/
theorem witness_OnlyCommitAndAddressSetWriteMedia :
    (seen (step (sys (committing .appArea 0x40) [.slave 0])) (fun T => (T.flash.read 0x40, T.flash.read 0x7F)) = some (0xAA, 0xAA) ∧
      (committing .appArea 0x40).flash.read 0x40 = 0xFF) ∧
    (seen (step (sys (committing .eepromArea 0x10000) [.slave 0])) (fun T => (T.eeprom.read 0, T.eeprom.read 63)) = some (0xAA, 0xAA) ∧
      (committing .eepromArea 0x10000).eeprom.read 63 = 0xFF) ∧
    seen (step (sys { sel5 with phase := .asConfirm 9, rx := [0x009] } [.slave 0])) (fun T => T.eeprom.read 0) = some 9 := by decide

/-- O12: selected by its own address; deselected by another address, by `DESELECT` and by a mode switch. -/
theorem witness_OnlyAddressWordsDeselectAndModeSwitchWriteSelected :
    seen (step (sys { slave5 with rx := [0x105] } [.slave 0])) Slave.selected = some true ∧
    seen (step (sys { sel5 with rx := [0x106] } [.slave 0])) Slave.selected = some false ∧
    seen (step (sys { sel5 with rx := [0x0FF] } [.slave 0])) Slave.selected = some false ∧
    seen (step (sys { sel5 with phase := .echo (.toModeSwitch .boot), rx := [0x0A5] } [.slave 0])) Slave.selected = some false := by
  decide

/-- O13. -/
theorem witness_SlaveStepSendsAtMostOneDataWord :
    (sys { sel5 with rx := [0x0FE] } [.slave 0, .link]).nextTurn.1 = .slave 0 ∧
    ∃ t, step (sys { sel5 with rx := [0x0FE] } [.slave 0, .link]) = .next t := ⟨rfl, _, rfl⟩

/-- O14: the opcode of `DESELECT` among them. -/
theorem witness_UnselectedSlaveIgnoresDataWords (d : Byte) :
    let S : Slave := { slave5 with rx := [Word.data d] }
    (sys S [.slave 0]).SlaveNext 0 S [] ∧ S.phase = .main ∧ S.addressPending = false ∧ S.selected = false ∧
      S.rx = Word.data d :: [] := ⟨sys_next _ _, rfl, rfl, rfl, rfl⟩

/-- O15: a call, and a timeout. -/
theorem witness_MasterTurnsLeaveTheBusAlone :
    ((asked (.select 5)).nextTurn.1 = .master ∧ ∃ t, step (asked (.select 5)) = .next t) ∧
    (host (selecting .header) [] 0 [.masterTimeout]).nextTurn.1 = .masterTimeout ∧
      ∃ t, step (host (selecting .header) [] 0 [.masterTimeout]) = .next t := ⟨⟨rfl, _, rfl⟩, rfl, _, rfl⟩

/-- O16. -/
theorem witness_AddressWordSelectsExactlyItsSlave : State.reset.DistinctAddresses := by unfold State.DistinctAddresses; decide

/-- O17: an address word, a held address, an operand. -/
theorem witness_SlaveStepRunsDecodedWord :
    (let S : Slave := { sel5 with rx := [0x105] }
     (sys S [.slave 0]).SlaveNext 0 S [] ∧ S.phase = .main ∧ S.addressPending = false ∧ S.rx = 0x105 :: [] ∧
       decode S.mainPosition (.word 0x105) = .ok (.addr 5)) ∧
    (let S : Slave := { sel5 with addressPending := true, heldAddr := 6 }
     (sys S [.slave 0]).SlaveNext 0 S [] ∧ S.phase = .main ∧ S.addressPending = true) ∧
    (let S : Slave := { sel5 with phase := .asProposal, rx := [0x0FF] }
     (sys S [.slave 0]).SlaveNext 0 S [] ∧ S.phase.awaitsOperand = true ∧ S.addressPending = false ∧ S.rx = 0x0FF :: [] ∧
       decode .operand (.word 0x0FF) = .ok (.data 0xFF)) :=
  ⟨⟨sys_next _ _, rfl, rfl, rfl, rfl⟩, ⟨sys_next _ _, rfl, rfl⟩, sys_next _ _, rfl, rfl, rfl, rfl⟩

/-- O17: two selected slaves at address 6. -/
theorem witness_SlaveStepRunsDecodedWord_duplicate :
    let S : Slave := { Slave.resetOf (Config.exampleBoard 6) with selected := true }
    let s := { State.reset with slaves := [S, S], agenda := [.slave 0] }
    s.agenda = .slave 0 :: [] ∧ s.slaves[0]? = some S ∧ S.selected = true ∧ 1 ≠ 0 ∧ s.slaves[1]? = some S ∧
      S.address = S.address := by decide

/-- O18: the codec running and faulted, and the master at a header and at the last payload byte. -/
theorem witness_LinkAndMasterStepsRunDecodedByte :
    (let s := linked { Link.reset with h2x := [0xB0] } [.link]
     s.agenda = .link :: [] ∧ s.link.fault = false ∧ s.link.h2x = 0xB0 :: [] ∧ decode .link (.byte 0xB0) = .ok .linkDrain) ∧
    (let s := linked { Link.reset with fault := true } [.link]
     s.agenda = .link :: [] ∧ s.link.fault = true) ∧
    (let s := { host (selecting .header) [] 1 [.master] with link := { Link.reset with x2h := [0x01] } }
     s.agenda = .master :: [] ∧ s.master.phase = .recv (.select 5) 0 [] false .header ∧ s.link.x2h = 0x01 :: [] ∧
       decode .drainHeader (.byte 0x01) = .ok (.drainHdr 0 1)) ∧
    (let s := { host (selecting (.payload 0 1 0)) [] 1 [.master] with link := { Link.reset with x2h := [0xA5] } }
     s.agenda = .master :: [] ∧ s.master.phase = .recv (.select 5) 0 [] false (.payload 0 1 0) ∧ s.link.x2h = 0xA5 :: [] ∧
       decode .drainPayload (.byte 0xA5) = .ok (.drainPayload 0xA5)) :=
  ⟨⟨rfl, rfl, rfl, rfl⟩, ⟨rfl, rfl⟩, ⟨rfl, rfl, rfl, rfl⟩, rfl, rfl, rfl, rfl⟩

/-- O19: a held address, an address word as operand, a timeout. -/
theorem witness_OperandErrorAbortsSilently :
    (let S : Slave := { sel5 with phase := .asProposal, addressPending := true }
     let s := sys S [.slave 0]
     s.slaves[0]? = some S ∧ s.AnswersAlone 0 S ∧ S.phase.awaitsOperand = true ∧ s.agenda = .slave 0 :: [] ∧
       S.addressPending = true) ∧
    (let S : Slave := { boot5 with phase := .wrByte 256, rx := [Word.address 6] }
     let s := sys S [.slave 0]
     s.slaves[0]? = some S ∧ s.AnswersAlone 0 S ∧ S.phase.awaitsOperand = true ∧ s.agenda = .slave 0 :: [] ∧
       S.addressPending = false ∧ S.rx = Word.address 6 :: []) ∧
    (let S : Slave := { boot5 with phase := .rdDummy 1 }
     let s := sys S [.slaveTimeout 0]
     s.slaves[0]? = some S ∧ s.AnswersAlone 0 S ∧ S.phase.awaitsOperand = true ∧ s.agenda = .slaveTimeout 0 :: [] ∧
       S.addressPending = false ∧ S.rx = [] ∧ S.board.devRxTimeout.isSome = true) :=
  ⟨⟨rfl, sys_alone _ _, rfl, rfl, rfl⟩, ⟨rfl, sys_alone _ _, rfl, rfl, rfl, rfl⟩, rfl, sys_alone _ _, rfl, rfl, rfl, rfl, rfl⟩

/-- O20: an address word is discarded too. -/
theorem witness_EchoDiscardResumes (w : Word) :
    let S : Slave := { boot5 with phase := .echo (.toWrByte 1), rx := [w] }
    (sys S [.slave 0]).SlaveNext 0 S [] ∧ S.phase = .echo (.toWrByte 1) ∧ S.rx = w :: [] ∧
      (Cont.toWrByte 1).resume = some (.wrByte 1) := ⟨sys_next _ _, rfl, rfl, rfl⟩

/-- O21: a commit to flash, one that keeps the address byte, and one that writes an address in use. -/
theorem witness_CommitRunsWithLastEchoDiscard :
    (let S := committing .appArea 0
     (sys S [.slave 0]).SlaveNext 0 S [] ∧ S.phase = .echo .toCommit ∧ S.rx = 0x0AA :: [] ∧
       S.page = some (pageOf .appArea 0 2 0xAA true) ∧ S.commit.map Slave.address = some S.address) ∧
    (let S : Slave := { boot5 with phase := .echo .toCommit, rx := [0x006], page := some (pageOf .eepromArea 0x10000 1 6 true) }
     (sys S [.slave 0]).SlaveNext 0 S [] ∧ S.phase = .echo .toCommit ∧ S.rx = 0x006 :: [] ∧
       S.page = some (pageOf .eepromArea 0x10000 1 6 true) ∧ S.commit.map Slave.address = some 6 ∧ (6 : Byte) ≠ S.address ∧
       ∃ (j : Nat) (Q : Slave), j ≠ 0 ∧ (sys S [.slave 0]).slaves[j]? = some Q ∧ Q.address = 6) :=
  ⟨⟨sys_next _ _, rfl, rfl, rfl, by decide⟩, sys_next _ _, rfl, rfl, rfl, by decide, by decide, 1, _, by decide, rfl, by decide⟩

/-- O22: both directions. -/
theorem witness_ModeSwitchStartsNewSession (m : Mode) :
    let S : Slave := { boot5 with phase := .echo (.toModeSwitch m), rx := [0x0A5] }
    (sys S [.slave 0]).SlaveNext 0 S [] ∧ S.phase = .echo (.toModeSwitch m) ∧ S.rx = 0x0A5 :: [] := ⟨sys_next _ _, rfl, rfl⟩

/-- O23: no reply left, and two. -/
theorem witness_DeviceRepliesContinue (rest : List Byte) :
    let S : Slave := { sel5 with phase := .echo (.toDevReply rest), rx := [0x02A] }
    (sys S [.slave 0]).SlaveNext 0 S [] ∧ S.rx = 0x02A :: [] ∧ S.phase = .echo (.toDevReply rest) := ⟨sys_next _ _, rfl, rfl⟩

/-- O24: its own address, another, and a duplicate. -/
theorem witness_AddrSelectsOrDeselects :
    (sys slave5).slaves[(sys slave5).active]? = some slave5 ∧
    (5 = slave5.address ∧ (sys slave5).sharesAddress 0 slave5 = false) ∧ 6 ≠ slave5.address ∧
    (let S : Slave := Slave.resetOf (Config.exampleBoard 6)
     (sys S).slaves[(sys S).active]? = some S ∧ 6 = S.address ∧
       ∃ (j : Nat) (Q : Slave), j ≠ (sys S).active ∧ (sys S).slaves[j]? = some Q ∧ Q.address = 6) :=
  ⟨rfl, ⟨by decide, by decide⟩, by decide, rfl, by decide, 1, _, by decide, rfl, by decide⟩

/-- O24: no other slave has address 5. -/
theorem witness_addr_alone : ∀ (j : Nat) (Q : Slave), j ≠ (sys slave5).active → (sys slave5).slaves[j]? = some Q → Q.address ≠ 5 := by
  intro j Q hj hQ
  match j with
  | 0 => exact absurd rfl hj
  | 1 =>
    have : Q = Slave.resetOf (Config.exampleBoard 6) := by simpa [sys] using hQ.symm
    subst this
    decide
  | n + 2 => simp [sys] at hQ

/-- O25 to O29, O40: the active slave selected, in either mode, and unselected. -/
theorem witness_selected :
    ((sys sel5).slaves[(sys sel5).active]? = some sel5 ∧ sel5.selected = true ∧ sel5.mode = .app) ∧
    ((sys boot5).slaves[(sys boot5).active]? = some boot5 ∧ boot5.selected = true ∧ boot5.mode = .boot) ∧
    (sys slave5).slaves[(sys slave5).active]? = some slave5 ∧ slave5.selected = false := by decide

/-- O25: the queue holds the echo alone, and a word before it. -/
theorem witness_DeselectRepliesNack : sel5.rx ++ [0x000] = 0x000 :: [] ∧
    ({ sel5 with rx := [0x105] } : Slave).rx ++ [0x000] = 0x105 :: [0x000] := by decide

/-- O26, O27: the descriptor's length, its last byte, and past the end. -/
theorem witness_IdentityCommandsReply : sel5.board.desc.length ≤ 255 ∧
    ({ sel5 with idCursor := 9 } : Slave).board.desc[9]? = some 0x43 ∧ sel5.board.desc.length ≤ 10 := by decide

/-- O28: the phases of the handshake, with its own address, an unused one (`witness_addr_alone`), one in use, and a different
confirmation. -/
theorem witness_AddressSetDoubleConfirms :
    (let S : Slave := { sel5 with phase := .asProposal }
     (sys S).slaves[(sys S).active]? = some S ∧ S.phase = .asProposal) ∧
    (let S : Slave := { sel5 with phase := .asConfirm 5 }
     (sys S).slaves[(sys S).active]? = some S ∧ S.phase = .asConfirm 5 ∧ 5 = S.address) ∧
    (let S : Slave := { sel5 with phase := .asConfirm 0xFF }
     (sys S).slaves[(sys S).active]? = some S ∧ S.phase = .asConfirm 0xFF ∧ (0xFE : Byte) ≠ 0xFF ∧
       (sys S).takesUsedAddress S { S with eeprom := S.eeprom.write 0 0xFF } = false) ∧
    (let S : Slave := { sel5 with phase := .asConfirm 6 }
     (sys S).slaves[(sys S).active]? = some S ∧ S.phase = .asConfirm 6 ∧ 6 ≠ S.address ∧
       ∃ (j : Nat) (Q : Slave), j ≠ (sys S).active ∧ (sys S).slaves[j]? = some Q ∧ Q.address = 6) :=
  ⟨by decide, by decide, by decide, by decide, by decide, by decide, 1, _, by decide, rfl, by decide⟩

/-- O30: a command while unselected, and a device opcode without a handler. -/
theorem witness_CommandsOutOfConditionAreIgnored :
    (slave5.selected = false ∧ Instr.dev0A.devOpcode.isSome = true) ∧
    (Instr.dev04.devOpcode = some 0x04 ∧ sel5.board.handler 0x04 = none) ∧
    Instr.dev03.devOpcode = some 0x03 ∧ boot5.mode = .boot := by decide

/-- Slave 5 with other handlers. -/
def handled (hs : List Handler) : Slave := { sel5 with board := { Config.exampleBoard 5 with appTable := hs } }

/-- O31: a handler that replies two bytes, one that replies none, one that reads operands. -/
theorem witness_DeviceHandlerReplies :
    (let h : Handler := { opcode := 0, replies := 2, operands := 0, known := [([], [1], [2, 3])] }
     (handled [h]).board.handler 0 = some h ∧ h.operands = 0 ∧ (∀ e ∈ h.known, e.2.2.length = h.replies) ∧
       (handlerFunction h 0 (handled [h]).devState).2 = 2 :: [3]) ∧
    (let h : Handler := { opcode := 0x0A, replies := 0, operands := 0, known := [] }
     (handled [h]).board.handler 0x0A = some h ∧ h.operands = 0 ∧ (handlerFunction h 0 (handled [h]).devState).2 = []) ∧
    (let h : Handler := { opcode := 0, replies := 0, operands := 1, known := [] }
     (handled [h]).board.handler 0 = some h ∧ h.operands ≠ 0) ∧
    (∀ hs, (sys (handled hs)).slaves[(sys (handled hs)).active]? = some (handled hs) ∧ (handled hs).selected = true ∧
      (handled hs).mode = .app) :=
  ⟨⟨rfl, rfl, by decide, rfl⟩, ⟨rfl, rfl, rfl⟩, ⟨rfl, by decide⟩, fun _ => ⟨rfl, rfl, rfl⟩⟩

/-- O32: 0x0B, 0xF9 and an unregistered 0x04 in `App`; 0x00 and 0x03 in `Boot`. -/
theorem witness_UnregisteredOpcodeIsIgnored (d : Byte) :
    (let S : Slave := { sel5 with rx := [Word.data d] }
     (sys S [.slave 0]).SlaveNext 0 S [] ∧ S.phase = .main ∧ S.addressPending = false ∧ S.selected = true ∧
       S.rx = Word.data d :: [] ∧ S.mode = .app) ∧
    (let S : Slave := { boot5 with rx := [Word.data d] }
     (sys S [.slave 0]).SlaveNext 0 S [] ∧ S.phase = .main ∧ S.addressPending = false ∧ S.selected = true ∧
       S.rx = Word.data d :: [] ∧ S.mode = .boot) ∧
    0x0A < (0x0B : Byte).toNat ∧ (0xF9 : Byte).toNat < 0xFA ∧ sel5.board.handler 0x04 = none ∧ (0x03 : Byte) ≠ 0x02 :=
  ⟨⟨sys_next _ _, rfl, rfl, rfl, rfl, rfl⟩, ⟨sys_next _ _, rfl, rfl, rfl, rfl, rfl⟩, by decide, by decide, by decide, by decide⟩

/-- O33, O38, O39, O42: the first and last page of each region, and a page in none. -/
theorem witness_classes :
    let c := fun a => boot5.board.classify (boot5.board.pageBase a)
    c 0 = some .appArea ∧ c 0x1BFF = some .appArea ∧ c 0x1C00 = some .bootloaderArea ∧ c 0x1FFF = some .bootloaderArea ∧
    c 0x2000 = none ∧ c 0xFFFF = none ∧ c 0x10000 = some .eepromArea ∧ c 0x101FF = some .eepromArea ∧ c 0x10200 = none := by decide

/-- O34: an EEPROM address in the middle of its page. -/
theorem witness_PagesAreWholeInTheMap : (Config.exampleBoard 5).classify 0x101FF = some .eepromArea := by decide

theorem app_page_ok : (pageOf .appArea 0x40 63 0xAA true).Ok boot5.board := ⟨by decide, by decide, by decide, by decide⟩
theorem eeprom_page_ok : (pageOf .eepromArea 0x10000 0 0xAA true).Ok boot5.board := ⟨by decide, by decide, by decide, by decide⟩

/-- O35, O36: the cursor on the last byte of an application page; an EEPROM page. -/
theorem witness_GetAndSetByteMoveTheCursor :
    (let S : Slave := { boot5 with page := some (pageOf .appArea 0x40 63 0xAA true) }
     S.page = some (pageOf .appArea 0x40 63 0xAA true) ∧ (pageOf .appArea 0x40 63 0xAA true).Ok S.board) ∧
    (let S : Slave := { boot5 with page := some (pageOf .eepromArea 0x10000 0 0xAA true) }
     S.page = some (pageOf .eepromArea 0x10000 0 0xAA true) ∧ (pageOf .eepromArea 0x10000 0 0xAA true).Ok S.board) :=
  ⟨⟨rfl, app_page_ok⟩, rfl, eeprom_page_ok⟩

/-- O37. -/
theorem witness_FlashWordsAreLittleEndian : ([0x34, 0x12, 0x78, 0x56] : List Byte).length % 2 = 0 ∧
    ([0x34, 0x12, 0x78, 0x56] : List Byte)[2 * 1]? = some 0x78 ∧ ([0x34, 0x12, 0x78, 0x56] : List Byte)[2 * 1 + 1]? = some 0x56 := by
  decide

/-- O38: a whole page of bytes. -/
theorem witness_CommittedBytesReadBack : (List.replicate 64 (1 : Byte)).length ≤ boot5.board.pageSize := by decide

/-- O41 to O44: each phase of a buffer command, with its page. -/
theorem witness_buffer_phases :
    (let S : Slave := { boot5 with phase := .bufAddr .rd 2 0xFFFF }
     (sys S).slaves[(sys S).active]? = some S ∧ S.phase = .bufAddr .rd 2 0xFFFF) ∧
    (let S : Slave := { boot5 with phase := .bufAddr .rd 1 0xFF }
     (sys S).slaves[(sys S).active]? = some S ∧ S.phase = .bufAddr .rd 1 0xFF) ∧
    (let S : Slave := { boot5 with phase := .bufCount .wr 0x1BFF }
     (sys S).slaves[(sys S).active]? = some S ∧ S.phase = .bufCount .wr 0x1BFF) ∧
    (let S : Slave := { boot5 with phase := .rdDummy 1, page := some (pageOf .appArea 0x40 63 0xAA true) }
     (sys S).slaves[(sys S).active]? = some S ∧ S.phase = .rdDummy 1 ∧ S.page = some (pageOf .appArea 0x40 63 0xAA true) ∧
       (pageOf .appArea 0x40 63 0xAA true).Ok S.board) ∧
    (let S : Slave := { boot5 with phase := .wrByte 256, page := some (pageOf .appArea 0x40 63 0xAA true) }
     (sys S).slaves[(sys S).active]? = some S ∧ S.phase = .wrByte 256 ∧ S.page = some (pageOf .appArea 0x40 63 0xAA true)) :=
  ⟨⟨rfl, rfl⟩, ⟨rfl, rfl⟩, ⟨rfl, rfl⟩, ⟨rfl, rfl, rfl, app_page_ok⟩, rfl, rfl, rfl⟩

/-- O46: a latched half and none. -/
theorem witness_LinkHalvesTransmitOneWord :
    (linked .reset).link.hiLatch = none ∧ (linked { Link.reset with hiLatch := some 0x1F }).link.hiLatch = some 0x1F := by decide

/-- O48: `ADDR 0xFF` on the link. -/
theorem witness_SentWordReachesTheBus :
    let s := linked { Link.reset with h2x := [(enc2 0x1FF).1, (enc2 0x1FF).2, 0xB0] } [.link, .link]
    s.agenda = .link :: .link :: [] ∧ s.link.fault = false ∧ s.link.hiLatch = none ∧
      s.link.h2x = (enc2 0x1FF).1 :: (enc2 0x1FF).2 :: [0xB0] := by decide

/-- O49: counts 0, 5 and 6; the first and the last payload byte; a ring with room for one word, and a full one. -/
theorem witness_DrainBytesFillTheRing :
    (host (selecting .header) [] 1).master.phase = .recv (.select 5) 0 [] false .header ∧ 5 < (6 : BitVec 3).toNat ∧
    0 < (5 : BitVec 3).toNat ∧ (5 : BitVec 3).toNat ≤ 5 ∧
    (host (selecting (.payload 0 5 0)) (List.replicate 15 0) 1).master.phase = .recv (.select 5) 0 [] false (.payload 0 5 0) ∧
    0 + 1 < 5 ∧ (host (selecting (.payload 0 5 0)) (List.replicate 15 0) 1).master.ring.length < 16 ∧
    (host (selecting (.payload 0 5 4)) [] 1).master.phase = .recv (.select 5) 0 [] false (.payload 0 5 4) ∧ 5 ≤ 4 + 1 ∧
    16 ≤ (host (selecting (.payload 0 5 4)) (List.replicate 16 0) 1).master.ring.length := by decide

/-- O50: five words. -/
theorem witness_DrainResponseReachesTheRing :
    let ws : List Word := [0x1FF, 0x000, 0x1AA, 0x055, 0x100]
    let s := { host (selecting .header) [] 1 (List.replicate 6 .master) with link := { Link.reset with x2h := encDrain ws } }
    ws.length ≤ 5 ∧ s.master.ring = [] ∧ s.master.phase = .recv (.select 5) 0 [] false .header ∧ s.link.x2h = encDrain ws ++ [] ∧
      s.agenda = List.replicate (ws.length + 1) .master ++ [] := by decide

/-- O51: counts 0 and 257, the first address that does not fit, a list that is too short. -/
theorem witness_BadArgumentsSendNothing (call : Call) :
    ((asked call).agenda = .master :: [] ∧ (asked call).master.phase = .idle ∧ (asked call).calls = call :: []) ∧
    256 < 257 ∧ 2 ^ 24 ≤ (0x01000000 : BitVec 32).toNat ∧ (0x00FFFFFF : BitVec 32).toNat < 2 ^ 24 ∧ ([] : List Byte).length ≠ 256 :=
  ⟨⟨rfl, rfl, rfl⟩, by decide⟩

/-- O53: the largest transfer, at the last wire address. -/
theorem witness_BufferOperationsExchange :
    1 ≤ 256 ∧ 256 ≤ 256 ∧ (0x00FFFFFF : BitVec 32).toNat < 2 ^ 24 ∧ (List.replicate 256 (0 : Byte)).length = 256 := by
  exact ⟨by decide, by decide, by decide, List.length_replicate ..⟩

/-- O52: each operation, at the largest transfer too; and a receive on its own. -/
theorem witness_OperationsBeginWithSelect (call : Call) :
    ((asked call).agenda = .master :: [] ∧ (asked call).master.phase = .idle ∧ (asked call).calls = call :: [] ∧
      (asked call).master.ring = []) ∧
    1 ≤ 256 ∧ 256 ≤ 256 ∧ (0x00FFFFFF : BitVec 32).toNat < 2 ^ 24 := ⟨⟨rfl, rfl, rfl, rfl⟩, by decide⟩

/-- O54: no word, and two echoes of three. -/
theorem witness_MasterDiscardsItsOwnEchoes :
    ([] : List Word).length ≤ (host .idle [] 0).master.pendingEchoDiscards ∧
    ([0x105, 0x0FB] : List Word).length ≤ (host .idle [] 3).master.pendingEchoDiscards := by decide

/-- O55, O56: behind one echo, an address word, a wrong value and the right one, as the reply of `select`; any word, as that of
`host_recv`. -/
theorem witness_replies :
    ([0x105] : List Word).length = (host .idle [] 1).master.pendingEchoDiscards ∧
    (Call.select 5).exchanges[0]? = some { send := some 0x105, check := .expect 0x0A5 } ∧ (Call.select 5).exchanges[1]? = none ∧
    Check.expect 0x0A5 ≠ .word ∧ Word.isAddress 0x106 = true ∧ Word.isAddress 0x0A5 = false ∧ (0x000 : Word) ≠ 0x0A5 := by decide

/-- O56: a reply after which a word is sent, and the last reply of each operation. -/
theorem witness_GoodReplyGoesOn :
    ((Call.checkSlave 5).exchanges[0]? = some { send := some 0x105, check := .expect 0x0A5 } ∧
      (Call.checkSlave 5).exchanges[1]? = some { send := some 0x0FB, check := .expect 0x0A5 } ∧
      (Call.checkSlave 5).exchanges[2]? = none) ∧
    ((Call.readBuffer 5 0 1).exchanges[6]? = some { send := some 0x000, check := .data } ∧
      (Call.readBuffer 5 0 1).exchanges[7]? = none) ∧
    ((Call.writeBuffer 5 0 1 [9]).exchanges[6]? = some { send := some 0x009, check := .expect 0x009 } ∧
      (Call.writeBuffer 5 0 1 [9]).exchanges[7]? = none) ∧
    ((Call.expect 0x0A5).exchanges[0]? = some { send := none, check := .expect 0x0A5 } ∧
      (Call.expect 0x0A5).exchanges[1]? = none) ∧
    (Call.expectData.exchanges[0]? = some { send := none, check := .data } ∧ Call.expectData.exchanges[1]? = none) ∧
    (asked (.hostSend 0x1FF)).agenda = .master :: [] ∧ (asked (.hostSend 0x1FF)).master.phase = .idle ∧
    (asked (.hostSend 0x1FF)).calls = .hostSend 0x1FF :: [] := by decide

/-- O57: a header and a payload byte, not there and there; a start; and the sleep. -/
theorem witness_MasterTimesOutOrWakes :
    (let s := host (selecting (.payload 0 5 4)) [] 1 [.masterTimeout]
     s.agenda = .masterTimeout :: [] ∧ s.master.phase = .recv (.select 5) 0 [] false (.payload 0 5 4) ∧ s.link.x2h = []) ∧
    (let s := { host (selecting .header) [] 1 [.masterTimeout] with link := { Link.reset with x2h := [0] } }
     s.agenda = .masterTimeout :: [] ∧ s.master.phase = .recv (.select 5) 0 [] false .header ∧ s.link.x2h ≠ []) ∧
    (let s := { asked (.checkSlave 5) with agenda := [.masterTimeout] }
     s.agenda = .masterTimeout :: [] ∧ s.master.phase = .idle ∧ s.calls = .checkSlave 5 :: [] ∧
       (Call.checkSlave 5).argError = none ∧ (Call.checkSlave 5).lengthOk = true ∧
       (Call.checkSlave 5).exchanges[0]? = some { send := some 0x105, check := .expect 0x0A5 }) ∧
    (let s := host (.sleep (.checkSlave 5)) [] 0 [.master]
     s.agenda = .master :: [] ∧ s.master.phase = .sleep (.checkSlave 5)) := by decide

/-- O58, O59, O60: each shape of instruction reaches a next state. -/
theorem witness_frames :
    (∃ t, exec (.addr 5) (sys slave5) = .next t) ∧ (∃ t, exec .wrBuf (sys boot5) = .next t) ∧
    (∃ t, exec .dev03 (sys sel5) = .next t) ∧ (∃ t, exec .nack (sys sel5) = .next t) ∧
    (∃ t, exec (.data 9) (sys { sel5 with phase := .asConfirm 9 }) = .next t) ∧
    (∃ t, exec (.data 9) (sys { boot5 with phase := .bufCount .wr 0 }) = .next t) ∧
    (∃ t, exec (.linkLo 5) (linked { Link.reset with hiLatch := some 0x10 }) = .next t) ∧
    (∃ t, exec .linkDrain (linked .reset) = .next t) ∧
    (∃ t, exec (.drainHdr 0 7) (host (selecting .header) [] 1) = .next t) ∧
    (∃ t, exec (.drainPayload 5) (host (selecting (.payload 1 1 0)) [] 1) = .next t) :=
  ⟨⟨_, rfl⟩, ⟨_, rfl⟩, ⟨_, rfl⟩, ⟨_, rfl⟩, ⟨_, rfl⟩, ⟨_, rfl⟩, ⟨_, rfl⟩, ⟨_, rfl⟩, ⟨_, rfl⟩, _, rfl⟩

end Sys2Proof.Tests
end

section
/-! The decoder at each position, one equation per branch of R102's decision list; and the sixteen codes of the spec's tables,
each read by the equation of its branch. -/

namespace Sys2Proof

/-! ## The main loop -/

@[simp] theorem decode_mainLoop_address (sel : Bool) (mode : Mode) (reg : List Byte) (a : Byte) :
    decode (.mainLoop sel mode reg) (.word (Word.address a)) = .ok (.addr a) := by
  simp [decode, decodeMain]

@[simp] theorem decode_mainLoop_unselected (mode : Mode) (reg : List Byte) (d : Byte) :
    decode (.mainLoop false mode reg) (.word (Word.data d)) = .ok (.dataUnselected d) := by
  simp [decode, decodeMain]

theorem decode_mainLoop_universal (mode : Mode) (reg : List Byte) {d : Byte} {i : Instr}
    (h : decodeUniversal d = some i) : decode (.mainLoop true mode reg) (.word (Word.data d)) = .ok i := by
  simp [decode, decodeMain, h]

theorem decode_mainLoop_image {mode : Mode} {reg : List Byte} {d : Byte} {i : Instr} (hu : d.toNat < 0xFA)
    (h : decodeImage mode reg d = some i) : decode (.mainLoop true mode reg) (.word (Word.data d)) = .ok i := by
  simp [decode, decodeMain, decodeUniversal_none hu, h]

theorem decode_mainLoop_unregistered {mode : Mode} {reg : List Byte} {d : Byte} (hu : d.toNat < 0xFA)
    (h : decodeImage mode reg d = none) :
    decode (.mainLoop true mode reg) (.word (Word.data d)) = .ok (.unregistered d) := by
  simp [decode, decodeMain, decodeUniversal_none hu, h]

/-! ## Operands and replies -/

@[simp] theorem decode_operand_data (d : Byte) : decode .operand (.word (Word.data d)) = .ok (.data d) := by
  simp [decode]

@[simp] theorem decode_operand_address (a : Byte) :
    decode .operand (.word (Word.address a)) = .error .addressWhereData := by
  simp [decode]

@[simp] theorem decode_reply_ack : decode .reply (.word Word.ack) = .ok .ack := by
  simp [decode, Word.ack_eq]

/-! ## The host link -/

/-- Either half of a word keeps its bits below the prefix that names it (R83); the 32 and 16 values are checked one by one. -/
theorem decode_link_hi (h : BitVec 5) : decode .link (.byte (0x80 ||| h.setWidth 8)) = .ok (.linkHi h) :=
  congrArg Except.ok (by revert h; decide : decodeLink (0x80 ||| h.setWidth 8) = .linkHi h)

theorem decode_link_lo (l : BitVec 4) : decode .link (.byte (0xA0 ||| l.setWidth 8)) = .ok (.linkLo l) :=
  congrArg Except.ok (by revert l; decide : decodeLink (0xA0 ||| l.setWidth 8) = .linkLo l)

theorem decode_link_drain : decode .link (.byte 0xB0) = .ok .linkDrain := rfl

/-- A byte of none of the three defined forms (R99): what `Instr.wf` asks of a reserved byte. -/
theorem decode_link_reserved {b : Byte} (h : (Instr.linkReserved b).wf = true) :
    decode .link (.byte b) = .ok (.linkReserved b) :=
  congrArg Except.ok (by revert b; decide : decodeLink b = .linkReserved b)

theorem decode_drainHeader (m : BitVec 5) (c : Nat) (h : c ≤ 5) :
    decode .drainHeader (.byte ((m.setWidth 8 <<< 3) ||| BitVec.ofNat 8 c)) = .ok (.drainHdr m (BitVec.ofNat 3 c)) :=
  congrArg Except.ok (decodeHeader_markerOf m c h)

/-- Settles O4: each code is an address word, a data word, a link byte or a header with its field written out, and the equation of
that branch of the decoder reads it. -/
theorem tableWordsDecode : Obligations.TableWordsDecode := by
  unfold Obligations.TableWordsDecode
  refine ⟨?addr, ?dataUnselected, ?deselect, ?addrSet, ?rdBuf, ?wrBuf, ?dev01, ?unregistered, ?data, ?addressWhereData,
    ?ack, ?linkHi, ?linkLo, ?linkDrain, ?linkReserved, ?drainHdr⟩
  case addr => exact fun sel mode reg => decode_mainLoop_address sel mode reg 5
  case dataUnselected => exact fun mode reg => decode_mainLoop_unselected mode reg 0xFE
  case deselect => exact fun mode reg => decode_mainLoop_universal mode reg (d := 0xFF) rfl
  case addrSet => exact fun mode reg => decode_mainLoop_universal mode reg (d := 0xFC) rfl
  case rdBuf => exact fun reg => decode_mainLoop_image (d := 1) (by decide) rfl
  case wrBuf => exact fun reg => decode_mainLoop_image (d := 2) (by decide) rfl
  case dev01 => exact decode_mainLoop_image (d := 1) (by decide) rfl
  case unregistered => exact fun reg => decode_mainLoop_unregistered (d := 3) (by decide) rfl
  case data => exact decode_operand_data 0xFF
  case addressWhereData => exact decode_operand_address 6
  case ack => exact decode_reply_ack
  case linkHi => exact decode_link_hi 0x10
  case linkLo => exact decode_link_lo 0x5
  case linkDrain => exact decode_link_drain
  case linkReserved => exact decode_link_reserved (by decide)
  case drainHdr => exact decode_drainHeader 0b00010 2 (by decide)

end Sys2Proof
end

section
/-! A slave's step when it answers alone: in the main loop the meaning of the word it takes, after a reply the discard of the echo
and its continuation; and the two rules of the selection that rest on them, R145 and R146. -/

namespace Sys2Proof.Machine

/-! ## Steps of a slave that answers alone -/

theorem State.putSlave_putSlave (s : State) (S S' : Slave) : (s.putSlave S).putSlave S' = s.putSlave S' := by
  simp [State.putSlave]

theorem State.SlaveNext.collides_eq_false {s : State} {k : Nat} {S : Slave} {ts : List Turn} (h : s.SlaveNext k S ts) :
    State.collides { s with agenda := ts } k S = false :=
  Machine.collides_eq_false.2 h.alone

/-- The step of the slave that is next is what its turn fetches with the turn taken from the agenda. -/
theorem step_slaveNext {s : State} {k : Nat} {S : Slave} {ts : List Turn} {f : Fetched} (h : s.SlaveNext k S ts)
    (hf : fetchSlave k { s with agenda := ts } = f) : step s = f.result :=
  (step_of_agenda h.turn).trans (congrArg Fetched.result hf)

/-- The main loop runs what its oldest word decodes to (R141). -/
theorem step_main {s : State} {k : Nat} {S : Slave} {ts : List Turn} {w : Word} {ws : List Word} {i : Instr}
    (h : s.SlaveNext k S ts) (hp : S.phase = .main) (ha : S.addressPending = false) (hr : S.rx = w :: ws)
    (hd : decode S.mainPosition (.word w) = .ok i) :
    step s = exec i ((s.turnOf k ts).putSlave
      { S with rx := ws, heldAddr := if w.isAddress then w.payload else S.heldAddr }) := by
  have hi : decodeMain S.selected S.mode S.board.registered w = i := Except.ok.inj hd
  subst hi
  exact step_slaveNext h (fetchSlave_main h.slave_eq h.collides_eq_false hp (Slave.takeMain_rx ha hr))

/-- The echo discard takes the oldest word whatever it is, and goes on with the continuation (R113). -/
theorem step_echo {s : State} {k : Nat} {S S' : Slave} {ts : List Turn} {w : Word} {c : Cont}
    (h : s.SlaveNext k S ts) (hp : S.phase = .echo c) (hr : S.recv = some (w, S')) :
    step s = runCont c S' ((s.turnOf k ts).putSlave S') :=
  step_slaveNext h (fetchSlave_echo h.slave_eq h.collides_eq_false hp hr)

/-- A continuation that only goes on to the next receive sets the phase (R30). -/
theorem runCont_resume {c : Cont} {ph : Phase} (h : c.resume = some ph) (S : Slave) (s : State) :
    runCont c S s = .next (s.putSlave { S with phase := ph }) := by
  cases c <;> cases h <;> rfl

/-- The echo discard before such a continuation changes the slave alone: it loses its oldest word, notes an address word, and waits
where the continuation leads. -/
theorem step_echo_resume {s : State} {k : Nat} {S : Slave} {ts : List Turn} {w : Word} {ws : List Word} {c : Cont} {ph : Phase}
    (h : s.SlaveNext k S ts) (hp : S.phase = .echo c) (hr : S.rx = w :: ws) (hph : c.resume = some ph) :
    ∃ t, step s = .next t ∧ OnlySlave (s.turnOf k ts) t k
      { S with
        rx := ws
        addressPending := w.isAddress || S.addressPending
        heldAddr := if w.isAddress then w.payload else S.heldAddr
        phase := ph } := by
  rw [step_echo h hp (Slave.recv_cons hr), runCont_resume hph, State.putSlave_putSlave]
  exact ⟨_, rfl, onlySlave_putSlave (s := s.turnOf k ts) h.slave_eq _⟩

/-! ## A data word while Unselected -/

/-- Settles O14: the word decodes as `DATA_UNSELECTED`, whose meaning is to do nothing, so that taking it is the whole step. -/
theorem unselectedSlaveIgnoresDataWords : Obligations.UnselectedSlaveIgnoresDataWords := by
  intro s k S ts d ws hnext hphase hpend hsel hrx
  have hdec : decode S.mainPosition (.word (Word.data d)) = .ok (.dataUnselected d) := by
    rw [Slave.mainPosition, hsel, decode_mainLoop_unselected]
  have hstep := step_main hnext hphase hpend hrx hdec
  rw [Word.isAddress_data] at hstep
  exact ⟨rfl, _, hstep, onlySlave_putSlave (s := s.turnOf k ts) hnext.slave_eq _⟩

/-! ## `DESELECT` -/

theorem exec_deselect_selected {s : State} {S : Slave} (h : s.slaves[s.active]? = some S) (hsel : S.selected = true) :
    exec .deselect s = .next (s.reply (S.setSelected false) Word.nack .toMain) :=
  (whenSelected_some h _).trans (if_pos hsel)

/-- After its reply the sender, with the word at the end of its own queue, takes the next turn on the agenda; unselected, it answers
alone. -/
theorem slaveNext_of_transmits {s t : State} {k : Nat} {S : Slave} {w : Word} (h : Transmits s t k S w)
    (hsel : S.selected = false) (ts : List Turn) :
    State.SlaveNext { t with agenda := .slave k :: ts } k { S with rx := S.rx ++ [w] } ts where
  turn := rfl
  slave_eq := h.slave_eq
  alone hs := absurd (hsel.symm.trans hs) Bool.false_ne_true

/-- Settles O25: the reply leaves the slave unselected in phase Echo, and the echo discard of `reply` does not ask whether it is
selected. -/
theorem deselectRepliesNack : Obligations.DeselectRepliesNack := by
  intro s S hS
  refine ⟨fun mode reg => decode_mainLoop_universal mode reg (d := 0xFF) rfl, fun hsel => ?_,
    fun mode reg => decode_mainLoop_unselected mode reg 0xFF, rfl⟩
  have htx := transmits_reply hS (S.setSelected false) Word.nack .toMain
  refine ⟨_, exec_deselect_selected hS hsel, htx, fun ts w ws hrx => ?_⟩
  exact step_echo_resume (slaveNext_of_transmits htx rfl ts) rfl hrx rfl

end Sys2Proof.Machine
end

section
/-! Identity streaming (R160 to R162): the three replies of the identity commands, then the whole stream, by induction on the
descriptor bytes that are still ahead of the cursor. -/

namespace Sys2Proof

/-- A descriptor of at most 255 bytes (R23) has a length that one data word holds. -/
theorem Word.toNat_data_ofNat {n : Nat} (h : n ≤ 255) : (Word.data (BitVec.ofNat 8 n)).toNat = n := by
  simp only [Word.data, BitVec.toNat_setWidth, BitVec.toNat_ofNat]
  omega

end Sys2Proof

namespace Sys2Proof.Machine

/-! ## What an identity command replies -/

theorem exec_idStart_selected {s : State} {S : Slave} (h : s.slaves[s.active]? = some S) (hsel : S.selected = true) :
    exec .idStart s =
      .next (s.reply { S with idCursor := 0 } (Word.data (BitVec.ofNat 8 S.board.desc.length)) .toMain) :=
  (whenSelected_some h _).trans (if_pos hsel)

theorem exec_idNext_byte {s : State} {S : Slave} {b : Byte} (h : s.slaves[s.active]? = some S) (hsel : S.selected = true)
    (hb : S.board.desc[S.idCursor]? = some b) :
    exec .idNext s = .next (s.reply { S with idCursor := S.idCursor + 1 } (Word.data b) .toMain) :=
  (whenSelected_some h _).trans (by rw [if_pos hsel, hb])

theorem exec_idNext_pastEnd {s : State} {S : Slave} (h : s.slaves[s.active]? = some S) (hsel : S.selected = true)
    (hend : S.board.desc.length ≤ S.idCursor) :
    exec .idNext s = .next (s.reply S Word.sentinel .toMain) :=
  (whenSelected_some h _).trans (by rw [if_pos hsel, List.getElem?_eq_none hend])

/-- Settles O26: each clause is the reply of its branch, and a reply is one transmission. -/
theorem identityCommandsReply : Obligations.IdentityCommandsReply := by
  intro s S hS hsel hlen
  refine ⟨fun mode reg => ⟨?decStart, ?decNext⟩, ?start, fun b hb => ?byte, fun hend => ?pastEnd⟩
  case decStart => exact decode_mainLoop_universal mode reg (d := 0xFE) rfl
  case decNext => exact decode_mainLoop_universal mode reg (d := 0xFD) rfl
  case start =>
    exact ⟨_, _, exec_idStart_selected hS hsel, Word.toNat_data_ofNat hlen, transmits_reply hS _ _ _⟩
  case byte => exact ⟨_, exec_idNext_byte hS hsel hb, transmits_reply hS _ _ _⟩
  case pastEnd => exact ⟨_, exec_idNext_pastEnd hS hsel hend, transmits_reply hS _ _ _⟩

/-! ## The stream -/

theorem idNextTimes_succ {s t : State} (h : exec .idNext s = .next t) (n : Nat) :
    idNextTimes (n + 1) s = idNextTimes n t := by
  rw [idNextTimes, h]

/-- While the bytes `bs` are ahead of the cursor, as many `ID_NEXT` put them into the slave's queue in order and move the cursor past
them; the slave stays selected, so that the next one goes on. -/
theorem idNextTimes_descriptor {bs : List Byte} {s : State} {S : Slave} (h : s.slaves[s.active]? = some S)
    (hsel : S.selected = true) (hbs : S.board.desc.drop S.idCursor = bs) :
    ∃ t T, idNextTimes bs.length s = .next t ∧ t.active = s.active ∧ t.slaves[t.active]? = some T ∧
      T.selected = true ∧ T.board = S.board ∧ T.rx = S.rx ++ bs.map Word.data ∧ T.idCursor = S.idCursor + bs.length := by
  induction bs generalizing s S with
  | nil => exact ⟨s, S, rfl, rfl, h, hsel, rfl, (List.append_nil _).symm, rfl⟩
  | cons b bs ih =>
    have hb : S.board.desc[S.idCursor]? = some b := by
      rw [← List.head?_drop, hbs, List.head?_cons]
    have hrest : S.board.desc.drop (S.idCursor + 1) = bs := by
      rw [← List.tail_drop, hbs, List.tail_cons]
    have hreply := (transmits_reply h { S with idCursor := S.idCursor + 1 } (Word.data b) .toMain).slave_eq
    obtain ⟨t, T, hrun, hact, hT, hTsel, hboard, hrx, hcur⟩ := ih hreply hsel hrest
    refine ⟨t, T, (idNextTimes_succ (exec_idNext_byte h hsel hb) _).trans hrun, hact, hT, hTsel, hboard, ?rx, ?cursor⟩
    case rx => exact hrx.trans (List.append_assoc _ _ _)
    case cursor => exact hcur.trans (Nat.succ_add_eq_add_succ _ _)

/-- Settles O27: `ID_START` puts the cursor before the whole descriptor, the stream takes it past the end, and there `ID_NEXT` replies
the sentinel. -/
theorem idStreamReturnsDescriptor : Obligations.IdStreamReturnsDescriptor := by
  intro s S hS hsel hlen
  have hstart := (transmits_reply hS { S with idCursor := 0 }
    (Word.data (BitVec.ofNat 8 S.board.desc.length)) .toMain).slave_eq
  obtain ⟨u, T, hrun, hact, hT, hTsel, hboard, hrx, hcur⟩ := idNextTimes_descriptor hstart hsel List.drop_zero
  have hcur : T.idCursor = S.board.desc.length := hcur.trans (Nat.zero_add _)
  have hend := exec_idNext_pastEnd hT hTsel (by rw [hboard, hcur])
  have hlast := (transmits_reply hT T Word.sentinel .toMain).slave_eq
  rw [hact] at hlast
  exact ⟨_, u, _, _, _, exec_idStart_selected hS hsel, hrun, hend, hlast, Word.toNat_data_ofNat hlen,
    congrArg (· ++ [0x000]) hrx, hcur⟩

end Sys2Proof.Machine
end

section
/-! The dispatcher's fallback (R185): which opcodes the table of the running image lacks, and the step of a slave that takes a data
word without a meaning. -/

namespace Sys2Proof

/-! ## Opcodes the running image lacks -/

theorem Board.handler_eq_none_iff {b : Board} {d : Byte} : b.handler d = none ↔ d ∉ b.registered := by
  simp [Board.handler, Board.registered]

theorem decodeImage_app_not_registered {reg : List Byte} {d : Byte} (h : d ∉ reg) : decodeImage .app reg d = none :=
  if_neg (mt List.contains_iff_mem.1 h)

/-- Above 0x0A the application image has no opcode, whatever its table lists (R94). -/
theorem decodeImage_app_above {d : Byte} (h : 0x0A < d.toNat) (reg : List Byte) : decodeImage .app reg d = none :=
  ite_eq_right_iff.2 fun _ => decodeDev_none h

theorem decodeImage_boot_none {d : Byte} (hrd : d ≠ 0x01) (hwr : d ≠ 0x02) (reg : List Byte) :
    decodeImage .boot reg d = none :=
  (if_neg hrd).trans (if_neg hwr)

end Sys2Proof

namespace Sys2Proof.Machine

/-! ## An unregistered opcode -/

/-- A data word whose meaning is to do nothing is only taken from the slave's queue. -/
theorem step_main_ignored {s : State} {k : Nat} {S : Slave} {ts : List Turn} {d : Byte} {ws : List Word} {i : Instr}
    (h : s.SlaveNext k S ts) (hp : S.phase = .main) (ha : S.addressPending = false) (hr : S.rx = Word.data d :: ws)
    (hd : decode S.mainPosition (.word (Word.data d)) = .ok i) (hi : ∀ t, exec i t = .next t) :
    ∃ t, step s = .next t ∧ OnlySlave (s.turnOf k ts) t k { S with rx := ws } := by
  rw [step_main h hp ha hr hd, hi, Word.isAddress_data]
  exact ⟨_, rfl, onlySlave_putSlave (s := s.turnOf k ts) h.slave_eq _⟩

/-- Settles O32: in either mode the table of the running image lacks the opcode, so that the word decodes as `UNREGISTERED`, whose
meaning is to do nothing. -/
theorem unregisteredOpcodeIsIgnored : Obligations.UnregisteredOpcodeIsIgnored := by
  intro s k S ts d ws hnext hphase hpend hsel hrx hlow hlacks
  have himage : decodeImage S.mode S.board.registered d = none := by
    obtain ⟨hmode, habove | hfree⟩ | ⟨hmode, hrd, hwr⟩ := hlacks <;> rw [hmode]
    · exact decodeImage_app_above habove _
    · exact decodeImage_app_not_registered (Board.handler_eq_none_iff.1 hfree)
    · exact decodeImage_boot_none hrd hwr _
  have hdec : decode S.mainPosition (.word (Word.data d)) = .ok (.unregistered d) := by
    rw [Slave.mainPosition, hsel, decode_mainLoop_unregistered hlow himage]
  exact ⟨rfl, step_main_ignored hnext hphase hpend hrx hdec fun _ => rfl⟩

end Sys2Proof.Machine
end

section
/-! The page programmer's cursor and commit (R193 to R195): where the cursor goes after a byte, what the page holds after a write, and
the two rules that rest on them. -/

namespace Sys2Proof.Machine

/-! ## The byte under the cursor -/

theorem PageBuffer.Ok.cursor_lt_length {b : Board} {p : PageBuffer} (h : p.Ok b) : p.cursor < p.bytes.length :=
  h.bytes_length ▸ h.cursor_lt

/-- Only the last cursor of a page wraps, and it wraps to 0 (R193, R194). -/
theorem PageBuffer.Ok.cursor_succ_mod {b : Board} {p : PageBuffer} (h : p.Ok b) :
    (p.cursor + 1) % b.pageSize = if p.cursor + 1 = b.pageSize then 0 else p.cursor + 1 := by
  split
  case isTrue hlast => rw [hlast, Nat.mod_self]
  case isFalse hinner => exact Nat.mod_eq_of_lt (Nat.lt_of_le_of_ne h.cursor_lt hinner)

theorem PageBuffer.Ok.getElem?_cursor {b : Board} {p : PageBuffer} (h : p.Ok b) :
    p.bytes[p.cursor]? = some (p.bytes.getD p.cursor 0) := by
  simp [h.cursor_lt_length]

/-- A write replaces the byte under the cursor and no other. -/
theorem PageBuffer.Ok.put_getElem? {b : Board} {p : PageBuffer} (h : p.Ok b) (n : Nat) (x : Byte) (i : Nat) :
    (p.put n x).bytes[i]? = if i = p.cursor then some x else p.bytes[i]? := by
  rw [PageBuffer.put_bytes]
  by_cases hi : i = p.cursor
  · rw [if_pos hi, hi, List.getElem?_set_self h.cursor_lt_length]
  · rw [if_neg hi, List.getElem?_set_ne (Ne.symm hi)]

/-- Settles O35: each operation moves the cursor modulo the page size, which on a cursor in the page is the wrap at its last byte. -/
theorem getAndSetByteMoveTheCursor : Obligations.GetAndSetByteMoveTheCursor := by
  intro S p b hpage hok
  rw [Slave.getByte_some hpage, Slave.setByte_some hpage b, ← hok.cursor_succ_mod]
  exact ⟨⟨_, hok.getElem?_cursor, rfl⟩, _, rfl, List.length_set, fun i _ => hok.put_getElem? S.board.pageSize b i⟩

/-! ## Commit -/

/-- Settles O36: the media a commit leaves are `flashAfter` and `eepromAfter`, whose bytes are known at every address. -/
theorem commitWritesBackTheDirtyPage : Obligations.CommitWritesBackTheDirtyPage := by
  intro S p hpage hok
  exact ⟨S.flashAfter p, S.eepromAfter p, Slave.commit_some hpage, Slave.flashAfter_read hok.bytes_length,
    Slave.eepromAfter_read hok.bytes_length⟩

end Sys2Proof.Machine
end

section
/-! Encoding and decoding are inverse at every position where a row applies (R92 to R102), and the host link's two formats round
trip (R84, R85, R89). -/

namespace Sys2Proof

/-! ## Decoding a code -/

/-- The rows of the universal opcodes (R93): what the condition column admits at the main loop besides an address word and the
rows of the images. -/
theorem decodeUniversal_encode {d : Byte} {i : Instr} (h : decodeUniversal d = some i) :
    encode i = .word (Word.data d) ∧ ∀ mode reg, Position.admits (.mainLoop true mode reg) i = true := by
  rcases decodeUniversal_cases h with ⟨rfl, rfl⟩ | ⟨rfl, rfl⟩ | ⟨rfl, rfl⟩ | ⟨rfl, rfl⟩ | ⟨rfl, rfl⟩ | ⟨rfl, rfl⟩ <;>
    exact ⟨rfl, fun _ _ => rfl⟩

/-- A device opcode is the code of its row (R94). -/
theorem encode_of_devOpcode {i : Instr} {d : Byte} (h : i.devOpcode = some d) : encode i = .word (Word.data d) := by
  cases i <;> cases h <;> rfl

/-- The condition of a `DEV_nn` row: selected, in `App` mode, and registered (R94, R181). -/
theorem admits_mainLoop_dev {i : Instr} {d : Byte} (h : i.devOpcode = some d) (sel : Bool) (mode : Mode) (reg : List Byte) :
    Position.admits (.mainLoop sel mode reg) i = (sel && mode == .app && reg.contains d) := by
  cases i <;> cases h <;> rfl

/-- Whatever the running image's table lists is a row of that image, with its condition (R94, R181). -/
theorem decodeImage_encode {mode : Mode} {reg : List Byte} {d : Byte} {i : Instr} (h : decodeImage mode reg d = some i) :
    encode i = .word (Word.data d) ∧ Position.admits (.mainLoop true mode reg) i = true := by
  cases mode with
  | boot => rcases decodeBoot_cases h with ⟨rfl, rfl⟩ | ⟨rfl, rfl⟩ <;> exact ⟨rfl, rfl⟩
  | app =>
    obtain ⟨hreg, hdev⟩ : reg.contains d = true ∧ decodeDev d = some i := by simpa [decodeImage] using h
    obtain ⟨hop, -⟩ := decodeDev_cases hdev
    exact ⟨encode_of_devOpcode hop, by rw [admits_mainLoop_dev hop, hreg]; rfl⟩

/-- The condition of the row `UNREGISTERED`: no table of the running image has the opcode (R185). -/
theorem admits_unregistered_iff {mode : Mode} {reg : List Byte} {d : Byte} :
    Position.admits (.mainLoop true mode reg) (.unregistered d) = true ↔ decodeImage mode reg d = none := by
  cases mode with
  | boot =>
    constructor
    · intro hadm
      obtain ⟨hrd, hwr⟩ := Bool.and_eq_true_iff.1 hadm
      exact decodeImage_boot_none (bne_iff_ne.1 hrd) (bne_iff_ne.1 hwr) reg
    · intro hnone
      have hrd : d ≠ 0x01 := fun e => by subst e; cases hnone
      have hwr : d ≠ 0x02 := fun e => by subst e; cases hnone
      exact Bool.and_eq_true_iff.2 ⟨bne_iff_ne.2 hrd, bne_iff_ne.2 hwr⟩
  | app =>
    have hdev : decodeDev d = none ↔ 0x0A < d.toNat := ⟨decodeDev_isSome, decodeDev_none⟩
    by_cases hreg : d ∈ reg <;> simp [Position.admits, decodeImage, hreg, hdev]

/-- What the main loop reads a word as encodes to that word, and its row applies (R102). -/
theorem decodeMain_encode (sel : Bool) (mode : Mode) (reg : List Byte) (w : Word) :
    encode (decodeMain sel mode reg w) = .word w ∧
      Position.admits (.mainLoop sel mode reg) (decodeMain sel mode reg w) = true := by
  cases haddr : w.isAddress with
  | true =>
    rw [decodeMain, if_pos haddr]
    exact ⟨congrArg Code.word (Word.eq_address haddr).symm, rfl⟩
  | false =>
    have hw := Word.eq_data haddr
    cases sel with
    | false =>
      simp only [decodeMain, haddr]
      exact ⟨congrArg Code.word hw.symm, rfl⟩
    | true =>
      cases huni : decodeUniversal w.payload with
      | some i =>
        obtain ⟨henc, hadm⟩ := decodeUniversal_encode huni
        simp only [decodeMain, haddr, huni]
        exact ⟨henc.trans (congrArg Code.word hw.symm), hadm mode reg⟩
      | none =>
        cases himg : decodeImage mode reg w.payload with
        | some i =>
          obtain ⟨henc, hadm⟩ := decodeImage_encode himg
          simp only [decodeMain, haddr, huni, himg]
          exact ⟨henc.trans (congrArg Code.word hw.symm), hadm⟩
        | none =>
          simp only [decodeMain, haddr, huni, himg]
          exact ⟨congrArg Code.word hw.symm, admits_unregistered_iff.2 himg⟩

/-- What `X` reads a byte as encodes to that byte; the 256 bytes are checked one by one (R83, R99). -/
theorem decodeLink_encode (b : Byte) : encode (decodeLink b) = .byte b ∧ Position.link.admits (decodeLink b) = true := by
  revert b; decide

/-- A header byte is its marker above its count (R86). -/
theorem decodeHeader_encode (b : Byte) : encode (decodeHeader b) = .byte b := by
  revert b; decide

/-- A word read at a reply position encodes to that word (R96). -/
theorem decode_reply_encode {w : Word} {i : Instr} (h : decode .reply (.word w) = .ok i) :
    encode i = .word w ∧ Position.reply.admits i = true := by
  cases haddr : w.isAddress with
  | true => simp [decode, haddr] at h
  | false =>
    have hw := Word.eq_data haddr
    simp only [decode, haddr] at h
    by_cases hack : w = Word.ack
    · subst hack; cases h; exact ⟨rfl, rfl⟩
    · by_cases hnack : w = Word.nack
      · subst hnack; cases h; exact ⟨rfl, rfl⟩
      · rw [if_neg Bool.false_ne_true, if_neg hack, if_neg hnack] at h
        cases h
        refine ⟨congrArg Code.word hw.symm, ?_⟩
        have h1 : w.payload ≠ 0xA5 := fun e => hack (by rw [hw, e, Word.ack_eq])
        have h2 : w.payload ≠ 0x00 := fun e => hnack (by rw [hw, e, Word.nack_eq])
        exact Bool.and_eq_true_iff.2 ⟨bne_iff_ne.2 h1, bne_iff_ne.2 h2⟩

/-- Settles O2: at each position the decoder's branch names the row whose code the word or byte is. -/
theorem encodeOfDecodeIsIdentity : Obligations.EncodeOfDecodeIsIdentity := by
  intro p c i h
  cases p <;> cases c
  case mainLoop.word sel mode reg w => cases h; exact decodeMain_encode sel mode reg w
  case operand.word w =>
    cases haddr : w.isAddress with
    | true => simp [decode, haddr] at h
    | false =>
      simp only [decode, haddr] at h
      cases h
      exact ⟨congrArg Code.word (Word.eq_data haddr).symm, rfl⟩
  case reply.word w => exact decode_reply_encode h
  case link.byte b => cases h; exact decodeLink_encode b
  case drainHeader.byte b => cases h; exact ⟨decodeHeader_encode b, rfl⟩
  case drainPayload.byte b => cases h; exact ⟨rfl, rfl⟩
  all_goals cases h

/-! ## Encoding, then decoding -/

/-- No bootloader or application opcode is universal (R94, R95). -/
theorem decode_mainLoop_of_devOpcode {i : Instr} {d : Byte} (h : i.devOpcode = some d) {reg : List Byte} (hreg : d ∈ reg) :
    decode (.mainLoop true .app reg) (encode i) = .ok i := by
  have hdev := decodeDev_devOpcode h
  have hle := (decodeDev_cases hdev).2
  rw [encode_of_devOpcode h]
  exact decode_mainLoop_image (by omega) (by simp [decodeImage, hreg, hdev])

/-- At the main loop (R102), in the order of its decision list. -/
theorem decode_encode_mainLoop {sel : Bool} {mode : Mode} {reg : List Byte} {i : Instr} (hwf : i.wf = true)
    (hadm : Position.admits (.mainLoop sel mode reg) i = true) : decode (.mainLoop sel mode reg) (encode i) = .ok i := by
  cases hdev : i.devOpcode with
  | some d =>
    rw [admits_mainLoop_dev hdev] at hadm
    simp only [Bool.and_eq_true, beq_iff_eq, List.contains_iff_mem] at hadm
    obtain ⟨⟨rfl, rfl⟩, hreg⟩ := hadm
    exact decode_mainLoop_of_devOpcode hdev hreg
  | none =>
    cases i <;> simp only [Instr.devOpcode, reduceCtorEq] at hdev
    case addr a => exact decode_mainLoop_address sel mode reg a
    case dataUnselected d =>
      obtain rfl : sel = false := by simpa [Position.admits] using hadm
      exact decode_mainLoop_unselected mode reg d
    case unregistered d =>
      obtain rfl : sel = true := by simp only [Position.admits, Bool.and_eq_true] at hadm; exact hadm.1
      exact decode_mainLoop_unregistered (by simpa [Instr.wf] using hwf) (admits_unregistered_iff.1 hadm)
    case rdBuf =>
      obtain ⟨rfl, rfl⟩ : sel = true ∧ mode = .boot := by simpa [Position.admits] using hadm
      exact decode_mainLoop_image (d := 1) (by decide) rfl
    case wrBuf =>
      obtain ⟨rfl, rfl⟩ : sel = true ∧ mode = .boot := by simpa [Position.admits] using hadm
      exact decode_mainLoop_image (d := 2) (by decide) rfl
    case deselect => obtain rfl : sel = true := hadm; exact decode_mainLoop_universal mode reg (d := 0xFF) rfl
    case idStart => obtain rfl : sel = true := hadm; exact decode_mainLoop_universal mode reg (d := 0xFE) rfl
    case idNext => obtain rfl : sel = true := hadm; exact decode_mainLoop_universal mode reg (d := 0xFD) rfl
    case addrSet => obtain rfl : sel = true := hadm; exact decode_mainLoop_universal mode reg (d := 0xFC) rfl
    case bootEnter => obtain rfl : sel = true := hadm; exact decode_mainLoop_universal mode reg (d := 0xFB) rfl
    case bootExit => obtain rfl : sel = true := hadm; exact decode_mainLoop_universal mode reg (d := 0xFA) rfl
    all_goals cases hadm

/-- At a reply position (R96): a data byte there is none of the two named words. -/
theorem decode_encode_reply {i : Instr} (hadm : Position.reply.admits i = true) : decode .reply (encode i) = .ok i := by
  cases i
  case data d =>
    obtain ⟨hack, hnack⟩ : d ≠ 0xA5 ∧ d ≠ 0x00 := by simpa [Position.admits] using hadm
    have h1 : Word.data d ≠ Word.ack := fun e => hack (Word.data_injective (e.trans Word.ack_eq))
    have h2 : Word.data d ≠ Word.nack := fun e => hnack (Word.data_injective (e.trans Word.nack_eq))
    exact (by simp [decode, h1, h2] : decode .reply (.word (Word.data d)) = .ok (.data d))
  case ack => exact decode_reply_ack
  case nack => rfl
  all_goals cases hadm

/-- At `X` (R83, R99). -/
theorem decode_encode_link {i : Instr} (hwf : i.wf = true) (hadm : Position.link.admits i = true) :
    decode .link (encode i) = .ok i := by
  cases i
  case linkHi h => exact decode_link_hi h
  case linkLo l => exact decode_link_lo l
  case linkDrain => exact decode_link_drain
  case linkReserved b => exact decode_link_reserved hwf
  all_goals cases hadm

/-- Every marker and every count of its 3 bits is read back (R86). -/
theorem decode_encode_header (m : BitVec 5) (c : BitVec 3) : decode .drainHeader (encode (.drainHdr m c)) = .ok (.drainHdr m c) := by
  revert m c; decide

/-- Settles O1: position by position, the branch of the decoder that reads a row's code is the one its condition column selects. -/
theorem decodeOfEncodeIsIdentity : Obligations.DecodeOfEncodeIsIdentity := by
  intro p i hwf hadm
  cases p with
  | mainLoop sel mode reg => exact decode_encode_mainLoop hwf hadm
  | operand =>
    cases i
    case data d => exact decode_operand_data d
    all_goals cases hadm
  | reply => exact decode_encode_reply hadm
  | link => exact decode_encode_link hwf hadm
  | drainHeader =>
    cases i
    case drainHdr m c => exact decode_encode_header m c
    all_goals cases hadm
  | drainPayload =>
    cases i
    case drainPayload b => rfl
    all_goals cases hadm

/-! ## The host link -/

/-- `dec2` rebuilds the word (R84, R85); the 512 words are checked one by one. -/
theorem dec2_enc2 (w : Word) : dec2 (enc2 w).1 (enc2 w).2 = w := by
  revert w; decide

/-- A response of at most five words is read back: its header's count is the number of payload bytes, and its marker gives each its
9th bit (R89). -/
theorem decDrain_encDrain {ws : List Word} (h : ws.length ≤ 5) : decDrain (encDrain ws) = some ws := by
  have hcount : ((((markerOf ws.length 0 ws).setWidth 8 <<< 3) ||| BitVec.ofNat 8 ws.length) &&& 0x07).toNat = ws.length := by
    generalize markerOf ws.length 0 ws = m
    generalize ws.length = c at h
    interval_cases c <;> revert m <;> decide
  simp only [encDrain, decDrain, hcount, header_marker _ _ h, List.length_map, h, true_and, if_true, drainWords_markerOf ws h]

/-- Settles O3: `X` splits what `enc2` put together, and a drain response reports its words. -/
theorem hostCodecRoundTrips : Obligations.HostCodecRoundTrips :=
  ⟨fun w => ⟨dec2_enc2 w, _, _, congrArg Except.ok (decodeLink_enc2_fst w), congrArg Except.ok (decodeLink_enc2_snd w),
    wordOfHalves_split w⟩, fun _ h => decDrain_encDrain h⟩

end Sys2Proof
end

section
/-! What each word makes the active slave do: one equation per meaning and condition, and the rules of the universal commands, the
dispatcher and the buffer commands that rest on them (41 to 44). -/

namespace Sys2Proof.Machine

/-! ## The address checks -/

theorem sharesAddress_eq_true {s : State} {k : Nat} {S : Slave} :
    s.sharesAddress k S = true ↔ ∃ (j : Nat) (Q : Slave), j ≠ k ∧ s.slaves[j]? = some Q ∧ Q.address = S.address := by
  rw [← Bool.not_eq_false, sharesAddress_eq_false]
  push Not
  rfl

theorem takesUsedAddress_eq_true {s : State} {S S' : Slave} :
    s.takesUsedAddress S S' = true ↔ S'.address ≠ S.address ∧
      ∃ (j : Nat) (Q : Slave), j ≠ s.active ∧ s.slaves[j]? = some Q ∧ Q.address = S'.address := by
  rw [State.takesUsedAddress, Bool.and_eq_true, decide_eq_true_eq, sharesAddress_eq_true]

/-- The address is kept, or no other slave has the new one (R268). -/
theorem takesUsedAddress_eq_false {s : State} {S S' : Slave} :
    s.takesUsedAddress S S' = false ↔ S'.address = S.address ∨
      ∀ (j : Nat) (Q : Slave), j ≠ s.active → s.slaves[j]? = some Q → Q.address ≠ S'.address := by
  rw [State.takesUsedAddress, Bool.and_eq_false_iff, decide_eq_false_iff_not, not_not, sharesAddress_eq_false]

section
variable {s : State} {S : Slave} (h : s.slaves[s.active]? = some S)
include h

/-! ## `ADDR` (R143) -/

theorem exec_addr_own (hfree : s.sharesAddress s.active S = false) :
    exec (.addr S.address) s = .next (s.reply (S.setSelected true) Word.ack .toMain) :=
  (withSlave_some h _).trans (by rw [if_pos rfl, hfree, if_neg Bool.false_ne_true])

theorem exec_addr_shared (hused : s.sharesAddress s.active S = true) :
    exec (.addr S.address) s = .refused .duplicateAddress :=
  (withSlave_some h _).trans (by rw [if_pos rfl, hused, if_pos rfl])

theorem exec_addr_other {a : Byte} (ha : a ≠ S.address) : exec (.addr a) s = .next (s.putSlave (S.setSelected false)) :=
  (withSlave_some h _).trans (if_neg ha)

/-! ## The universal commands (R164, R168, R170) -/

theorem exec_addrSet_selected (hsel : S.selected = true) :
    exec .addrSet s = .next (s.reply S (Word.data S.address) .toAsProposal) :=
  (whenSelected_some h _).trans (if_pos hsel)

theorem exec_bootEnter_selected (hsel : S.selected = true) :
    exec .bootEnter s = .next (s.reply S Word.ack (if S.mode = .app then .toModeSwitch .boot else .toMain)) :=
  (whenSelected_some h _).trans (by rw [if_pos hsel]; cases S.mode <;> rfl)

theorem exec_bootExit_selected (hsel : S.selected = true) :
    exec .bootExit s = .next (s.reply S Word.ack (if S.mode = .boot then .toModeSwitch .app else .toMain)) :=
  (whenSelected_some h _).trans (by rw [if_pos hsel]; cases S.mode <;> rfl)

/-! ## The opcodes of the buffer commands (R203, R204) -/

theorem startBuffer_boot (hsel : S.selected = true) (hmode : S.mode = .boot) (dir : Dir) :
    startBuffer dir s = .next (s.reply S Word.ack (.toBufAddr dir 0 0)) :=
  (whenSelected_some h _).trans (by rw [if_pos hsel, hmode])

theorem startBuffer_app (hmode : S.mode = .app) (dir : Dir) : startBuffer dir s = .next s :=
  (whenSelected_some h _).trans (by rw [hmode]; exact ite_self _)

/-! ## The reply words (R96) -/

theorem exec_ack : exec .ack s = .next (s.reply S Word.ack .toMain) := withSlave_some h _

theorem exec_nack : exec .nack s = .next (s.reply S Word.nack .toMain) := withSlave_some h _

/-! ## Operand words (R112): the phase says which -/

theorem exec_data_asProposal (hp : S.phase = .asProposal) (d : Byte) : exec (.data d) s = addrSetProposal d S s :=
  (withSlave_some h _).trans (by rw [hp])

theorem exec_data_asConfirm {p : Byte} (hp : S.phase = .asConfirm p) (d : Byte) : exec (.data d) s = addrSetConfirm p d S s :=
  (withSlave_some h _).trans (by rw [hp])

theorem exec_data_bufAddr {dir : Dir} {i : Nat} {acc : BitVec 24} (hp : S.phase = .bufAddr dir i acc) (d : Byte) :
    exec (.data d) s = bufferAddress dir i acc d S s :=
  (withSlave_some h _).trans (by rw [hp])

theorem exec_data_bufCount {dir : Dir} {addr : BitVec 24} (hp : S.phase = .bufCount dir addr) (d : Byte) :
    exec (.data d) s = bufferCount dir addr d S s :=
  (withSlave_some h _).trans (by rw [hp])

theorem exec_data_rdDummy {rem : Nat} (hp : S.phase = .rdDummy rem) (d : Byte) : exec (.data d) s = readDummy rem S s :=
  (withSlave_some h _).trans (by rw [hp])

theorem exec_data_wrByte {rem : Nat} (hp : S.phase = .wrByte rem) (d : Byte) : exec (.data d) s = writeByte rem d S s :=
  (withSlave_some h _).trans (by rw [hp])

end

/-- A device opcode runs its handler (R184). -/
theorem exec_of_devOpcode {i : Instr} {d : Byte} (h : i.devOpcode = some d) (s : State) : exec i s = runDev d s := by
  cases i <;> cases h <;> rfl

/-! ## What the answers of the operand words are -/

/-- A confirmation that agrees persists the address (R164, R166) where the slave may take it. -/
theorem addrSetConfirm_same {s : State} {S : Slave} {p : Byte}
    (hfree : s.takesUsedAddress S { S with eeprom := S.eeprom.write 0 p } = false) :
    addrSetConfirm p p S s = .next (s.reply { S with eeprom := S.eeprom.write 0 p } Word.ack .toMain) :=
  (if_pos rfl).trans (if_neg (ne_true_of_eq_false hfree))

theorem addrSetConfirm_used {s : State} {S : Slave} {p : Byte}
    (hused : s.takesUsedAddress S { S with eeprom := S.eeprom.write 0 p } = true) :
    addrSetConfirm p p S s = .refused .duplicateAddress :=
  (if_pos rfl).trans (if_pos hused)

theorem addrSetConfirm_different {p c : Byte} (hne : c ≠ p) (S : Slave) (s : State) :
    addrSetConfirm p c S s = .next (s.reply S Word.nack .toMain) := if_neg hne

theorem address_write_zero (S : Slave) (p : Byte) : Slave.address { S with eeprom := S.eeprom.write 0 p } = p :=
  Memory.read_write_same _ _ _

/-- Where a buffer command goes on after its count (R203, R204). -/
def Dir.afterCount : Dir → Nat → Cont
  | .rd, n => .toRdDummy n
  | .wr, n => .toWrByte n

/-- The count byte opens the page and goes on in its direction (R203). -/
theorem bufferCount_mapped {s : State} {S : Slave} {addr : BitVec 24} {reg : Region}
    (hreg : S.board.classify (S.board.pageBase (wireAddress addr)) = some reg) (dir : Dir) (cb : Byte) :
    bufferCount dir addr cb S s =
      .next (s.reply { S with page := some (S.opened (wireAddress addr) reg) } (Word.data cb)
        (dir.afterCount (countOf cb))) := by
  rw [bufferCount, Slave.setAddress_some hreg]
  cases dir <;> rfl

theorem bufferCount_unmapped {S : Slave} {addr : BitVec 24}
    (hreg : S.board.classify (S.board.pageBase (wireAddress addr)) = none) (dir : Dir) (cb : Byte) (s : State) :
    bufferCount dir addr cb S s = .refused .unmappedPage := by
  rw [bufferCount, Slave.setAddress_none hreg]

theorem readDummy_page {S : Slave} {p : PageBuffer} (hpage : S.page = some p) (rem : Nat) (s : State) :
    readDummy rem S s = .next (s.reply { S with page := some (p.advance S.board.pageSize) } (Word.data (p.bytes.getD p.cursor 0))
      (if 1 < rem then .toRdDummy (rem - 1) else .toMain)) := by
  rw [readDummy, Slave.getByte_some hpage]
  by_cases hrem : 1 < rem <;> simp only [gt_iff_lt, hrem, if_true, if_false]

theorem writeByte_page {S : Slave} {p : PageBuffer} (hpage : S.page = some p) (rem : Nat) (b : Byte) (s : State) :
    writeByte rem b S s = .next (s.reply { S with page := some (p.put S.board.pageSize b) } (Word.data b)
      (if 1 < rem then .toWrByte (rem - 1) else .toCommit)) := by
  rw [writeByte, Slave.setByte_some hpage]
  by_cases hrem : 1 < rem <;> simp only [gt_iff_lt, hrem, if_true, if_false]

theorem bufferAddress_more {i : Nat} (hi : i < 2) (dir : Dir) (acc : BitVec 24) (b : Byte) (S : Slave) (s : State) :
    bufferAddress dir i acc b S s = .next (s.reply S (Word.data b) (.toBufAddr dir (i + 1) (accAddress acc b))) := if_pos hi

theorem bufferAddress_last {i : Nat} (hi : ¬ i < 2) (dir : Dir) (acc : BitVec 24) (b : Byte) (S : Slave) (s : State) :
    bufferAddress dir i acc b S s = .next (s.reply S (Word.data b) (.toBufCount dir (accAddress acc b))) := if_neg hi

/-! ## The commit after the last echo (R205) -/

theorem runCont_commit {s : State} {S C : Slave} (hC : S.commit = some C) (hfree : s.takesUsedAddress S C = false) :
    runCont .toCommit S s = .next (s.putSlave { C with phase := .main }) := by
  rw [runCont, hC]
  exact if_neg (ne_true_of_eq_false hfree)

theorem runCont_commit_used {s : State} {S C : Slave} (hC : S.commit = some C) (hused : s.takesUsedAddress S C = true) :
    runCont .toCommit S s = .refused .duplicateAddress := by
  rw [runCont, hC]
  exact if_pos hused

theorem runCont_commit_noPage {S : Slave} (h : S.page = none) (s : State) : runCont .toCommit S s = .fault .noPageBuffer := by
  rw [runCont, Slave.commit_none h]

/-! ## Selection and the universal commands -/

/-- Settles O24: the three cases of `ADDR` are its own address alone, its own address shared, and any other address. -/
theorem addrSelectsOrDeselects : Obligations.AddrSelectsOrDeselects := by
  intro s S a hS
  refine ⟨⟨fun sel mode reg => decode_mainLoop_address sel mode reg a, decode_operand_address a⟩, ?own, ?other, ?shared⟩
  case own =>
    rintro rfl halone
    exact ⟨_, exec_addr_own hS (sharesAddress_eq_false.2 halone), transmits_reply hS _ _ _⟩
  case other => exact fun ha => ⟨_, exec_addr_other hS ha, onlySlave_putSlave hS _⟩
  case shared =>
    rintro rfl hused
    exact exec_addr_shared hS (sharesAddress_eq_true.2 hused)

/-- Settles O28: each operand is answered in its own phase, and a confirmation is persisted only where the slave may take the address. -/
theorem addressSetDoubleConfirms : Obligations.AddressSetDoubleConfirms := by
  intro s S hS
  refine ⟨fun hsel => ?current, fun p hp => ?proposal, fun p hp hmay => ?confirmed, fun p hp hne hused => ?used,
    fun p c hne hp => ?different⟩
  case current => exact ⟨_, exec_addrSet_selected hS hsel, transmits_reply hS _ _ _⟩
  case proposal => exact ⟨_, exec_data_asProposal hS hp p, transmits_reply hS _ _ _⟩
  case confirmed =>
    have hfree : s.takesUsedAddress S { S with eeprom := S.eeprom.write 0 p } = false := by
      rw [takesUsedAddress_eq_false, address_write_zero]
      exact hmay
    exact ⟨_, _, (exec_data_asConfirm hS hp p).trans (addrSetConfirm_same hfree), transmits_reply hS _ _ _,
      fun a => Memory.read_write _ _ _ _⟩
  case used =>
    have htakes : s.takesUsedAddress S { S with eeprom := S.eeprom.write 0 p } = true := by
      rw [takesUsedAddress_eq_true, address_write_zero]
      exact ⟨hne, hused⟩
    exact (exec_data_asConfirm hS hp p).trans (addrSetConfirm_used htakes)
  case different =>
    exact ⟨_, (exec_data_asConfirm hS hp c).trans (addrSetConfirm_different hne S s), transmits_reply hS _ _ _⟩

/-- Settles O29: both commands reply ACK, and the continuation is chosen by the mode. -/
theorem bootCommandsAcknowledge : Obligations.BootCommandsAcknowledge := by
  intro s S hS hsel
  exact ⟨⟨_, exec_bootEnter_selected hS hsel, transmits_reply hS _ _ _⟩, _, exec_bootExit_selected hS hsel,
    transmits_reply hS _ _ _⟩

/-! ## The dispatcher -/

/-- Settles O30: a command first asks whether its slave is selected, and `run_dev` whether the running image has a handler. -/
theorem commandsOutOfConditionAreIgnored : Obligations.CommandsOutOfConditionAreIgnored := by
  intro s S i hS
  have hignored (f : Slave → Out) (hsel : S.selected = false) : whenSelected s f = .next s :=
    (whenSelected_some hS f).trans (by rw [hsel, if_neg Bool.false_ne_true])
  refine ⟨fun hsel hi => ?unselected, fun d hd hlacks => ?unregistered⟩
  case unselected =>
    obtain hi | hi := hi
    · simp only [List.mem_cons, List.not_mem_nil, or_false] at hi
      rcases hi with rfl | rfl | rfl | rfl | rfl | rfl | rfl | rfl <;> exact hignored _ hsel
    · obtain ⟨d, hd⟩ := Option.isSome_iff_exists.1 hi
      exact (exec_of_devOpcode hd s).trans (hignored _ hsel)
  case unregistered =>
    rw [exec_of_devOpcode hd, runDev, whenSelected_some hS]
    cases S.selected with
    | false => rfl
    | true =>
      obtain hmode | hnone := hlacks
      · rw [hmode]; rfl
      · cases S.mode with
        | boot => rfl
        | app => rw [hnone]; rfl

/-- Settles O31: a handler of the admitted subset keeps its count, so that `run_dev` sends its list, the first reply at once. -/
theorem deviceHandlerReplies : Obligations.DeviceHandlerReplies := by
  intro s S i d h hd hS hsel hmode hh
  have hexec : exec i s = runHandler h S s := (exec_of_devOpcode hd s).trans (runDev_handler hS hsel hmode hh)
  refine ⟨fun hops hknown => ?admitted, fun hops => hexec.trans (if_pos hops)⟩
  case admitted =>
    have hlen := handlerFunction_length hknown S.board.image S.devState
    have hsend : exec i s = .next (s.sendList { S with devState := (handlerFunction h S.board.image S.devState).1 }
        (handlerFunction h S.board.image S.devState).2) := by
      obtain ⟨hne, -⟩ | ⟨-, hne, -⟩ | ⟨-, -, hrun⟩ := runHandler_cases h S s
      · exact absurd hops hne
      · exact absurd hlen hne
      · exact hexec.trans hrun
    refine ⟨fun hnil => ?_, fun r rest hcons => ?_, hlen⟩
    · rw [hsend, hnil]
      exact ⟨_, rfl, onlySlave_putSlave hS _⟩
    · rw [hsend, hcons]
      exact ⟨_, rfl, transmits_reply hS _ _ _⟩

/-! ## The buffer commands -/

/-- Settles O40: the bootloader's table has the two opcodes, the application's has not. -/
theorem bufferOpcodesAcknowledgeInBootMode : Obligations.BufferOpcodesAcknowledgeInBootMode := by
  intro s S hS hsel
  refine ⟨fun hmode => ⟨⟨_, startBuffer_boot hS hsel hmode .rd, transmits_reply hS _ _ _⟩,
    _, startBuffer_boot hS hsel hmode .wr, transmits_reply hS _ _ _⟩, fun hmode => ⟨startBuffer_app hS hmode .rd,
    startBuffer_app hS hmode .wr⟩⟩

/-- Settles O41: `acc` takes the byte at its low end, at 24 bits. -/
theorem bufferAddressBytesAreEchoed : Obligations.BufferAddressBytesAreEchoed := by
  intro s S dir i acc b hS hp
  have hexec := exec_data_bufAddr hS hp b
  exact ⟨fun hi => ⟨_, _, hexec.trans (bufferAddress_more hi ..), accAddress_toNat acc b, transmits_reply hS _ _ _⟩,
    fun hi => ⟨_, _, hexec.trans (bufferAddress_last (Nat.not_lt.2 hi) ..), accAddress_toNat acc b, transmits_reply hS _ _ _⟩⟩

/-- Settles O42: the class of the page decides between opening it and the refusal. -/
theorem bufferCountOpensThePage : Obligations.BufferCountOpensThePage := by
  intro s S dir addr cb hS hp
  have hexec := exec_data_bufCount hS hp cb
  refine ⟨fun reg hreg => ⟨_, _, hexec.trans (bufferCount_mapped hreg dir cb), rfl, ?opened⟩,
    fun hreg => hexec.trans (bufferCount_unmapped hreg dir cb s)⟩
  case opened => cases dir <;> exact transmits_reply hS _ _ _

/-- Settles O43: the page's cursor is inside its bytes, so that the byte under it exists. -/
theorem dummyIsAnsweredWithTheNextByte : Obligations.DummyIsAnsweredWithTheNextByte := by
  intro s S p rem d hS hp hpage hok
  exact ⟨_, _, (exec_data_rdDummy hS hp d).trans (readDummy_page hpage rem s), hok.getElem?_cursor, transmits_reply hS _ _ _⟩

/-- Settles O44: the byte goes to the page and back to the bus; no operand of a buffer command reaches a medium. -/
theorem dataByteIsBufferedAndEchoed : Obligations.DataByteIsBufferedAndEchoed := by
  intro s S p rem b hS hp hpage
  exact ⟨_, (exec_data_wrByte hS hp b).trans (writeByte_page hpage rem b s), transmits_reply hS _ _ _⟩

/-- Settles O45: both words are sent by the shared `reply`. -/
theorem replyWordsAreTransmitted : Obligations.ReplyWordsAreTransmitted := by
  intro s S hS
  exact ⟨⟨_, exec_ack hS, transmits_reply hS _ _ _⟩, _, exec_nack hS, transmits_reply hS _ _ _⟩

end Sys2Proof.Machine
end

section
/-! Every way a slave's meaning can end, once: the slave it leaves and the byte it transmits. A word of the main loop, an operand word
and a continuation each have a relation with one constructor per outcome; the two frame rules are read off them. -/

namespace Sys2Proof

/-- The instructions a slave's main loop can take, and the reply words. -/
def Instr.isCommand : Instr → Bool
  | .data _ | .linkHi _ | .linkLo _ | .linkDrain | .linkReserved _ | .drainHdr _ _ | .drainPayload _ => false
  | .addr _ | .dataUnselected _ | .deselect | .idStart | .idNext | .addrSet | .bootEnter | .bootExit | .rdBuf | .wrBuf
  | .dev00 | .dev01 | .dev02 | .dev03 | .dev04 | .dev05 | .dev06 | .dev07 | .dev08 | .dev09 | .dev0A
  | .unregistered _ | .ack | .nack => true

end Sys2Proof

namespace Sys2Proof.Machine

/-! ## The state a slave's meaning leaves -/

/-- A slave after a step in which `o` was transmitted: its queue has gained that data word, if any (R62). -/
def Slave.heard (o : Option Byte) (S : Slave) : Slave := { S with rx := S.rx ++ (o.map Word.data).toList }

/-- The state in which the active slave has become `S'` and has transmitted the data word of `o`, if any. -/
def State.moved (s : State) (S' : Slave) : Option Byte → State
  | none => s.putSlave S'
  | some d => (s.putSlave S').busTx (Word.data d)

theorem Slave.heard_none : Slave.heard none = id := by
  funext S; simp [Slave.heard]

@[simp] theorem Slave.heard_address (o : Option Byte) (S : Slave) : (S.heard o).address = S.address := rfl

theorem Slave.heard_ext (o : Option Byte) (S : Slave) : ∃ ext, (S.heard o).rx = S.rx ++ ext ∧ ext.length ≤ 1 :=
  ⟨_, rfl, by cases o <;> simp⟩

/-! A reply is a move into phase Echo. -/

theorem reply_ack_eq_moved (s : State) (S : Slave) (c : Cont) :
    s.reply S Word.ack c = s.moved { S with phase := .echo c } (some 0xA5) := by
  rw [Word.ack_eq]; rfl

theorem reply_nack_eq_moved (s : State) (S : Slave) (c : Cont) :
    s.reply S Word.nack c = s.moved { S with phase := .echo c } (some 0x00) := by
  rw [Word.nack_eq]; rfl

section
variable (s : State) (S' : Slave) (o : Option Byte)

@[simp] theorem State.moved_params : (s.moved S' o).params = s.params := by cases o <;> rfl
@[simp] theorem State.moved_master : (s.moved S' o).master = s.master := by cases o <;> rfl
@[simp] theorem State.moved_active : (s.moved S' o).active = s.active := by cases o <;> rfl
@[simp] theorem State.moved_calls : (s.moved S' o).calls = s.calls := by cases o <;> rfl
@[simp] theorem State.moved_returns : (s.moved S' o).returns = s.returns := by cases o <;> rfl
@[simp] theorem State.moved_agenda : (s.moved S' o).agenda = s.agenda := by cases o <;> rfl
@[simp] theorem State.moved_ticks : (s.moved S' o).ticks = s.ticks := by cases o <;> rfl

@[simp] theorem State.moved_slaves : (s.moved S' o).slaves = (s.slaves.set s.active S').map (Slave.heard o) := by
  cases o with
  | none => simp [State.moved, Slave.heard_none]
  | some d => rfl

/-- A move is silent and leaves the link alone, or `X` takes its word (R62). -/
theorem State.moved_link :
    (o = none ∧ (s.moved S' o).link = s.link) ∨
    ∃ d, o = some d ∧ LinkTook s.params.xfifoDepth s.link (s.moved S' o).link (Word.data d) := by
  cases o with
  | none => exact .inl ⟨rfl, rfl⟩
  | some d => exact .inr ⟨d, rfl, linkTook_deliver _ _ _⟩

/-- Every slave but the active one has only heard the word. -/
theorem State.moved_getElem?_other {k : Nat} (hk : k ≠ s.active) :
    (s.moved S' o).slaves[k]? = (s.slaves[k]?).map (Slave.heard o) := by
  rw [State.moved_slaves, List.getElem?_map, List.getElem?_set_ne (Ne.symm hk)]

end

theorem State.moved_getElem?_active {s : State} {S : Slave} (h : s.slaves[s.active]? = some S) (S' : Slave) (o : Option Byte) :
    (s.moved S' o).slaves[s.active]? = some (S'.heard o) := by
  rw [State.moved_slaves, List.getElem?_map, getElem?_set_self h]; rfl

/-- A silent move of a slave that has not changed is no change. -/
theorem State.moved_same {s : State} {S : Slave} (h : s.slaves[s.active]? = some S) : s.moved S none = s := by
  have hset : s.slaves.set s.active S = s.slaves := by
    obtain ⟨hlt, rfl⟩ := List.getElem?_eq_some_iff.1 h
    exact List.set_getElem_self hlt
  simp only [State.moved, State.putSlave, hset]

/-! ## The words of the main loop and the reply words -/

/-- What a command makes of its slave `S`, and the byte it transmits. -/
inductive Slave.Runs (S : Slave) : Instr → Slave → Option Byte → Prop where
  | ignored (i : Instr) : S.Runs i S none
  | selects : S.Runs (.addr S.address) { S with selected := true, phase := .echo .toMain } (some 0xA5)
  | leaves {a : Byte} (ha : a ≠ S.address) : S.Runs (.addr a) { S with selected := false } none
  | deselects : S.Runs .deselect { S with selected := false, phase := .echo .toMain } (some 0x00)
  | startsId (b : Byte) : S.Runs .idStart { S with idCursor := 0, phase := .echo .toMain } (some b)
  | nextId {b : Byte} (hb : S.board.desc[S.idCursor]? = some b) :
      S.Runs .idNext { S with idCursor := S.idCursor + 1, phase := .echo .toMain } (some b)
  | replies (i : Instr) {c : Cont} (hc : c.Ok S) (b : Byte) : S.Runs i { S with phase := .echo c } (some b)
  | handlerEnds {i : Instr} (hi : i.devOpcode.isSome = true) (st : DevState) :
      S.Runs i { S with devState := st, phase := .main } none
  | handlerReplies {i : Instr} (hi : i.devOpcode.isSome = true) (hsel : S.selected = true) (hmode : S.mode = .app) (st : DevState)
      (r : Byte) (rest : List Byte) :
      S.Runs i { S with devState := st, phase := .echo (.toDevReply rest) } (some r)

/-- What an operand word `d` makes of its slave `S`, and the byte it transmits (R112, R164, R203, R204). -/
inductive Slave.TakesOperand (S : Slave) (d : Byte) : Slave → Option Byte → Prop where
  | proposal (hp : S.phase = .asProposal) : S.TakesOperand d { S with phase := .echo (.toAsConfirm d) } (some d)
  | confirms (hp : S.phase = .asConfirm d) :
      S.TakesOperand d { S with eeprom := S.eeprom.write 0 d, phase := .echo .toMain } (some 0xA5)
  | differs {p : Byte} (hp : S.phase = .asConfirm p) : S.TakesOperand d { S with phase := .echo .toMain } (some 0x00)
  | address {dir : Dir} {i : Nat} {acc : BitVec 24} (hp : S.phase = .bufAddr dir i acc) (hi : i < 2) :
      S.TakesOperand d { S with phase := .echo (.toBufAddr dir (i + 1) (accAddress acc d)) } (some d)
  | lastAddress {dir : Dir} {i : Nat} {acc : BitVec 24} (hp : S.phase = .bufAddr dir i acc) :
      S.TakesOperand d { S with phase := .echo (.toBufCount dir (accAddress acc d)) } (some d)
  | opens {dir : Dir} {addr : BitVec 24} {reg : Region} (hp : S.phase = .bufCount dir addr)
      (hreg : S.board.classify (S.board.pageBase (wireAddress addr)) = some reg) :
      S.TakesOperand d { S with
        page := some (S.opened (wireAddress addr) reg)
        phase := .echo (dir.afterCount (countOf d)) } (some d)
  | reads {rem : Nat} {p : PageBuffer} (hp : S.phase = .rdDummy rem) (hpage : S.page = some p) (b : Byte) :
      S.TakesOperand d { S with
        page := some (p.advance S.board.pageSize)
        phase := .echo (if 1 < rem then .toRdDummy (rem - 1) else .toMain) } (some b)
  | writes {rem : Nat} {p : PageBuffer} (hp : S.phase = .wrByte rem) (hpage : S.page = some p) :
      S.TakesOperand d { S with
        page := some (p.put S.board.pageSize d)
        phase := .echo (if 1 < rem then .toWrByte (rem - 1) else .toCommit) } (some d)

/-- What a continuation makes of the slave `S` that has discarded its echo, and the byte it transmits (R113, R30). -/
inductive Slave.Continues (S : Slave) : Cont → Slave → Option Byte → Prop where
  | resumes {c : Cont} {ph : Phase} (hc : c.resume = some ph) : S.Continues c { S with phase := ph } none
  | commits {p : PageBuffer} (hpage : S.page = some p) :
      S.Continues .toCommit
        { S with page := some p.clean, flash := S.flashAfter p, eeprom := S.eepromAfter p, phase := .main } none
  | switches (m : Mode) : S.Continues (.toModeSwitch m) (S.modeSwitch m) none
  | lastReply : S.Continues (.toDevReply []) { S with phase := .main } none
  | nextReply (r : Byte) (rest : List Byte) :
      S.Continues (.toDevReply (r :: rest)) { S with phase := .echo (.toDevReply rest) } (some r)

/-! ## Outcomes -/

/-- The refusals a slave's meaning can end in; the one of a duplicate address only where `used` (R268). -/
def Refusal.OfSlave (used : Prop) : Refusal → Prop
  | .duplicateAddress => used
  | .unmappedPage | .handlerOperands | .handlerContract => True
  | .notModelled _ | .ringOverflow | .writeListLength => False

/-- The outcomes of a meaning on the active slave `S`: a move to a slave and a byte of `P` that takes no address in use, a refusal
of a slave, or, only where `faulty`, a fault. -/
inductive State.Answers (s : State) (S : Slave) (P : Slave → Option Byte → Prop) (used faulty : Prop) : Out → Prop where
  | moves {S' : Slave} {o : Option Byte} (h : P S' o) (hfree : s.takesUsedAddress S S' = false) :
      s.Answers S P used faulty (.next (s.moved S' o))
  | refuses {r : Refusal} (h : r.OfSlave used) : s.Answers S P used faulty (.refused r)
  | faults {f : Fault} (h : faulty) : s.Answers S P used faulty (.fault f)

/-- A slave whose EEPROM has not changed takes no new address. -/
theorem takesUsedAddress_of_eeprom {S S' : Slave} (h : S'.eeprom = S.eeprom) (s : State) : s.takesUsedAddress S S' = false :=
  takesUsedAddress_eq_false.2 (.inl (congrArg (Memory.read · 0) h))

theorem State.Answers.next {s t : State} {S : Slave} {P : Slave → Option Byte → Prop} {used faulty : Prop}
    (h : s.Answers S P used faulty (.next t)) : ∃ S' o, P S' o ∧ s.takesUsedAddress S S' = false ∧ t = s.moved S' o := by
  cases h with
  | moves h hfree => exact ⟨_, _, h, hfree, rfl⟩

section
variable {s : State} {S : Slave} {used faulty : Prop}

/-- Outcomes of the shapes meanings have. -/
theorem answers_of_eeprom {P : Slave → Option Byte → Prop} {S' : Slave} {o : Option Byte} (h : P S' o)
    (he : S'.eeprom = S.eeprom) : s.Answers S P used faulty (.next (s.moved S' o)) :=
  .moves h (takesUsedAddress_of_eeprom he s)

theorem answers_ignored (hS : s.slaves[s.active]? = some S) (i : Instr) : s.Answers S (S.Runs i) used faulty (.next s) := by
  have h := answers_of_eeprom (s := s) (used := used) (faulty := faulty) (Slave.Runs.ignored (S := S) i) rfl
  rwa [State.moved_same hS] at h

theorem answers_whenSelected (hS : s.slaves[s.active]? = some S) {i : Instr} {f : Slave → Out}
    (h : S.selected = true → s.Answers S (S.Runs i) used faulty (f S)) :
    s.Answers S (S.Runs i) used faulty (whenSelected s f) := by
  rw [whenSelected_some hS]
  cases hsel : S.selected with
  | false => exact answers_ignored hS i
  | true => exact h hsel

theorem answers_reply_ack {i : Instr} {c : Cont} (hc : c.Ok S) :
    s.Answers S (S.Runs i) used faulty (.next (s.reply S Word.ack c)) := by
  rw [reply_ack_eq_moved]
  exact answers_of_eeprom (Slave.Runs.replies i hc _) rfl

/-! ## Every meaning of a command -/

theorem execAddr_answers (hS : s.slaves[s.active]? = some S) (a : Byte) :
    s.Answers S (S.Runs (.addr a)) (s.sharesAddress s.active S = true) faulty (exec (.addr a) s) := by
  by_cases ha : a = S.address
  · subst ha
    cases hshare : s.sharesAddress s.active S with
    | true => rw [exec_addr_shared hS hshare]; exact .refuses rfl
    | false =>
      rw [exec_addr_own hS hshare, reply_ack_eq_moved]
      exact answers_of_eeprom Slave.Runs.selects rfl
  · rw [exec_addr_other hS ha]
    exact answers_of_eeprom (o := none) (Slave.Runs.leaves ha) rfl

theorem execIdNext_answers (hS : s.slaves[s.active]? = some S) :
    s.Answers S (S.Runs .idNext) used faulty (exec .idNext s) := by
  refine answers_whenSelected hS fun hsel => ?_
  cases hb : S.board.desc[S.idCursor]? with
  | some b => exact answers_of_eeprom (Slave.Runs.nextId hb) rfl
  | none =>
    rw [Word.sentinel_eq]
    exact answers_of_eeprom (Slave.Runs.replies _ (c := .toMain) trivial 0x00) rfl

theorem startBuffer_answers (hS : s.slaves[s.active]? = some S) (i : Instr) (dir : Dir) :
    s.Answers S (S.Runs i) used faulty (startBuffer dir s) := by
  refine answers_whenSelected hS fun hsel => ?_
  cases hmode : S.mode with
  | boot => exact answers_reply_ack ⟨⟨hmode, hsel⟩, Nat.zero_le 2, Nat.one_pos⟩
  | app => exact answers_ignored hS i

theorem runDev_answers (hS : s.slaves[s.active]? = some S) {i : Instr} (hi : i.devOpcode.isSome = true) (d : Byte) :
    s.Answers S (S.Runs i) used faulty (runDev d s) := by
  refine answers_whenSelected hS fun hsel => ?_
  cases hmode : S.mode with
  | boot => exact answers_ignored hS i
  | app =>
    cases S.board.handler d with
    | none => exact answers_ignored hS i
    | some h =>
      obtain ⟨-, hrun⟩ | ⟨-, -, hrun⟩ | ⟨-, -, hrun⟩ := runHandler_cases h S s <;> simp only [hrun]
      · exact .refuses trivial
      · exact .refuses trivial
      · cases (handlerFunction h S.board.image S.devState).2 with
        | nil => exact answers_of_eeprom (o := none) (Slave.Runs.handlerEnds hi _) rfl
        | cons r rest => exact answers_of_eeprom (Slave.Runs.handlerReplies hi hsel hmode _ r rest) rfl

/-- Every way a command can end. -/
theorem exec_command_answers (hS : s.slaves[s.active]? = some S) {i : Instr} (hi : i.isCommand = true) :
    s.Answers S (S.Runs i) (s.sharesAddress s.active S = true) faulty (exec i s) := by
  cases hdev : i.devOpcode with
  | some d =>
    rw [exec_of_devOpcode hdev]
    exact runDev_answers hS (Option.isSome_of_eq_some hdev) d
  | none =>
    cases i
    case addr a => exact execAddr_answers hS a
    case dataUnselected d => exact answers_ignored hS _
    case unregistered d => exact answers_ignored hS _
    case deselect =>
      refine answers_whenSelected hS fun _ => ?_
      rw [reply_nack_eq_moved]
      exact answers_of_eeprom Slave.Runs.deselects rfl
    case idStart => exact answers_whenSelected hS fun _ => answers_of_eeprom (Slave.Runs.startsId _) rfl
    case idNext => exact execIdNext_answers hS
    case addrSet =>
      exact answers_whenSelected hS fun hsel => answers_of_eeprom (Slave.Runs.replies _ (c := .toAsProposal) hsel S.address) rfl
    case bootEnter =>
      refine answers_whenSelected hS fun hsel => ?_
      cases hmode : S.mode with
      | app => exact answers_reply_ack ⟨hsel, by rw [hmode]; decide⟩
      | boot => exact answers_reply_ack trivial
    case bootExit =>
      refine answers_whenSelected hS fun hsel => ?_
      cases hmode : S.mode with
      | app => exact answers_reply_ack trivial
      | boot => exact answers_reply_ack ⟨hsel, by rw [hmode]; decide⟩
    case rdBuf => exact startBuffer_answers hS _ .rd
    case wrBuf => exact startBuffer_answers hS _ .wr
    case ack => rw [exec_ack hS]; exact answers_reply_ack trivial
    case nack =>
      rw [exec_nack hS, reply_nack_eq_moved]
      exact answers_of_eeprom (Slave.Runs.replies _ (c := .toMain) trivial 0x00) rfl
    all_goals cases hi <;> cases hdev

/-! ## Every meaning of an operand word -/

/-- Where an operand word has no meaning: in phases Main and Echo, and in the phases that use a page buffer without one. -/
def Slave.OperandFaults (S : Slave) : Prop :=
  S.phase.awaitsOperand = false ∨ (S.page = none ∧ ∃ rem, S.phase = .rdDummy rem ∨ S.phase = .wrByte rem)

theorem exec_data_main (hS : s.slaves[s.active]? = some S) (hp : S.phase = .main) (d : Byte) :
    exec (.data d) s = .fault .operandOutOfPlace :=
  (withSlave_some hS _).trans (by rw [hp])

theorem exec_data_echo (hS : s.slaves[s.active]? = some S) {c : Cont} (hp : S.phase = .echo c) (d : Byte) :
    exec (.data d) s = .fault .operandOutOfPlace :=
  (withSlave_some hS _).trans (by rw [hp])

/-- Every way an operand word can end. -/
theorem exec_data_answers (hS : s.slaves[s.active]? = some S) (d : Byte) :
    s.Answers S (S.TakesOperand d) (∃ p, S.phase = .asConfirm p) S.OperandFaults (exec (.data d) s) := by
  cases hp : S.phase with
  | main => rw [exec_data_main hS hp]; exact .faults (.inl (by rw [hp]; rfl))
  | echo c => rw [exec_data_echo hS hp]; exact .faults (.inl (by rw [hp]; rfl))
  | asProposal =>
    rw [exec_data_asProposal hS hp]
    exact answers_of_eeprom (Slave.TakesOperand.proposal hp) rfl
  | asConfirm p =>
    rw [exec_data_asConfirm hS hp]
    by_cases hd : d = p
    · subst hd
      cases hused : s.takesUsedAddress S { S with eeprom := S.eeprom.write 0 d } with
      | true => rw [addrSetConfirm_used hused]; exact .refuses ⟨d, rfl⟩
      | false =>
        rw [addrSetConfirm_same hused, reply_ack_eq_moved]
        exact .moves (.confirms hp) hused
    · rw [addrSetConfirm_different hd, reply_nack_eq_moved]
      exact answers_of_eeprom (Slave.TakesOperand.differs hp) rfl
  | bufAddr dir i acc =>
    rw [exec_data_bufAddr hS hp]
    by_cases hi : i < 2
    · rw [bufferAddress_more hi]
      exact answers_of_eeprom (Slave.TakesOperand.address hp hi) rfl
    · rw [bufferAddress_last hi]
      exact answers_of_eeprom (Slave.TakesOperand.lastAddress hp) rfl
  | bufCount dir addr =>
    rw [exec_data_bufCount hS hp]
    cases hreg : S.board.classify (S.board.pageBase (wireAddress addr)) with
    | none => rw [bufferCount_unmapped hreg]; exact .refuses trivial
    | some reg => rw [bufferCount_mapped hreg]; exact answers_of_eeprom (Slave.TakesOperand.opens hp hreg) rfl
  | rdDummy rem =>
    rw [exec_data_rdDummy hS hp]
    cases hpage : S.page with
    | none => rw [readDummy, Slave.getByte, hpage]; exact .faults (.inr ⟨hpage, rem, .inl hp⟩)
    | some p => rw [readDummy_page hpage]; exact answers_of_eeprom (Slave.TakesOperand.reads hp hpage _) rfl
  | wrByte rem =>
    rw [exec_data_wrByte hS hp]
    cases hpage : S.page with
    | none => rw [writeByte, Slave.setByte, hpage]; exact .faults (.inr ⟨hpage, rem, .inr hp⟩)
    | some p => rw [writeByte_page hpage]; exact answers_of_eeprom (Slave.TakesOperand.writes hp hpage) rfl

/-! ## Every continuation -/

/-- Every way a continuation can end: a commit without a page buffer faults, and one that takes an address in use is refused. -/
theorem runCont_answers (c : Cont) (S : Slave) (s : State) :
    s.Answers S (S.Continues c) (c = .toCommit) (c = .toCommit ∧ S.page = none) (runCont c S s) := by
  cases hres : c.resume with
  | some ph =>
    rw [runCont_resume hres]
    exact answers_of_eeprom (o := none) (Slave.Continues.resumes hres) rfl
  | none =>
    cases c
    case toCommit =>
      cases hpage : S.page with
      | none => rw [runCont_commit_noPage hpage]; exact .faults ⟨rfl, rfl⟩
      | some p =>
        have hC := Slave.commit_some hpage
        cases hused : s.takesUsedAddress S _ with
        | true => rw [runCont_commit_used hC hused]; exact .refuses rfl
        | false => rw [runCont_commit hC hused]; exact .moves (o := none) (.commits hpage) hused
    case toModeSwitch m => exact answers_of_eeprom (o := none) (Slave.Continues.switches m) rfl
    case toDevReply rest =>
      cases rest with
      | nil => exact answers_of_eeprom (o := none) Slave.Continues.lastReply rfl
      | cons r rest => exact answers_of_eeprom (Slave.Continues.nextReply r rest) rfl
    all_goals cases hres

end

/-! ## Frames -/

/-- What no command changes. -/
theorem Slave.Runs.keeps {S S' : Slave} {i : Instr} {o : Option Byte} (h : S.Runs i S' o) :
    S'.board = S.board ∧ S'.addressPending = S.addressPending ∧ S'.heldAddr = S.heldAddr ∧ S'.mode = S.mode ∧ S'.rx = S.rx ∧
      S'.page = S.page ∧ S'.flash = S.flash ∧ S'.eeprom = S.eeprom := by
  cases h <;> exact ⟨rfl, rfl, rfl, rfl, rfl, rfl, rfl, rfl⟩

theorem Slave.Runs.keeps_selected {S S' : Slave} {i : Instr} {o : Option Byte} (h : S.Runs i S' o) (ha : ∀ a, i ≠ .addr a)
    (hd : i ≠ .deselect) : S'.selected = S.selected := by
  cases h with
  | selects | leaves => exact absurd rfl (ha _)
  | deselects => exact absurd rfl hd
  | ignored | startsId | nextId | replies | handlerEnds | handlerReplies => rfl

theorem Slave.Runs.keeps_idCursor {S S' : Slave} {i : Instr} {o : Option Byte} (h : S.Runs i S' o) (hs : i ≠ .idStart)
    (hn : i ≠ .idNext) : S'.idCursor = S.idCursor := by
  cases h with
  | startsId => exact absurd rfl hs
  | nextId => exact absurd rfl hn
  | ignored | selects | leaves | deselects | replies | handlerEnds | handlerReplies => rfl

theorem Slave.Runs.keeps_devState {S S' : Slave} {i : Instr} {o : Option Byte} (h : S.Runs i S' o) (hi : i.devOpcode = none) :
    S'.devState = S.devState := by
  cases h with
  | handlerEnds hd | handlerReplies hd => rw [hi] at hd; cases hd
  | ignored | selects | leaves | deselects | startsId | nextId | replies => rfl

/-- What no operand word changes. -/
theorem Slave.TakesOperand.keeps {S S' : Slave} {d : Byte} {o : Option Byte} (h : S.TakesOperand d S' o) :
    S'.board = S.board ∧ S'.selected = S.selected ∧ S'.addressPending = S.addressPending ∧ S'.heldAddr = S.heldAddr ∧
      S'.mode = S.mode ∧ S'.idCursor = S.idCursor ∧ S'.rx = S.rx ∧ S'.devState = S.devState ∧ S'.flash = S.flash := by
  cases h <;> exact ⟨rfl, rfl, rfl, rfl, rfl, rfl, rfl, rfl, rfl⟩

/-- Only a confirmation writes the EEPROM, and only offset 0 (R166). -/
theorem Slave.TakesOperand.keeps_eeprom {S S' : Slave} {d : Byte} {o : Option Byte} (h : S.TakesOperand d S' o) {x : Nat}
    (hx : x ≠ 0 ∨ S.phase ≠ .asConfirm d) : S'.eeprom.read x = S.eeprom.read x := by
  cases h with
  | confirms hp =>
    obtain hx | hx := hx
    · exact Memory.read_write_other _ _ hx
    · exact absurd hp hx
  | proposal | differs | address | lastAddress | opens | reads | writes => rfl

theorem Slave.TakesOperand.keeps_page {S S' : Slave} {d : Byte} {o : Option Byte} (h : S.TakesOperand d S' o)
    (hc : ∀ dir addr, S.phase ≠ .bufCount dir addr) (hr : ∀ rem, S.phase ≠ .rdDummy rem) (hw : ∀ rem, S.phase ≠ .wrByte rem) :
    S'.page = S.page := by
  cases h with
  | opens hp => exact absurd hp (hc _ _)
  | reads hp => exact absurd hp (hr _)
  | writes hp => exact absurd hp (hw _)
  | proposal | confirms | differs | address | lastAddress => rfl

/-- Where a command needs no slave to answer, it changes nothing. -/
theorem exec_command_noSlave {s t : State} {i : Instr} (hi : i.isCommand = true) (hS : s.slaves[s.active]? = none)
    (h : exec i s = .next t) : t = s := by
  have hwith (f : Slave → Out) : withSlave s f = .fault .noSuchSlave := by
    rw [withSlave, State.activeSlave_eq, hS]
  cases hdev : i.devOpcode with
  | some d => rw [exec_of_devOpcode hdev] at h; cases (hwith _).symm.trans h
  | none =>
    cases i
    case dataUnselected => cases h; rfl
    case unregistered => cases h; rfl
    all_goals cases hi <;> cases hdev <;> cases (hwith _).symm.trans h

/-- A command that ends in a next state moved the active slave, or there was none and nothing happened. -/
theorem exec_command_next {s t : State} {i : Instr} (hi : i.isCommand = true) (h : exec i s = .next t) :
    t = s ∨ ∃ S S' o, s.slaves[s.active]? = some S ∧ S.Runs i S' o ∧ t = s.moved S' o := by
  cases hS : s.slaves[s.active]? with
  | none => exact .inl (exec_command_noSlave hi hS h)
  | some S =>
    have hans := exec_command_answers (faulty := False) hS hi
    rw [h] at hans
    obtain ⟨S', o, hrun, -, ht⟩ := hans.next
    exact .inr ⟨S, S', o, rfl, hrun, ht⟩

theorem exec_data_next {s t : State} {d : Byte} (h : exec (.data d) s = .next t) :
    ∃ S S' o, s.slaves[s.active]? = some S ∧ S.TakesOperand d S' o ∧ t = s.moved S' o := by
  obtain ⟨S, hS, -⟩ := withSlave_next h
  have hans := exec_data_answers hS d
  rw [h] at hans
  obtain ⟨S', o, hop, -, ht⟩ := hans.next
  exact ⟨S, S', o, hS, hop, ht⟩

/-- The link after a move, as the frame rules say it. -/
theorem State.moved_link_frame (s : State) (S' : Slave) (o : Option Byte) :
    (s.moved S' o).link = s.link ∨ ∃ w, LinkTook s.params.xfifoDepth s.link (s.moved S' o).link w :=
  (s.moved_link S' o).imp (fun h => h.2) fun ⟨_, _, h⟩ => ⟨_, h⟩

/-- Settles O58: a command moves the active slave, and `Slave.Runs` says which fields each may write. -/
theorem commandsFrame : Obligations.CommandsFrame := by
  intro s t i hshape hexec
  have hcmd : i.isCommand = true := by
    obtain ⟨a, rfl⟩ | ⟨d, rfl⟩ | ⟨d, rfl⟩ | hdev | hmem := hshape
    · rfl
    · rfl
    · rfl
    · cases i <;> cases hdev <;> rfl
    · simp only [List.mem_cons, List.not_mem_nil, or_false] at hmem
      rcases hmem with rfl | rfl | rfl | rfl | rfl | rfl | rfl | rfl | rfl | rfl <;> rfl
  obtain rfl | ⟨S, S', o, hS, hrun, rfl⟩ := exec_command_next hcmd hexec
  · exact ⟨rfl, rfl, rfl, rfl, rfl, rfl, rfl, .inl rfl, rfl, fun k Q hQ => ⟨Q, hQ, ⟨[], by simp⟩, fun _ => rfl, rfl, rfl, rfl, rfl,
      rfl, fun _ => rfl, fun _ => rfl, fun _ _ => rfl, fun _ _ => rfl, fun _ => rfl⟩⟩
  · refine ⟨by simp, by simp, by simp, by simp, by simp, by simp, by simp, s.moved_link_frame S' o, by simp, fun k Q hQ => ?_⟩
    by_cases hk : k = s.active
    · subst hk
      obtain rfl : S = Q := Option.some.inj (hS.symm.trans hQ)
      obtain ⟨hboard, hpend, hheld, hmode, hrx, hpage, hflash, heeprom⟩ := hrun.keeps
      exact ⟨_, State.moved_getElem?_active hS S' o, hrx ▸ S'.heard_ext o, fun hne => absurd rfl hne, hboard, hpend, hheld, hmode,
        hpage, fun x => congrArg (Memory.read · x) hflash, fun x => congrArg (Memory.read · x) heeprom, hrun.keeps_selected,
        hrun.keeps_idCursor, hrun.keeps_devState⟩
    · exact ⟨Q.heard o, by rw [State.moved_getElem?_other s S' o hk, hQ]; rfl, Q.heard_ext o, fun _ => rfl, rfl, rfl, rfl, rfl, rfl,
        fun _ => rfl, fun _ => rfl, fun _ _ => rfl, fun _ _ => rfl, fun _ => rfl⟩

/-- Settles O59: an operand word moves the active slave, and `Slave.TakesOperand` says which fields each phase may write. -/
theorem operandFrame : Obligations.OperandFrame := by
  intro s t d hexec
  obtain ⟨S, S', o, hS, hop, rfl⟩ := exec_data_next hexec
  refine ⟨by simp, by simp, by simp, by simp, by simp, by simp, by simp, s.moved_link_frame S' o, by simp, fun k Q hQ => ?_⟩
  by_cases hk : k = s.active
  · subst hk
    obtain rfl : S = Q := Option.some.inj (hS.symm.trans hQ)
    obtain ⟨hboard, hsel, hpend, hheld, hmode, hcur, hrx, hdev, hflash⟩ := hop.keeps
    exact ⟨_, State.moved_getElem?_active hS S' o, hrx ▸ S'.heard_ext o, fun hne => absurd rfl hne, hboard, hsel, hpend, hheld, hmode,
      hcur, hdev, fun x => congrArg (Memory.read · x) hflash, fun x hx => hop.keeps_eeprom hx, hop.keeps_page⟩
  · exact ⟨Q.heard o, by rw [State.moved_getElem?_other s S' o hk, hQ]; rfl, Q.heard_ext o, fun _ => rfl, rfl, rfl, rfl, rfl, rfl,
      rfl, rfl, fun _ => rfl, fun _ _ => rfl, fun _ _ _ => rfl⟩

end Sys2Proof.Machine
end

section
/-! A slave's step: which meaning it runs (R141, R112), the silent aborts (R256), and what each continuation does with the echo it
has discarded (R113). -/

namespace Sys2Proof.Machine

/-! ## The meaning a step runs -/

/-- Settles O17: the receive of the slave's phase gives the word, and the position of that phase reads it. -/
theorem slaveStepRunsDecodedWord : Obligations.SlaveStepRunsDecodedWord := by
  intro s k S ts
  refine ⟨fun hnext => ⟨fun w ws i hp ha hr hd => step_main hnext hp ha hr hd, ?held, ?operand⟩, ?collides⟩
  case held =>
    intro hp ha
    have hdec : decodeMain S.selected S.mode S.board.registered (Word.address S.heldAddr) = .addr S.heldAddr :=
      Except.ok.inj (decode_mainLoop_address ..)
    rw [step_slaveNext hnext (fetchSlave_main hnext.slave_eq hnext.collides_eq_false hp (Slave.takeMain_held ha)), hdec]
    rfl
  case operand =>
    intro w ws i hop ha hr hd
    have hfetch := fetchSlave_operand (s := { s with agenda := ts }) hnext.slave_eq hnext.collides_eq_false hop
    obtain ⟨hpend, -⟩ | ⟨-, hnil, -⟩ | ⟨-, a, ws', hr', -⟩ | ⟨-, d, ws', hr', hok⟩ := S.recvData_cases
    · cases ha.symm.trans hpend
    · cases hr.symm.trans hnil
    · obtain ⟨rfl, rfl⟩ := List.cons.inj (hr.symm.trans hr')
      cases (decode_operand_address a).symm.trans hd
    · obtain ⟨rfl, rfl⟩ := List.cons.inj (hr.symm.trans hr')
      obtain rfl : Instr.data d = i := Except.ok.inj ((decode_operand_data d).symm.trans hd)
      rw [hok] at hfetch
      exact step_slaveNext hnext hfetch
  case collides =>
    intro j Q hag hS hsel hj hQ hQsel haddr
    have hcol : State.collides { s with agenda := ts } k S = true := by
      rw [← Bool.not_eq_false, collides_eq_false]
      exact fun halone => halone hsel j Q hj hQ hQsel haddr
    exact (step_of_agenda hag).trans (congrArg Fetched.result (fetchSlave_collides (s := { s with agenda := ts }) hS hcol))

/-! ## Aborts -/

/-- A data receive that fails ends the command (R112, R256). -/
theorem step_operand_err {s : State} {k : Nat} {S S' : Slave} {ts : List Turn} {e : ErrKind} (h : s.SlaveNext k S ts)
    (hop : S.phase.awaitsOperand = true) (hr : S.recvData = .err e S') :
    step s = .next ((s.turnOf k ts).putSlave S'.abort) := by
  have hfetch := fetchSlave_operand (s := { s with agenda := ts }) h.slave_eq h.collides_eq_false hop
  rw [hr] at hfetch
  exact step_slaveNext h hfetch

/-- Settles O19: the two receive errors and the timeout each put the slave back to Main by `abort`. -/
theorem operandErrorAbortsSilently : Obligations.OperandErrorAbortsSilently := by
  intro s k S ts hS halone hop
  refine ⟨fun hag ha => ?held, fun a ws hag ha hr => ?address, fun hag ha hr hfinite => ?timeout⟩
  case held =>
    have herr : S.recvData = .err .invalidAddress S := if_pos ha
    exact ⟨_, step_operand_err ⟨hag, hS, halone⟩ hop herr, onlySlave_putSlave (s := s.turnOf k ts) hS _⟩
  case address =>
    have herr : S.recvData = .err .invalidAddress { S with rx := ws, addressPending := true, heldAddr := a } := by
      simp [Slave.recvData, ha, Slave.recv_cons hr]
    exact ⟨_, step_operand_err ⟨hag, hS, halone⟩ hop herr, onlySlave_putSlave (s := s.turnOf k ts) hS _⟩
  case timeout =>
    have hout : S.recvTimesOut = true := by simp [Slave.recvTimesOut, ha, hr, hfinite]
    have hstep : step s = .next ((s.turnOf k ts).putSlave S.abort) := by
      rw [step_of_agenda hag, fetch, Fetched.result, timeoutSlave]
      simp [hS, hop, hout, State.turnOf]
    exact ⟨_, hstep, onlySlave_putSlave (s := s.turnOf k ts) hS _⟩

/-! ## The echo discard -/

/-- Settles O20: `resume` names the phase, and the word discarded is not looked at. -/
theorem echoDiscardResumes : Obligations.EchoDiscardResumes :=
  fun _ _ _ _ _ _ _ _ hnext hp hr hph => step_echo_resume hnext hp hr hph

/-- Another slave with an address is found at the same place whatever the active slave is replaced with. -/
theorem sharesAddress_putSlave (s : State) (R S' : Slave) :
    (s.putSlave R).sharesAddress s.active S' = s.sharesAddress s.active S' := by
  rw [Bool.eq_iff_iff, sharesAddress_eq_true, sharesAddress_eq_true]
  refine exists_congr fun j => exists_congr fun Q => and_congr_right fun hj => ?_
  rw [State.putSlave_slaves, List.getElem?_set_ne (Ne.symm hj)]

theorem takesUsedAddress_putSlave (s : State) (R S S' : Slave) :
    (s.putSlave R).takesUsedAddress S S' = s.takesUsedAddress S S' := by
  simp only [State.takesUsedAddress, State.putSlave_active, sharesAddress_putSlave]

/-- Settles O21: `run cont` commits the slave that has just lost its oldest word, and asks about its new address before it is put back. -/
theorem commitRunsWithLastEchoDiscard : Obligations.CommitRunsWithLastEchoDiscard := by
  intro s k S ts w ws p hnext hp hr hpage
  have hC := Slave.commit_some (p := p) (S := { S with
    rx := ws, addressPending := w.isAddress || S.addressPending, heldAddr := if w.isAddress then w.payload else S.heldAddr }) hpage
  have hstep := step_echo hnext hp (Slave.recv_cons hr)
  refine ⟨_, Slave.commit_some hpage, fun hmay => ?commits, fun hne hused => ?refused⟩
  case commits =>
    have hrun := hstep.trans (runCont_commit hC (by
      rw [takesUsedAddress_putSlave]
      exact takesUsedAddress_eq_false.2 hmay))
    rw [State.putSlave_putSlave] at hrun
    exact ⟨_, hrun, onlySlave_putSlave (s := s.turnOf k ts) hnext.slave_eq _⟩
  case refused =>
    exact hstep.trans (runCont_commit_used hC (by
      rw [takesUsedAddress_putSlave]
      exact takesUsedAddress_eq_true.2 ⟨hne, hused⟩))

/-- Settles O22: `mode_switch` names every field it starts anew. -/
theorem modeSwitchStartsNewSession : Obligations.ModeSwitchStartsNewSession := by
  intro s k S ts w ws m hnext hp hr
  have hstep := step_echo hnext hp (Slave.recv_cons hr)
  rw [runCont, State.putSlave_putSlave] at hstep
  refine ⟨_, _, hstep, onlySlave_putSlave (s := s.turnOf k ts) hnext.slave_eq _, rfl, rfl, rfl, rfl, rfl, rfl, rfl, rfl, ?_,
    fun _ => rfl, fun _ => rfl, rfl⟩
  cases m <;> rfl

/-- Settles O23: `send_list` on what is left of the list. -/
theorem deviceRepliesContinue : Obligations.DeviceRepliesContinue := by
  intro s k S ts w ws hnext hr
  refine ⟨fun hp => ?last, fun r rest hp => ?next⟩
  case last =>
    have hstep := step_echo hnext hp (Slave.recv_cons hr)
    rw [runCont, State.sendList, State.putSlave_putSlave] at hstep
    exact ⟨_, hstep, onlySlave_putSlave (s := s.turnOf k ts) hnext.slave_eq _⟩
  case next =>
    have hstep := step_echo hnext hp (Slave.recv_cons hr)
    rw [runCont, State.sendList, State.reply, State.putSlave_putSlave] at hstep
    exact ⟨_, hstep, transmits_reply (s := s.turnOf k ts) hnext.slave_eq _ _ _⟩

end Sys2Proof.Machine
end

section
/-! The page programmer end to end (R191, R200, R201): opening a page, writing bytes around its end, committing them, and reading them
back. -/

namespace Sys2Proof

/-! ## Flash words (R53, R197) -/

theorem flashWords_length (bs : List Byte) : (flashWords bs).length = bs.length / 2 := by
  induction bs using flashWords.induct with
  | case1 lo hi bs ih => simp only [flashWords, List.length_cons, ih]; omega
  | case2 bs hshort =>
    match bs, hshort with
    | [], _ => rfl
    | [_], _ => simp [flashWords]
    | lo :: hi :: bs, hshort => exact absurd rfl (hshort lo hi bs)

theorem flashWords_getElem? {bs : List Byte} {lo hi : Byte} : ∀ {j : Nat}, bs[2 * j]? = some lo → bs[2 * j + 1]? = some hi →
    (flashWords bs)[j]? = some (lo.setWidth 16 ||| (hi.setWidth 16 <<< 8)) := by
  induction bs using flashWords.induct with
  | case1 lo' hi' bs ih =>
    intro j hlo hhi
    cases j with
    | zero => cases hlo; cases hhi; rfl
    | succ j => exact ih (j := j) hlo hhi
  | case2 bs hshort =>
    intro j hlo hhi
    match bs, hshort with
    | [], _ => cases hlo
    | [_], _ => simp at hhi
    | lo :: hi :: bs, hshort => exact absurd rfl (hshort lo hi bs)

/-- Settles O37: programming the words is writing the bytes they were rebuilt from. -/
theorem flashWordsAreLittleEndian : Obligations.FlashWordsAreLittleEndian := by
  intro bs m base heven
  rw [Memory.programWords_flashWords m base bs heven]
  refine ⟨flashWords_length bs, fun j lo hi => flashWords_getElem?, fun i b hb => ?written, fun a ha => ?other⟩
  case written =>
    have hi := (List.getElem?_eq_some_iff.1 hb).1
    rw [Memory.read_writeBytes, if_pos (by omega), Nat.add_sub_cancel_left, List.getD, hb, Option.getD_some]
  case other => rw [Memory.read_writeBytes, if_neg (by omega)]

/-! ## The map -/

/-- Settles O34: base and offset are the page's number and the place in it, and a range of the map holds whole pages. -/
theorem pagesAreWholeInTheMap : Obligations.PagesAreWholeInTheMap := fun b addr =>
  ⟨(b.classify_pageBase addr).symm, b.pageBase_add_offset addr, b.pageOffset_lt addr,
    b.aligned_mod (b.pageBase_and_mask addr), fun hclass => b.eeOffset_pageBase addr (by rw [hclass]; exact Option.some_ne_none _)⟩

end Sys2Proof

namespace Sys2Proof.Machine

/-- Settles O33: the buffer opened is `Slave.opened`, whose bytes are known at every offset. -/
theorem setAddressOpensPage : Obligations.SetAddressOpensPage := fun S addr =>
  ⟨fun reg hreg => ⟨_, S.opened addr reg, Slave.setAddress_some hreg, rfl, rfl, rfl, S.pageContents_length reg _, rfl, rfl,
    fun _ hi => S.pageContents_getElem? reg _ hi⟩, fun hreg => Slave.setAddress_none hreg⟩

/-! ## Writing several bytes -/

/-- The buffer after `set_byte` of each byte of a list. -/
def PageBuffer.putAll (n : Nat) : PageBuffer → List Byte → PageBuffer
  | p, [] => p
  | p, b :: bs => PageBuffer.putAll n (p.put n b) bs

theorem setBytes_eq_putAll {S : Slave} {p : PageBuffer} (h : S.page = some p) (bs : List Byte) :
    setBytes S bs = some { S with page := some (p.putAll S.board.pageSize bs) } := by
  induction bs generalizing S p with
  | nil => obtain ⟨⟩ := S; subst h; rfl
  | cons b bs ih => rw [setBytes, Slave.setByte_some h]; exact ih rfl

section
variable (n : Nat) (p : PageBuffer) (bs : List Byte)

@[simp] theorem PageBuffer.putAll_pageBase : (p.putAll n bs).pageBase = p.pageBase := by
  induction bs generalizing p with
  | nil => rfl
  | cons b bs ih => exact ih _

@[simp] theorem PageBuffer.putAll_region : (p.putAll n bs).region = p.region := by
  induction bs generalizing p with
  | nil => rfl
  | cons b bs ih => exact ih _

@[simp] theorem PageBuffer.putAll_bytes_length : (p.putAll n bs).bytes.length = p.bytes.length := by
  induction bs generalizing p with
  | nil => rfl
  | cons b bs ih => exact (ih _).trans List.length_set

theorem PageBuffer.putAll_dirty (h : bs ≠ [] ∨ p.dirty = true) : (p.putAll n bs).dirty = true := by
  induction bs generalizing p with
  | nil => exact h.resolve_left (absurd rfl)
  | cons b bs ih => exact ih _ (.inr rfl)

end

/-- Fewer steps than a page has bytes do not come back to the cursor. -/
theorem cursor_add_mod_ne {n c i : Nat} (hc : c < n) (hi : i + 1 < n) : (c + (i + 1)) % n ≠ c := by
  by_cases hlt : c + (i + 1) < n
  · rw [Nat.mod_eq_of_lt hlt]; omega
  · rw [Nat.mod_eq_sub_mod (by omega), Nat.mod_eq_of_lt (by omega)]; omega

/-- The place of byte `i + 1` from a cursor is that of byte `i` from the next cursor. -/
theorem next_cursor_add_mod (n c i : Nat) : ((c + 1) % n + i) % n = (c + (i + 1)) % n := by
  rw [Nat.mod_add_mod, Nat.add_assoc, Nat.add_comm 1]

/-- A byte no write falls on stays. -/
theorem PageBuffer.putAll_getElem?_other {n x : Nat} {p : PageBuffer} {bs : List Byte} (hc : p.cursor < n)
    (hx : ∀ i, i < bs.length → (p.cursor + i) % n ≠ x) : (p.putAll n bs).bytes[x]? = p.bytes[x]? := by
  induction bs generalizing p with
  | nil => rfl
  | cons b bs ih =>
    have hhead : p.cursor ≠ x := by
      have := hx 0 (Nat.succ_pos _)
      rwa [Nat.add_zero, Nat.mod_eq_of_lt hc] at this
    have htail := ih (p := p.put n b) (Nat.mod_lt _ (by omega)) fun i hi => by
      rw [PageBuffer.put_cursor, next_cursor_add_mod]
      exact hx (i + 1) (Nat.succ_lt_succ hi)
    exact htail.trans (List.getElem?_set_ne hhead)

/-- At most a page of bytes: each is where the cursor, wrapping at the end of the page, put it (R201). -/
theorem PageBuffer.putAll_getElem?_written {n : Nat} {p : PageBuffer} {bs : List Byte} (hc : p.cursor < n)
    (hlen : p.bytes.length = n) (hle : bs.length ≤ n) {i : Nat} (hi : i < bs.length) :
    (p.putAll n bs).bytes[(p.cursor + i) % n]? = bs[i]? := by
  induction bs generalizing p i with
  | nil => cases hi
  | cons b bs ih =>
    simp only [List.length_cons] at hle hi
    have hc' : (p.put n b).cursor < n := Nat.mod_lt _ (by omega)
    have hlen' : (p.put n b).bytes.length = n := List.length_set.trans hlen
    cases i with
    | zero =>
      have hother := PageBuffer.putAll_getElem?_other (x := p.cursor) (bs := bs) hc' fun i hi => by
        rw [PageBuffer.put_cursor, next_cursor_add_mod]
        exact cursor_add_mod_ne hc (by omega)
      rw [Nat.add_zero, Nat.mod_eq_of_lt hc]
      exact hother.trans (List.getElem?_set_self (hlen ▸ hc))
    | succ i =>
      have hrest := ih hc' hlen' (by omega) (i := i) (by omega)
      rw [PageBuffer.put_cursor, next_cursor_add_mod] at hrest
      exact hrest

/-! ## Reading several bytes -/

/-- `get_byte` `n` times reads on from the cursor, wrapping at the end of the page (R193). -/
theorem getBytes_page {S : Slave} {p : PageBuffer} (h : S.page = some p) (hc : p.cursor < S.board.pageSize) (n : Nat) :
    ∃ l S', getBytes S n = some (l, S') ∧ l.length = n ∧
      ∀ i, i < n → l[i]? = some (p.bytes.getD ((p.cursor + i) % S.board.pageSize) 0) := by
  induction n generalizing S p with
  | zero => exact ⟨[], S, rfl, rfl, fun i hi => absurd hi (Nat.not_lt_zero i)⟩
  | succ n ih =>
    obtain ⟨l, S', hget, hl, hread⟩ := ih (S := { S with page := some (p.advance S.board.pageSize) }) rfl
      (Nat.mod_lt _ S.board.pageSize_pos)
    refine ⟨p.bytes.getD p.cursor 0 :: l, S', ?_, congrArg (· + 1) hl, fun i hi => ?_⟩
    · rw [getBytes, Slave.getByte_some h]
      simp only [Option.bind_some, hget, Option.map_some]
    · cases i with
      | zero => rw [Nat.add_zero, Nat.mod_eq_of_lt hc]; rfl
      | succ i =>
        have hi := hread i (by omega)
        rw [PageBuffer.advance_cursor, next_cursor_add_mod] at hi
        exact hi

/-- Reading a freshly opened page: the bytes of the page from the address on, around its end. -/
theorem getBytes_opened (S : Slave) (addr : BitVec 32) (reg : Region) (n : Nat) :
    ∃ l S', getBytes { S with page := some (S.opened addr reg) } n = some (l, S') ∧ l.length = n ∧ ∀ i, i < n →
      l[i]? = some ((S.pageContents reg (S.board.pageBase addr)).getD ((S.board.pageOffset addr + i) % S.board.pageSize) 0) :=
  getBytes_page (S := { S with page := some (S.opened addr reg) }) rfl (S.board.pageOffset_lt addr) n

/-! ## Through the medium and back -/

/-- The slave after a commit of `p`. -/
def Slave.committed (S : Slave) (p : PageBuffer) : Slave :=
  { S with page := some p.clean, flash := S.flashAfter p, eeprom := S.eepromAfter p }

/-- The buffer after `set_address` and `set_byte` of each byte of a list. -/
def Slave.filled (S : Slave) (addr : BitVec 32) (reg : Region) (bs : List Byte) : PageBuffer :=
  (S.opened addr reg).putAll S.board.pageSize bs

theorem Slave.filled_bytes_length (S : Slave) (addr : BitVec 32) (reg : Region) (bs : List Byte) :
    (S.filled addr reg bs).bytes.length = S.board.pageSize :=
  (PageBuffer.putAll_bytes_length ..).trans (S.pageContents_length reg _)

theorem Slave.filled_region (S : Slave) (addr : BitVec 32) (reg : Region) (bs : List Byte) :
    (S.filled addr reg bs).region = reg := PageBuffer.putAll_region ..

theorem Slave.filled_pageBase (S : Slave) (addr : BitVec 32) (reg : Region) (bs : List Byte) :
    (S.filled addr reg bs).pageBase = S.board.pageBase addr := PageBuffer.putAll_pageBase ..

/-- After the commit of a dirty page that is not protected, opening it again shows its bytes (R191, R195). -/
theorem Slave.pageContents_committed {S : Slave} {p : PageBuffer} (hlen : p.bytes.length = S.board.pageSize)
    (hdirty : p.dirty = true) (hreg : p.region = .appArea ∨ p.region = .eepromArea) :
    (S.committed p).pageContents p.region p.pageBase = p.bytes := by
  apply List.ext_getElem?
  intro i
  by_cases hi : i < S.board.pageSize
  · rw [(S.committed p).pageContents_getElem? _ _ hi]
    have hget : p.bytes[i]? = some (p.bytes.getD i 0) := by simp [hlen, hi]
    obtain hreg | hreg := hreg <;> simp only [hreg, hget, Option.some.injEq, Slave.committed]
    · rw [Slave.flashAfter_read hlen, if_pos ⟨hdirty, hreg, by omega, by omega⟩, Nat.add_sub_cancel_left]
    · rw [Slave.eepromAfter_read hlen, if_pos ⟨hdirty, hreg, by omega, by omega⟩, Nat.add_sub_cancel_left]
  · rw [List.getElem?_eq_none (by rw [(S.committed p).pageContents_length]; exact Nat.not_lt.1 hi),
      List.getElem?_eq_none (by rw [hlen]; exact Nat.not_lt.1 hi)]

/-- The page as it is opened again after the bytes were written and committed holds byte `i` at the `i`-th place from the address. -/
theorem Slave.pageContents_committed_filled {S : Slave} {addr : BitVec 32} {reg : Region} {bs : List Byte}
    (hreg : reg = .appArea ∨ reg = .eepromArea) (hle : bs.length ≤ S.board.pageSize) {i : Nat} (hi : i < bs.length) :
    ((S.committed (S.filled addr reg bs)).pageContents reg (S.board.pageBase addr))[(S.board.pageOffset addr + i) %
      S.board.pageSize]? = bs[i]? := by
  have hne : bs ≠ [] := List.ne_nil_of_length_pos (Nat.zero_lt_of_lt hi)
  have hcontents := Slave.pageContents_committed (S.filled_bytes_length addr reg bs) (PageBuffer.putAll_dirty _ _ _ (.inl hne))
    ((S.filled_region addr reg bs).symm ▸ hreg)
  rw [S.filled_region, S.filled_pageBase] at hcontents
  rw [hcontents]
  exact PageBuffer.putAll_getElem?_written (S.board.pageOffset_lt addr) (S.pageContents_length reg _) hle hi

/-- Settles O38: the bytes go to consecutive places from the cursor, around the end of the page; the medium holds the page; and the
same places are read again. -/
theorem committedBytesReadBack : Obligations.CommittedBytesReadBack := by
  intro S addr bs hclass hle
  obtain ⟨reg, hreg, hkind⟩ : ∃ reg, S.board.classify (S.board.pageBase addr) = some reg ∧ (reg = .appArea ∨ reg = .eepromArea) :=
    hclass.elim (fun h => ⟨_, h, .inl rfl⟩) fun h => ⟨_, h, .inr rfl⟩
  obtain ⟨l, S5, hget, hl, hread⟩ := getBytes_opened (S.committed (S.filled addr reg bs)) addr reg bs.length
  have hback : l = bs := by
    refine List.ext_getElem? fun i => ?_
    by_cases hi : i < bs.length
    · have hbyte := (Slave.pageContents_committed_filled (addr := addr) hkind hle hi).trans (List.getElem?_eq_getElem hi)
      rw [hread i hi, List.getElem?_eq_getElem hi]
      exact congrArg (fun x => some (x.getD 0)) hbyte
    · rw [List.getElem?_eq_none (by omega), List.getElem?_eq_none (by omega)]
  subst hback
  exact ⟨_, _, S.committed (S.filled addr reg l), _, S5, Slave.setAddress_some hreg, setBytes_eq_putAll rfl l,
    Slave.commit_some rfl, Slave.setAddress_some hreg, hget⟩

/-- A protected page commits to neither medium (R57, R195). -/
theorem Slave.committed_protected {S : Slave} {p : PageBuffer} (h : p.region = .bootloaderArea) :
    (S.committed p).flash = S.flash ∧ (S.committed p).eeprom = S.eeprom := by
  constructor
  · exact if_neg fun hc => by rw [h] at hc; cases hc.2
  · exact if_neg fun hc => by rw [h] at hc; cases hc.2

/-- Settles O39: the bytes written stay in the buffer, and a protected page opens as 0xFF at every offset. -/
theorem bootloaderAreaReadsBlankAndDropsWrites : Obligations.BootloaderAreaReadsBlankAndDropsWrites := by
  intro S addr bs n hreg
  obtain ⟨hflash, heeprom⟩ := Slave.committed_protected (S.filled_region addr .bootloaderArea bs)
  obtain ⟨l, S5, hget, hl, hread⟩ := getBytes_opened (S.committed (S.filled addr .bootloaderArea bs)) addr .bootloaderArea n
  have hblank : l = List.replicate n 0xFF := by
    refine List.ext_getElem? fun i => ?_
    by_cases hi : i < n
    · have hplace := Nat.mod_lt (S.board.pageOffset addr + i) S.board.pageSize_pos
      have hbyte := (S.committed (S.filled addr .bootloaderArea bs)).pageContents_getElem? .bootloaderArea
        (S.board.pageBase addr) hplace
      rw [hread i hi, List.getElem?_replicate_of_lt hi]
      exact congrArg (fun x => some (x.getD 0)) hbyte
    · rw [List.getElem?_eq_none (by omega), List.getElem?_eq_none (by simp; omega)]
  subst hblank
  exact ⟨_, _, S.committed (S.filled addr .bootloaderArea bs), _, S5, Slave.setAddress_some hreg, setBytes_eq_putAll rfl bs,
    Slave.commit_some rfl, hflash, heeprom, Slave.setAddress_some hreg, hget⟩

end Sys2Proof.Machine
end

section
/-! The link codec (R120 to R129): what each link byte does, that a link byte always ends in a next state, and that the two bytes of a
word put it on the bus. -/

namespace Sys2Proof

/-- The word of two halves as a number (R85); the 512 pairs are checked one by one. -/
theorem wordOfHalves_toNat (h : BitVec 5) (l : BitVec 4) : (wordOfHalves h l).toNat = 16 * h.toNat + l.toNat := by
  revert h l; decide

end Sys2Proof

namespace Sys2Proof.Machine

/-! ## Each link byte -/

section
variable {s : State}

theorem exec_linkHi_empty (hl : s.link.hiLatch = none) (h : BitVec 5) :
    exec (.linkHi h) s = .next { s with link := { s.link with hiLatch := some h } } := by
  rw [exec, execLinkHi, hl]

theorem exec_linkHi_latched (hl : s.link.hiLatch ≠ none) (h : BitVec 5) : exec (.linkHi h) s = .next s.setFault := by
  obtain ⟨g, hg⟩ := Option.ne_none_iff_exists'.1 hl
  rw [exec, execLinkHi, hg]

theorem exec_linkLo_empty (hl : s.link.hiLatch = none) (l : BitVec 4) : exec (.linkLo l) s = .next s.setFault := by
  rw [exec, execLinkLo, hl]

theorem exec_linkLo_latched {h : BitVec 5} (hl : s.link.hiLatch = some h) (l : BitVec 4) :
    exec (.linkLo l) s = .next (State.busTx { s with link := { s.link with hiLatch := none } } (wordOfHalves h l)) := by
  rw [exec, execLinkLo, hl]

theorem exec_linkReserved (b : Byte) (s : State) : exec (.linkReserved b) s = .next s.setFault := rfl

end

/-- Settles O46: the latch decides between the two halves, and a complete word is one `BusTx`. -/
theorem linkHalvesTransmitOneWord : Obligations.LinkHalvesTransmitOneWord := by
  intro s h l b
  exact ⟨fun hl => exec_linkHi_empty hl h, fun hl => exec_linkHi_latched hl h, fun hl => exec_linkLo_empty hl l,
    fun hl => ⟨_, wordOfHalves h l, exec_linkLo_latched hl l, wordOfHalves_toNat h l, linkTook_deliver _ _ _, rfl, rfl⟩,
    exec_linkReserved b s⟩

/-- Settles O47: the words are the first of the FIFO, at most `DRAIN_MAX`. -/
theorem linkDrainReportsOldestWords : Obligations.LinkDrainReportsOldestWords := fun s =>
  ⟨_, s.link.fifo.take drainMax, rfl, List.length_take.trans (Nat.min_comm _ _), (List.take_append_drop _ _).symm, rfl, rfl⟩

/-! ## What a link byte can change -/

/-- `t` is `s` after the link byte `i`: the link, and one word at the end of every queue where `LINK_LO` completed it. -/
structure LinkRan (i : Instr) (s t : State) (ext : List Word) : Prop where
  params_eq : t.params = s.params
  slaves_eq : t.slaves = s.slaves.map fun Q => { Q with rx := Q.rx ++ ext }
  master_eq : t.master = s.master
  active_eq : t.active = s.active
  calls_eq : t.calls = s.calls
  returns_eq : t.returns = s.returns
  agenda_eq : t.agenda = s.agenda
  ticks_eq : t.ticks = s.ticks
  h2x_eq : t.link.h2x = s.link.h2x
  x2h_eq : i ≠ .linkDrain → t.link.x2h = s.link.x2h
  latch_eq : (∀ h, i ≠ .linkHi h) → (∀ l, i ≠ .linkLo l) → t.link.hiLatch = s.link.hiLatch
  ext_length : ext.length ≤ 1
  ext_nil : (∀ l, i ≠ .linkLo l) → ext = []
  fifo_le : s.link.fifo.length ≤ s.params.xfifoDepth → t.link.fifo.length ≤ s.params.xfifoDepth

/-- Adding no words to the queues changes no slave. -/
theorem map_rx_append_nil (l : List Slave) : l.map (fun Q => { Q with rx := Q.rx ++ [] }) = l := by
  simp

/-- A full FIFO takes no word (R128). -/
theorem deliver_fifo_le {d : Nat} {w : Word} {X : Link} (h : X.fifo.length ≤ d) : (X.deliver d w).fifo.length ≤ d := by
  rw [Link.deliver_fifo]
  split
  case isTrue hroom => rw [List.length_append]; exact hroom
  case isFalse => exact h

/-- A fault changes the link alone. -/
theorem linkRan_setFault (i : Instr) (s : State) : LinkRan i s s.setFault [] where
  params_eq := rfl
  slaves_eq := (map_rx_append_nil _).symm
  master_eq := rfl
  active_eq := rfl
  calls_eq := rfl
  returns_eq := rfl
  agenda_eq := rfl
  ticks_eq := rfl
  h2x_eq := rfl
  x2h_eq _ := rfl
  latch_eq _ _ := rfl
  ext_length := Nat.zero_le 1
  ext_nil _ := rfl
  fifo_le := id

theorem execLinkHi_ran (h : BitVec 5) (s : State) : ∃ t ext, exec (.linkHi h) s = .next t ∧ LinkRan (.linkHi h) s t ext := by
  by_cases hl : s.link.hiLatch = none
  · refine ⟨_, [], exec_linkHi_empty hl h, ?_⟩
    exact ⟨rfl, (map_rx_append_nil _).symm, rfl, rfl, rfl, rfl, rfl, rfl, rfl, fun _ => rfl, fun hne => absurd rfl (hne h),
      Nat.zero_le 1, fun _ => rfl, id⟩
  · exact ⟨_, [], exec_linkHi_latched hl h, linkRan_setFault _ s⟩

theorem execLinkLo_ran (l : BitVec 4) (s : State) : ∃ t ext, exec (.linkLo l) s = .next t ∧ LinkRan (.linkLo l) s t ext := by
  cases hl : s.link.hiLatch with
  | none => exact ⟨_, [], exec_linkLo_empty hl l, linkRan_setFault _ s⟩
  | some h =>
    refine ⟨_, [wordOfHalves h l], exec_linkLo_latched hl l, ?_⟩
    exact ⟨rfl, rfl, rfl, rfl, rfl, rfl, rfl, rfl, Link.deliver_h2x .., fun _ => Link.deliver_x2h .., fun _ hne => absurd rfl (hne l),
      Nat.le_refl 1, fun hne => absurd rfl (hne l),
      deliver_fifo_le (X := { s.link with hiLatch := none })⟩

theorem execLinkDrain_ran (s : State) : ∃ t ext, exec .linkDrain s = .next t ∧ LinkRan .linkDrain s t ext :=
  ⟨_, [], rfl, rfl, (map_rx_append_nil _).symm, rfl, rfl, rfl, rfl, rfl, rfl, rfl, fun hne => absurd rfl hne, fun _ _ => rfl,
    Nat.zero_le 1, fun _ => rfl, fun h => (List.length_drop ▸ Nat.sub_le _ _ : _ ≤ s.link.fifo.length).trans h⟩

/-- A link byte always ends in a next state (R120 to R127). -/
theorem exec_link_ran {i : Instr} (hi : Position.link.admits i = true) (s : State) :
    ∃ t ext, exec i s = .next t ∧ LinkRan i s t ext := by
  cases i
  case linkHi h => exact execLinkHi_ran h s
  case linkLo l => exact execLinkLo_ran l s
  case linkDrain => exact execLinkDrain_ran s
  case linkReserved b => exact ⟨_, [], exec_linkReserved b s, linkRan_setFault _ s⟩
  all_goals cases hi

/-! ## `X`'s turn -/

theorem fetchLink_byte {s : State} {b : Byte} {bs : List Byte} (hf : s.link.fault = false) (hb : s.link.h2x = b :: bs) :
    fetchLink s = .run (decodeLink b) { s with link := { s.link with h2x := bs } } := by
  simp [fetchLink, hf, hb]

theorem fetchLink_faulted {s : State} (hf : s.link.fault = true) : fetchLink s = .done (.next s) := if_pos hf

theorem fetchLink_empty {s : State} (hb : s.link.h2x = []) : fetchLink s = .done (.next s) := by
  simp [fetchLink, hb]

/-- `X` takes the oldest byte of `L.h2x` (R120). -/
theorem step_link {s : State} {ts : List Turn} {b : Byte} {bs : List Byte} (hag : s.agenda = .link :: ts)
    (hf : s.link.fault = false) (hb : s.link.h2x = b :: bs) :
    step s = exec (decodeLink b) { s with agenda := ts, link := { s.link with h2x := bs } } :=
  (step_of_agenda hag).trans (congrArg Fetched.result (fetchLink_byte (s := { s with agenda := ts }) hf hb))

/-- One more step of a run. -/
theorem run_succ {s t : State} (h : step s = .next t) (n : Nat) : Host.Core.run core (n + 1) s = Host.Core.run core n t := by
  simp only [Host.Core.run, core, h]

/-- Settles O48: `LINK_HI` latches the word's high half, `LINK_LO` completes it. -/
theorem sentWordReachesTheBus : Obligations.SentWordReachesTheBus := by
  intro s w bs ts hag hf hl hb
  have hfirst := step_link hag hf hb
  rw [decodeLink_enc2_fst,
    exec_linkHi_empty (s := { s with agenda := .link :: ts, link := { s.link with h2x := (enc2 w).2 :: bs } }) hl] at hfirst
  have hsecond := step_link (s := { s with
    agenda := .link :: ts
    link := { s.link with h2x := (enc2 w).2 :: bs, hiLatch := some ((w >>> 4).setWidth 5) } }) rfl hf rfl
  rw [decodeLink_enc2_snd, exec_linkLo_latched rfl, wordOfHalves_split] at hsecond
  have htook := linkTook_deliver s.params.xfifoDepth w { s.link with h2x := bs, hiLatch := none }
  exact ⟨_, (run_succ hfirst 1).trans (run_succ hsecond 0),
    ⟨htook.room, htook.full, htook.latch_eq.trans hl.symm, htook.h2x_eq, htook.x2h_eq⟩, rfl, rfl⟩

end Sys2Proof.Machine
end

section
/-! The master's driver (R220 to R232): how an operation starts, what each byte of a drain response does, and how `host_recv` goes on
over the words of its ring. -/

namespace Sys2Proof

/-- The 9th bit and the payload of a drained word (R87, R89). -/
theorem drainWord_eq (m : BitVec 5) (c j : Nat) (p : Byte) :
    drainWord m c j p = if m.getLsbD (drainMarkerMap j c) then Word.address p else Word.data p := by
  unfold drainWord
  generalize m.getLsbD (drainMarkerMap j c) = b
  revert b p; decide

theorem drainWord_payload (m : BitVec 5) (c j : Nat) (p : Byte) : (drainWord m c j p).payload = p := by
  rw [drainWord_eq]; split <;> simp

theorem drainWord_isAddress (m : BitVec 5) (c j : Nat) (p : Byte) :
    (drainWord m c j p).isAddress = m.getLsbD (c - 1 - j) := by
  rw [drainWord_eq]; split <;> simp_all [drainMarkerMap]

end Sys2Proof

namespace Sys2Proof.Machine

/-! ## Starting an operation (R232) -/

theorem fetchMaster_start {s : State} {call : Call} {cs : List Call} (hp : s.master.phase = .idle) (hc : s.calls = call :: cs) :
    fetchMaster s = .done (startCall false call { s with calls := cs }) := by
  rw [fetchMaster, hp, hc]

theorem fetchMaster_noCall {s : State} (hp : s.master.phase = .idle) (hc : s.calls = []) : fetchMaster s = .done (.next s) := by
  rw [fetchMaster, hp, hc]

theorem fetchMaster_sleep {s : State} {call : Call} (hp : s.master.phase = .sleep call) :
    fetchMaster s = .done (.next (s.finish .done)) := by
  rw [fetchMaster, hp]

theorem step_start {s : State} {ts : List Turn} {call : Call} {cs : List Call} (hag : s.agenda = .master :: ts)
    (hp : s.master.phase = .idle) (hc : s.calls = call :: cs) :
    step s = startCall false call { s with agenda := ts, calls := cs } :=
  (step_of_agenda hag).trans (congrArg Fetched.result (fetchMaster_start (s := { s with agenda := ts }) hp hc))

theorem startCall_argError {call : Call} {k : ErrKind} (h : call.argError = some k) (late : Bool) (s : State) :
    startCall late call s = .next (s.raise k) := by
  rw [startCall, h]

theorem startCall_badLength {call : Call} (h : call.argError = none) (hl : call.lengthOk = false) (late : Bool) (s : State) :
    startCall late call s = .refused .writeListLength := by
  rw [startCall, h, hl]; rfl

theorem startCall_begin {call : Call} (h : call.argError = none) (hl : call.lengthOk = true) (late : Bool) (s : State) :
    startCall late call s = .next ((beginCall call s).settle late) := by
  rw [startCall, h, hl]; rfl

/-- An operation with exchanges begins with the word of the first, and `host_recv` goes on over the ring (R222). -/
theorem beginCall_exchange {call : Call} {e : Exchange} (h : call.exchanges[0]? = some e) (s : State) :
    beginCall call s = hostRecv call 0 [] s.master.ring (s.sendExchange e) := by
  cases call with
  | hostSend w => cases h
  | _ => simp only [beginCall, h]

theorem startCall_exchange {call : Call} {e : Exchange} (h : call.argError = none) (hl : call.lengthOk = true)
    (he : call.exchanges[0]? = some e) (late : Bool) (s : State) :
    startCall late call s = .next ((hostRecv call 0 [] s.master.ring (s.sendExchange e)).settle late) := by
  rw [startCall_begin h hl, beginCall_exchange he]

/-- The master of an operation that ends before it began is the one it was. -/
theorem Master.idle_eq {m : Master} (h : m.phase = .idle) : { m with phase := .idle } = m := by
  rw [← h]

/-! ## Argument checks (R227) -/

/-- A buffer operation's arguments: the check of both is the same. -/
theorem argError_buffer {call : Call} {a : Byte} {r : BitVec 32} {n : Nat} {bs : List Byte}
    (h : call = .readBuffer a r n ∨ call = .writeBuffer a r n bs) :
    call.argError = if n < 1 ∨ 256 < n then some .bufferOverrun else if fitsWire r then none else some .invalidAddress := by
  rcases h with rfl | rfl <;> rfl

theorem argError_badCount {call : Call} {a : Byte} {r : BitVec 32} {n : Nat} {bs : List Byte}
    (h : call = .readBuffer a r n ∨ call = .writeBuffer a r n bs) (hn : n = 0 ∨ 256 < n) :
    call.argError = some .bufferOverrun := by
  rw [argError_buffer h, if_pos (by omega)]

theorem argError_wideAddress {call : Call} {a : Byte} {r : BitVec 32} {n : Nat} {bs : List Byte}
    (h : call = .readBuffer a r n ∨ call = .writeBuffer a r n bs) (h1 : 1 ≤ n) (h2 : n ≤ 256) (hr : 2 ^ 24 ≤ r.toNat) :
    call.argError = some .invalidAddress := by
  rw [argError_buffer h, if_neg (by omega), if_neg (mt (fitsWire_iff r).1 (Nat.not_lt.2 hr))]

theorem argError_good {call : Call} {a : Byte} {r : BitVec 32} {n : Nat} {bs : List Byte}
    (h : call = .readBuffer a r n ∨ call = .writeBuffer a r n bs) (h1 : 1 ≤ n) (h2 : n ≤ 256) (hr : r.toNat < 2 ^ 24) :
    call.argError = none := by
  rw [argError_buffer h, if_neg (by omega), if_pos ((fitsWire_iff r).2 hr)]

/-- Settles O51: the argument checks come before the first exchange, the length of the list after them. -/
theorem badArgumentsSendNothing : Obligations.BadArgumentsSendNothing := by
  intro s ts cs a r n bs call hag hp hc hcall
  rw [step_start hag hp hc]
  refine ⟨fun hn => ?count, fun h1 h2 hr => ?address, fun h1 h2 hr hwrite hlen => ?length⟩
  case count =>
    rw [startCall_argError (argError_badCount hcall hn), State.raise, State.finish, Master.idle_eq hp]
  case address =>
    rw [startCall_argError (argError_wideAddress hcall h1 h2 hr), State.raise, State.finish, Master.idle_eq hp]
  case length =>
    refine startCall_badLength (argError_good hcall h1 h2 hr) ?_ false _
    rw [hwrite]
    exact beq_false_of_ne hlen

/-! ## The run over the ring -/

/-- An empty ring asks for a drain (R221, R222). -/
theorem settle_empty_drain (call : Call) (i : Nat) (out : List Byte) (s : State) :
    (hostRecv call i out [] s).settle false = { s with
      link := { s.link with h2x := s.link.h2x ++ [0xB0] }
      master := { s.master with ring := [], phase := .recv call i out false .header } } := rfl

/-- With the deadline passed it ends the operation (R222). -/
theorem settle_empty_late (call : Call) (i : Nat) (out : List Byte) (s : State) :
    (hostRecv call i out [] s).settle true = { s with
      master := { s.master with ring := [], phase := .idle }
      returns := s.returns ++ [.err .timeout] } := rfl

/-- Settles O54: the echoes are thrown away one by one, and the ring is empty. -/
theorem masterDiscardsItsOwnEchoes : Obligations.MasterDiscardsItsOwnEchoes := by
  intro s call i out es hle
  have hechoes := hostRecv_echoes call i out es [] s hle
  rw [List.append_nil] at hechoes
  rw [hechoes, settle_empty_drain, settle_empty_late]
  exact ⟨rfl, rfl⟩

/-- The words that stand for outstanding echoes are gone, and the next word is the reply (R222). -/
theorem hostRecv_reply {s : State} {es : List Word} (h : es.length = s.master.pendingEchoDiscards) (call : Call) (i : Nat)
    (out : List Byte) (w : Word) (ws : List Word) :
    hostRecv call i out (es ++ w :: ws) s =
      hostRecv call i out (w :: ws) { s with master := { s.master with pendingEchoDiscards := 0 } } := by
  rw [hostRecv_echoes call i out es (w :: ws) s h.le, h, Nat.sub_self]

section
variable {call : Call} {i : Nat} {e : Exchange} {out : List Byte} {w : Word}

/-! What a reply is found to be (R223, R260: bit 8 before the value). -/

theorem checkReply_address (he : call.exchanges[i]? = some e) (hw : w.isAddress = true) (hc : e.check ≠ .word) :
    call.checkReply i out w = .error (.err .invalidAddress) := by
  rw [Call.checkReply, he]
  cases hcheck : e.check with
  | word => exact absurd hcheck hc
  | expect v => simp only [hcheck, hw, if_true]
  | data => simp only [hcheck, hw, if_true]

theorem checkReply_otherValue {v : Word} (he : call.exchanges[i]? = some e) (hw : w.isAddress = false) (hc : e.check = .expect v)
    (hne : w ≠ v) : call.checkReply i out w = .error (.err .desync) := by
  simp [Call.checkReply, he, hc, hw, hne]

theorem checkReply_good {out' : List Byte} (he : call.exchanges[i]? = some e) (hw : w.isAddress = false)
    (hgood : (e.check = .expect w ∧ out' = out) ∨ (e.check = .data ∧ out' = out ++ [w.payload])) :
    call.checkReply i out w = .ok out' := by
  obtain ⟨hc, rfl⟩ | ⟨hc, rfl⟩ := hgood <;> simp [Call.checkReply, he, hc, hw]

end

/-- Settles O55: both errors are results of the reply's check, which ends the operation. -/
theorem badReplyEndsTheOperation : Obligations.BadReplyEndsTheOperation := by
  intro s call i out late e es ws w hlen he
  rw [hostRecv_reply hlen]
  refine ⟨fun hw hc => ?address, fun v hw hc hne => ?value⟩
  case address => rw [hostRecv_error rfl (checkReply_address he hw hc)]; rfl
  case value => rw [hostRecv_error rfl (checkReply_otherValue he hw hc hne)]; rfl

/-- Settles O56: a good reply either begins the next exchange or completes the operation. -/
theorem goodReplyGoesOn : Obligations.GoodReplyGoesOn := by
  refine ⟨fun s call i out out' late e es ws w hlen he hw hgood => ⟨fun e' v he' hv => ?next, fun hlast => ?last⟩,
    fun s out late es ws w hlen => ?hostRecv, fun s ts cs w hag hp hc => ?hostSend⟩
  case next =>
    rw [hostRecv_reply hlen, hostRecv_next rfl (checkReply_good he hw hgood) he', sendExchange_some hv]
    rfl
  case last =>
    rw [hostRecv_reply hlen, hostRecv_last rfl (checkReply_good he hw hgood) hlast]
    refine ⟨?_, ?_, ?_⟩
    · rintro a rfl; rfl
    · rintro (⟨a, r, n, rfl⟩ | rfl) <;> rfl
    · rintro (⟨a, rfl⟩ | ⟨a, r, n, bs, rfl⟩ | ⟨v, rfl⟩) <;> rfl
  case hostRecv =>
    rw [hostRecv_reply hlen, hostRecv_error (call := .hostRecv) (r := .word w) rfl rfl]
    rfl
  case hostSend =>
    rw [step_start hag hp hc, startCall_begin rfl rfl]
    simp only [beginCall, Progress.settle, State.finish, State.hostSend, State.linkWrite, hp]

/-! ## The exchanges -/

/-- The first exchange of the four operations selects (R224, R225, R228, R229). -/
theorem exchanges_zero {call : Call} {a : Byte} (h : call = .select a ∨ call = .checkSlave a ∨ (∃ r n, call = .readBuffer a r n) ∨
    ∃ r n bs, call = .writeBuffer a r n bs) : call.exchanges[0]? = some (selectExchange a) := by
  rcases h with rfl | rfl | ⟨r, n, rfl⟩ | ⟨r, n, bs, rfl⟩ <;> rfl

theorem bufferPrefix_length (a op : Byte) (r : BitVec 32) (n : Nat) : (bufferPrefix a op r n).length = 6 := rfl

/-- The count byte as a number: 256 is 0 (R91). -/
theorem countByte_toNat {n : Nat} (h : n ≤ 256) : (countByte n).toNat = if n = 256 then 0 else n := by
  rw [countByte, BitVec.toNat_ofNat]
  split <;> omega

/-- Settles O53: a buffer operation is `buffer_prefix`, six exchanges long, and one exchange for each byte. -/
theorem bufferOperationsExchange : Obligations.BufferOperationsExchange := by
  refine ⟨fun a => ⟨rfl, rfl⟩, ⟨rfl, fun _ => rfl, rfl⟩, fun a r n bs h1 h2 hr hlen => ?_⟩
  refine ⟨r.extractLsb' 16 8, r.extractLsb' 8 8, r.extractLsb' 0 8, countByte n, ?addr, countByte_toNat h2, ?readLength,
    ?writeLength, ?firstSix, fun i hi => ?dummies, fun i b hb => ?bytes⟩
  case addr =>
    simp only [BitVec.extractLsb'_toNat, Nat.shiftRight_eq_div_pow]
    omega
  case readLength =>
    rw [Call.exchanges, List.length_append, bufferPrefix_length, List.length_replicate, Nat.add_comm]
  case writeLength =>
    rw [Call.exchanges, List.length_append, bufferPrefix_length, List.length_map, hlen, Nat.add_comm]
  case firstSix =>
    rintro op call (⟨rfl, rfl⟩ | ⟨rfl, rfl⟩) <;> exact List.take_left' (bufferPrefix_length ..)
  case dummies =>
    rw [Call.exchanges, List.getElem?_append_right (by rw [bufferPrefix_length]; omega), bufferPrefix_length, Nat.add_sub_cancel,
      List.getElem?_replicate_of_lt hi]
    rfl
  case bytes =>
    rw [Call.exchanges, List.getElem?_append_right (by rw [bufferPrefix_length]; omega), bufferPrefix_length, Nat.add_sub_cancel,
      List.getElem?_map, hb]
    rfl

/-- Settles O52: the arguments pass, the first exchange is that of `select`, and a receive has nothing to send. -/
theorem operationsBeginWithSelect : Obligations.OperationsBeginWithSelect := by
  intro s ts cs a call hag hp hc
  refine ⟨fun hcall => ?operation, fun hcall => ?receive⟩
  case operation =>
    have hexch : call.exchanges[0]? = some (selectExchange a) := by
      apply exchanges_zero
      obtain h | h | ⟨r, n, h, -⟩ | ⟨r, n, bs, h, -⟩ := hcall
      · exact .inl h
      · exact .inr (.inl h)
      · exact .inr (.inr (.inl ⟨r, n, h⟩))
      · exact .inr (.inr (.inr ⟨r, n, bs, h⟩))
    have hargs : call.argError = none ∧ call.lengthOk = true := by
      obtain rfl | rfl | ⟨r, n, rfl, h1, h2, hr⟩ | ⟨r, n, bs, rfl, h1, h2, hr, hlen⟩ := hcall
      · exact ⟨rfl, rfl⟩
      · exact ⟨rfl, rfl⟩
      · exact ⟨argError_good (bs := []) (.inl rfl) h1 h2 hr, rfl⟩
      · exact ⟨argError_good (.inr rfl) h1 h2 hr, beq_iff_eq.2 hlen⟩
    have hstep := (step_start hag hp hc).trans (startCall_exchange hargs.1 hargs.2 hexch false _)
    refine ⟨hexch, hstep, fun hring => ?_⟩
    rw [hstep]
    simp only [hring, settle_empty_drain]
    simp [selectExchange, sendExchange_some, Word.address]
  case receive =>
    obtain ⟨e, harg, hlen, he, hsend⟩ : ∃ e, call.argError = none ∧ call.lengthOk = true ∧ call.exchanges[0]? = some e ∧
        e.send = none := by
      obtain rfl | ⟨v, rfl⟩ | rfl := hcall <;> exact ⟨_, rfl, rfl, rfl, rfl⟩
    rw [step_start hag hp hc, startCall_exchange harg hlen he, sendExchange_none hsend]

/-! ## Drain responses -/

section
variable {s : State} {call : Call} {i : Nat} {out : List Byte} {late : Bool}

theorem exec_drainHdr_reserved {c : BitVec 3} (hp : s.master.phase = .recv call i out late .header) (hc : 5 < c.toNat)
    (m : BitVec 5) : exec (.drainHdr m c) s = .next (s.raise .desync) := by
  rw [exec, execDrainHdr, hp]
  exact if_pos hc

theorem exec_drainHdr_zero (hp : s.master.phase = .recv call i out late .header) (m : BitVec 5) :
    exec (.drainHdr m 0) s = .next ((hostRecv call i out s.master.ring s).settle late) := by
  rw [exec, execDrainHdr, hp]; rfl

theorem exec_drainHdr_count {c : BitVec 3} (hp : s.master.phase = .recv call i out late .header) (h0 : 0 < c.toNat)
    (h5 : c.toNat ≤ 5) (m : BitVec 5) : exec (.drainHdr m c) s =
      .next { s with master := { s.master with phase := .recv call i out late (.payload m c.toNat 0) } } := by
  rw [exec, execDrainHdr, hp]
  have hne : c ≠ 0 := by rintro rfl; exact absurd h0 (by decide)
  simp only [gt_iff_lt, Nat.not_lt.2 h5, if_false, hne]

section
variable {m : BitVec 5} {c j : Nat} (hp : s.master.phase = .recv call i out late (.payload m c j))
include hp

theorem exec_drainPayload_full (hfull : 16 ≤ s.master.ring.length) (p : Byte) :
    exec (.drainPayload p) s = .refused .ringOverflow := by
  rw [exec, execDrainPayload, hp]
  exact if_pos hfull

theorem exec_drainPayload_more (hroom : s.master.ring.length < 16) (hj : j + 1 < c) (p : Byte) :
    exec (.drainPayload p) s = .next { s with
      master := { s.master with
        ring := s.master.ring ++ [drainWord m c j p]
        phase := .recv call i out late (.payload m c (j + 1)) } } := by
  rw [exec, execDrainPayload, hp]
  exact (if_neg (Nat.not_le.2 hroom)).trans (if_pos hj)

theorem exec_drainPayload_last (hroom : s.master.ring.length < 16) (hj : ¬ j + 1 < c) (p : Byte) :
    exec (.drainPayload p) s = .next ((hostRecv call i out (s.master.ring ++ [drainWord m c j p]) s).settle late) := by
  rw [exec, execDrainPayload, hp]
  exact (if_neg (Nat.not_le.2 hroom)).trans (if_neg hj)

end
end

/-- Settles O49: the header's count chooses its case, and a payload byte its word. -/
theorem drainBytesFillTheRing : Obligations.DrainBytesFillTheRing := by
  intro s call i out late
  refine ⟨fun m c hp => ⟨fun hc => ?reserved, ?zero, fun h0 h5 => exec_drainHdr_count hp h0 h5 m⟩,
    fun m c j p hp => ⟨fun hroom => ?room, fun hfull => exec_drainPayload_full hp hfull p⟩⟩
  case reserved => exact ⟨_, exec_drainHdr_reserved hp hc m, rfl, rfl, rfl, rfl⟩
  case zero => rintro rfl; exact exec_drainHdr_zero hp m
  case room =>
    exact ⟨drainWord m c j p, drainWord_payload .., drainWord_isAddress .., fun hj => exec_drainPayload_more hp hroom hj p,
      fun hj => exec_drainPayload_last hp hroom (Nat.not_lt.2 hj) p⟩

/-! ## The master's turn at a drain response -/

theorem fetchMaster_header {s : State} {call : Call} {i : Nat} {out : List Byte} {late : Bool} {b : Byte} {bs : List Byte}
    (hp : s.master.phase = .recv call i out late .header) (hb : s.link.x2h = b :: bs) :
    fetchMaster s = .run (decodeHeader b) { s with link := { s.link with x2h := bs } } := by
  rw [fetchMaster, hp, hb]

theorem fetchMaster_payload {s : State} {call : Call} {i : Nat} {out : List Byte} {late : Bool} {m : BitVec 5} {c j : Nat} {b : Byte}
    {bs : List Byte} (hp : s.master.phase = .recv call i out late (.payload m c j)) (hb : s.link.x2h = b :: bs) :
    fetchMaster s = .run (.drainPayload b) { s with link := { s.link with x2h := bs } } := by
  rw [fetchMaster, hp, hb]

theorem fetchMaster_noByte {s : State} {call : Call} {i : Nat} {out : List Byte} {late : Bool} {wait : Wait}
    (hp : s.master.phase = .recv call i out late wait) (hb : s.link.x2h = []) : fetchMaster s = .done (.next s) := by
  rw [fetchMaster, hp]
  cases wait <;> rw [hb]

theorem step_header {s : State} {ts : List Turn} {call : Call} {i : Nat} {out : List Byte} {late : Bool} {b : Byte} {bs : List Byte}
    (hag : s.agenda = .master :: ts) (hp : s.master.phase = .recv call i out late .header) (hb : s.link.x2h = b :: bs) :
    step s = exec (decodeHeader b) { s with agenda := ts, link := { s.link with x2h := bs } } :=
  (step_of_agenda hag).trans (congrArg Fetched.result (fetchMaster_header (s := { s with agenda := ts }) hp hb))

theorem step_payload {s : State} {ts : List Turn} {call : Call} {i : Nat} {out : List Byte} {late : Bool} {m : BitVec 5} {c j : Nat}
    {b : Byte} {bs : List Byte} (hag : s.agenda = .master :: ts) (hp : s.master.phase = .recv call i out late (.payload m c j))
    (hb : s.link.x2h = b :: bs) :
    step s = exec (.drainPayload b) { s with agenda := ts, link := { s.link with x2h := bs } } :=
  (step_of_agenda hag).trans (congrArg Fetched.result (fetchMaster_payload (s := { s with agenda := ts }) hp hb))

/-- Settles O18: the fetch of each of the two agents decodes the byte it takes. -/
theorem linkAndMasterStepsRunDecodedByte : Obligations.LinkAndMasterStepsRunDecodedByte := by
  intro s ts
  refine ⟨fun b bs i hag hf hb hd => ?byte, fun hag hf => ?faulted, fun call n out late b bs i hag hp hb hd => ?header,
    fun call n out late m c j b bs i hag hp hb hd => ?payload⟩
  case byte => obtain rfl := Except.ok.inj hd; exact step_link hag hf hb
  case faulted =>
    exact (step_of_agenda hag).trans (congrArg Fetched.result (fetchLink_faulted (s := { s with agenda := ts }) hf))
  case header => obtain rfl := Except.ok.inj hd; exact step_header hag hp hb
  case payload => obtain rfl := Except.ok.inj hd; exact step_payload hag hp hb

/-- From payload byte `j` on, one turn for each byte: the words join the ring in order, and after the last `host_recv` goes on (R221). -/
theorem run_payloads {m : BitVec 5} {c : Nat} {call : Call} {i : Nat} {out : List Byte} {late : Bool} {bs : List Byte}
    {ts : List Turn} (p : Byte) (ps : List Byte) : ∀ (j : Nat) (s : State),
    s.master.phase = .recv call i out late (.payload m c j) → j + (ps.length + 1) = c →
    s.master.ring.length + ps.length < 16 → s.link.x2h = p :: ps ++ bs →
    s.agenda = List.replicate (ps.length + 1) .master ++ ts →
    Host.Core.run core (ps.length + 1) s = .next ((hostRecv call i out (s.master.ring ++ drainWords m c j (p :: ps))
      { s with agenda := ts, link := { s.link with x2h := bs } }).settle late) := by
  induction ps generalizing p with
  | nil =>
    intro j s hp hj hroom hb hag
    have hstep := step_payload (bs := bs) (ts := ts) hag hp hb
    rw [exec_drainPayload_last (s := { s with agenda := ts, link := { s.link with x2h := bs } }) hp hroom
      (by simp only [List.length_nil] at hj; omega)] at hstep
    exact run_succ hstep 0
  | cons q ps ih =>
    intro j s hp hj hroom hb hag
    simp only [List.length_cons] at hj hroom
    have hstep := step_payload (bs := q :: ps ++ bs) (ts := List.replicate (ps.length + 1) .master ++ ts) hag hp hb
    rw [exec_drainPayload_more (s := { s with
      agenda := List.replicate (ps.length + 1) .master ++ ts, link := { s.link with x2h := q :: ps ++ bs } }) hp
      (by change s.master.ring.length < 16; omega) (by omega)] at hstep
    refine (run_succ hstep _).trans ((ih q (j + 1) _ rfl (by omega) ?_ rfl rfl).trans ?_)
    · simp only [List.length_append, List.length_cons, List.length_nil]; omega
    · refine congrArg Host.Outcome.next ?_
      rw [List.append_assoc]
      exact hostRecv_settle_phase call late _ (s.master.ring ++ [drainWord m c j p]) _ i out
        { s with agenda := ts, link := { s.link with x2h := bs } }

/-- Settles O50: the header announces the words, the payload bytes rebuild them in order. -/
theorem drainResponseReachesTheRing : Obligations.DrainResponseReachesTheRing := by
  intro s ws bs ts call i out late hlen hring hp hb hag
  have hcount : (BitVec.ofNat 3 ws.length).toNat = ws.length := by rw [BitVec.toNat_ofNat]; omega
  have hstep := step_header (bs := ws.map Word.payload ++ bs) (ts := List.replicate ws.length .master ++ ts) hag hp hb
  rw [decodeHeader_markerOf _ _ hlen] at hstep
  cases hws : ws with
  | nil =>
    subst hws
    have hzero := exec_drainHdr_zero (s := { s with agenda := ts, link := { s.link with x2h := bs } }) hp (markerOf 0 0 [])
    rw [hring] at hzero
    exact run_succ (hstep.trans hzero) 0
  | cons w vs =>
    rw [exec_drainHdr_count (s := { s with
        agenda := List.replicate ws.length .master ++ ts, link := { s.link with x2h := ws.map Word.payload ++ bs } }) hp
      (by rw [hcount, hws]; exact Nat.succ_pos _) (by rw [hcount]; exact hlen), hcount] at hstep
    have hwords := drainWords_markerOf ws hlen
    have hvs : (vs.map Word.payload).length + 1 = ws.length := by rw [List.length_map, hws, List.length_cons]
    have hrun := run_payloads (bs := bs) (ts := ts) w.payload (vs.map Word.payload) 0
      { s with
        agenda := List.replicate ws.length .master ++ ts
        link := { s.link with x2h := ws.map Word.payload ++ bs }
        master := { s.master with phase := .recv call i out late (.payload (markerOf ws.length 0 ws) ws.length 0) } }
      rfl (by omega) (by simp only [hring, List.length_nil]; omega) (by simp only [hws, List.map_cons]) (by rw [hvs])
    rw [hvs] at hrun
    rw [← hws]
    refine (run_succ hstep _).trans (hrun.trans (congrArg Host.Outcome.next ?_))
    have hps : w.payload :: vs.map Word.payload = ws.map Word.payload := by rw [hws, List.map_cons]
    simp only [hring, List.nil_append, hps, hwords]
    have hphase := hostRecv_settle_phase call late ws s.master.ring
      (.recv call i out late (.payload (markerOf ws.length 0 ws) ws.length 0)) i out
      { s with agenda := ts, link := { s.link with x2h := bs } }
    rw [hring] at hphase
    exact hphase

/-! ## Timeouts and the sleep -/

theorem timeoutMaster_noByte {s : State} {call : Call} {i : Nat} {out : List Byte} {late : Bool} {wait : Wait}
    (hp : s.master.phase = .recv call i out late wait) (hb : s.link.x2h = []) : timeoutMaster s = .next (s.raise .timeout) := by
  rw [timeoutMaster, hp, hb]; rfl

theorem timeoutMaster_byte {s : State} {call : Call} {i : Nat} {out : List Byte} {late : Bool} {wait : Wait}
    (hp : s.master.phase = .recv call i out late wait) (hb : s.link.x2h ≠ []) :
    timeoutMaster s = .next { s with master := { s.master with phase := .recv call i out true wait } } := by
  rw [timeoutMaster, hp]
  exact if_neg (by simpa using hb)

theorem timeoutMaster_start {s : State} {call : Call} {cs : List Call} (hp : s.master.phase = .idle) (hc : s.calls = call :: cs) :
    timeoutMaster s = startCall true call { s with calls := cs } := by
  rw [timeoutMaster, hp, hc]

theorem timeoutMaster_noCall {s : State} (hp : s.master.phase = .idle) (hc : s.calls = []) : timeoutMaster s = .next s := by
  rw [timeoutMaster, hp, hc]

theorem timeoutMaster_sleep {s : State} {call : Call} (hp : s.master.phase = .sleep call) : timeoutMaster s = .next s := by
  rw [timeoutMaster, hp]

/-- Settles O57: the phase decides what a timeout is, and the sleep ends by itself. -/
theorem masterTimesOutOrWakes : Obligations.MasterTimesOutOrWakes := by
  intro s ts call
  refine ⟨fun i out late wait hag hp => ⟨fun hb => ?noByte, fun hb => ?byte⟩, fun cs e hag hp hc harg hlen he => ?starts,
    fun hag hp => ?wakes⟩
  case noByte => exact (step_of_agenda hag).trans (timeoutMaster_noByte (s := { s with agenda := ts }) hp hb)
  case byte => exact (step_of_agenda hag).trans (timeoutMaster_byte (s := { s with agenda := ts }) hp hb)
  case starts =>
    have hstep := (step_of_agenda hag).trans (timeoutMaster_start (s := { s with agenda := ts }) hp hc)
    exact hstep.trans (startCall_exchange harg hlen he true _)
  case wakes =>
    exact (step_of_agenda hag).trans (congrArg Fetched.result (fetchMaster_sleep (s := { s with agenda := ts }) hp))

/-! ## What a drain byte can change -/

/-- A drain byte changes what a run of the master can change (R221). -/
theorem exec_drain_ran {s t : State} {i : Instr} (hi : (∃ m c, i = .drainHdr m c) ∨ ∃ p, i = .drainPayload p)
    (h : exec i s = .next t) : MasterRan s t := by
  have hphase (ph : MPhase) (ring : List Word) : MasterRan s { s with master := { s.master with phase := ph, ring := ring } } :=
    ⟨rfl, rfl, rfl, rfl, rfl, rfl, ⟨[], by simp⟩, [], by simp, by simp⟩
  obtain ⟨m, c, rfl⟩ | ⟨p, rfl⟩ := hi
  · rw [exec, execDrainHdr] at h
    split at h
    · split at h
      · cases h
        exact ⟨rfl, rfl, rfl, rfl, rfl, rfl, ⟨[], by simp⟩, _, rfl, by simp⟩
      · split at h
        · cases h; exact hostRecv_settle ..
        · cases h; exact hphase _ s.master.ring
    · cases h
  · rw [exec, execDrainPayload] at h
    split at h
    · split at h
      · cases h
      · simp only at h
        split at h
        · cases h; exact hphase _ _
        · cases h; exact hostRecv_settle ..
    · cases h

/-- Settles O60: what a link byte and a drain byte can change is said once, by `LinkRan` and `MasterRan`. -/
theorem linkAndDrainFrame : Obligations.LinkAndDrainFrame := by
  intro s t i hexec
  refine ⟨fun hlink => ?link, fun hdrain => ?drain⟩
  case link =>
    have hadm : Position.link.admits i = true := by
      obtain ⟨h, rfl⟩ | ⟨l, rfl⟩ | rfl | ⟨b, rfl⟩ := hlink <;> rfl
    obtain ⟨t', ext, hnext, hran⟩ := exec_link_ran hadm s
    obtain rfl : t' = t := Host.Outcome.next.inj (hnext.symm.trans hexec)
    refine ⟨hran.params_eq, hran.master_eq, hran.active_eq, hran.calls_eq, hran.returns_eq, hran.agenda_eq, hran.ticks_eq,
      hran.h2x_eq, hran.x2h_eq, hran.latch_eq, by rw [hran.slaves_eq, List.length_map], fun k S hS => ?_⟩
    exact ⟨_, ext, by rw [hran.slaves_eq, List.getElem?_map, hS]; rfl, rfl, hran.ext_length, hran.ext_nil, fun _ => rfl, fun _ => rfl⟩
  case drain =>
    have hran := exec_drain_ran hdrain hexec
    exact ⟨hran.params_eq, hran.slaves_eq, hran.active_eq, hran.calls_eq, hran.agenda_eq, hran.ticks_eq, hran.link_eq,
      hran.returns_eq⟩

end Sys2Proof.Machine
end

section
/-! Every way a step can go, once (`step_stepped`): nothing, a slave's move, a slave's abort, a link byte, or a run of the master; and
the rules over all steps that are read off it. -/

namespace Sys2Proof.Machine

/-! ## What a slave's turn makes of it -/

/-- `S'` is `S` after a receive: its queue and its held address word alone may differ (R111). -/
def Slave.Received (S S' : Slave) : Prop :=
  ∃ rx pending held, S' = { S with rx := rx, addressPending := pending, heldAddr := held }

theorem Slave.takeMain_received {S S' : Slave} {w : Word} (h : S.takeMain = some (w, S')) : S.Received S' := by
  obtain ⟨-, -, rfl⟩ | ⟨-, ws, -, rfl⟩ := Slave.takeMain_cases h
  · exact ⟨S.rx, false, S.heldAddr, rfl⟩
  · exact ⟨ws, S.addressPending, _, rfl⟩

theorem Slave.recv_received {S S' : Slave} {w : Word} (h : S.recv = some (w, S')) : S.Received S' := by
  cases hr : S.rx with
  | nil => rw [Slave.recv_nil hr] at h; cases h
  | cons v vs => rw [Slave.recv_cons hr] at h; cases h; exact ⟨vs, _, _, rfl⟩

theorem Slave.recvData_err_received {S S' : Slave} {e : ErrKind} (h : S.recvData = .err e S') : S.Received S' := by
  obtain ⟨-, hr⟩ | ⟨-, -, hr⟩ | ⟨-, a, ws, -, hr⟩ | ⟨-, d, ws, -, hr⟩ := S.recvData_cases <;> cases hr.symm.trans h
  · exact ⟨S.rx, S.addressPending, S.heldAddr, rfl⟩
  · exact ⟨ws, true, a, rfl⟩

/-- An operand word is the oldest of the queue, taken with no address pending (R112). -/
theorem Slave.recvData_ok {S S' : Slave} {d : Byte} (h : S.recvData = .ok d S') :
    S.addressPending = false ∧ ∃ ws, S.rx = Word.data d :: ws ∧ S' = { S with rx := ws } := by
  obtain ⟨-, hr⟩ | ⟨-, -, hr⟩ | ⟨-, a, ws, -, hr⟩ | ⟨ha, d', ws, hrx, hr⟩ := S.recvData_cases <;> cases hr.symm.trans h
  exact ⟨ha, ws, hrx, rfl⟩

theorem Slave.recvData_ok_received {S S' : Slave} {d : Byte} (h : S.recvData = .ok d S') : S.Received S' := by
  obtain ⟨-, ws, -, rfl⟩ := Slave.recvData_ok h
  exact ⟨ws, S.addressPending, S.heldAddr, rfl⟩

/-- What a turn makes of its slave `S`, and the byte it transmits: a word of the main loop, an echo discard with its continuation, an
abort, or an operand word. -/
inductive Slave.Turns (S : Slave) : Slave → Option Byte → Prop where
  | command {w : Word} {R S' : Slave} {o : Option Byte} (hp : S.phase = .main) (hr : S.takeMain = some (w, R))
      (h : R.Runs (decodeMain S.selected S.mode S.board.registered w) S' o) : S.Turns S' o
  | echo {c : Cont} {w : Word} {R S' : Slave} {o : Option Byte} (hp : S.phase = .echo c) (hr : S.recv = some (w, R))
      (h : R.Continues c S' o) : S.Turns S' o
  | aborts {e : ErrKind} {R : Slave} (hp : S.phase.awaitsOperand = true) (hr : S.recvData = .err e R) : S.Turns R.abort none
  | operand {d : Byte} {R S' : Slave} {o : Option Byte} (hp : S.phase.awaitsOperand = true) (hr : S.recvData = .ok d R)
      (h : R.TakesOperand d S' o) : S.Turns S' o

/-- Where a slave's turn can be refused for a duplicate address: another slave has its address, or its turn may write the address
byte. -/
def State.MayDuplicate (s : State) (k : Nat) (S : Slave) : Prop :=
  s.sharesAddress k S = true ∨ s.collides k S = true ∨ S.phase = .echo .toCommit ∨ ∃ p, S.phase = .asConfirm p

/-- Where a slave's turn can fault: in the phases that use the page buffer, without one (R193 to R195). -/
def Slave.LacksPage (S : Slave) : Prop :=
  S.page = none ∧ (S.phase = .echo .toCommit ∨ ∃ rem, S.phase = .rdDummy rem ∨ S.phase = .wrByte rem)

/-- The main loop reads commands only. -/
theorem decodeMain_isCommand (sel : Bool) (mode : Mode) (reg : List Byte) (w : Word) :
    (decodeMain sel mode reg w).isCommand = true := by
  have hadm := (decodeMain_encode sel mode reg w).2
  generalize decodeMain sel mode reg w = i at hadm
  cases i <;> simp [Position.admits, Instr.isCommand] at hadm ⊢

theorem State.moved_putSlave (s : State) (R S' : Slave) (o : Option Byte) : (s.putSlave R).moved S' o = s.moved S' o := by
  cases o <;> simp only [State.moved, State.putSlave_putSlave]

/-- The outcomes of a meaning that ran on the slave as its receive left it are those of the turn. -/
theorem State.Answers.after_receive {s : State} {S R : Slave} {P Q : Slave → Option Byte → Prop} {used used' faulty faulty' : Prop}
    {out : Out} (h : (s.putSlave R).Answers R P used faulty out) (hR : S.Received R) (hP : ∀ S' o, P S' o → Q S' o)
    (hu : used → used') (hf : faulty → faulty') : s.Answers S Q used' faulty' out := by
  obtain ⟨rx, pending, held, rfl⟩ := hR
  cases h with
  | moves h hfree =>
    rw [State.moved_putSlave]
    exact .moves (hP _ _ h) ((takesUsedAddress_putSlave ..).symm.trans hfree)
  | @refuses r h =>
    refine .refuses ?_
    cases r with
    | duplicateAddress => exact hu h
    | unmappedPage | handlerOperands | handlerContract | notModelled | ringOverflow | writeListLength => exact h
  | faults h => exact .faults (hf h)

/-- The active slave of a turn, after its receive. -/
theorem getElem?_putSlave_active {s : State} {k : Nat} {S : Slave} (h : s.slaves[k]? = some S) (R : Slave) :
    (State.putSlave { s with active := k } R).slaves[k]? = some R :=
  getElem?_set_self (s := { s with active := k }) h R

/-- Every way a slave's turn can end. -/
theorem fetchSlave_answers (k : Nat) (s : State) :
    (fetchSlave k s).result = .next s ∨ ∃ S, s.slaves[k]? = some S ∧
      State.Answers { s with active := k } S S.Turns (s.MayDuplicate k S) S.LacksPage (fetchSlave k s).result := by
  obtain hf | ⟨hf, S, hS, hc⟩ | ⟨S, hS, -, ⟨w, R, hp, hr, hf⟩ | ⟨c, w, R, hp, hr, hf⟩ | ⟨e, R, hp, hr, hf⟩ | ⟨d, R, hp, hr, hf⟩⟩ :=
    fetchSlave_cases k s <;> rw [hf, Fetched.result]
  · exact .inl rfl
  · exact .inr ⟨S, hS, .refuses (.inr (.inl hc))⟩
  · refine .inr ⟨S, hS, ?_⟩
    have hR := Slave.takeMain_received hr
    refine (exec_command_answers (faulty := False) (getElem?_putSlave_active hS R) (decodeMain_isCommand ..)).after_receive hR
      (fun S' o => .command hp hr) (fun hshare => .inl ?_) False.elim
    obtain ⟨rx, pending, held, rfl⟩ := hR
    exact (sharesAddress_putSlave { s with active := k } _ S).symm.trans hshare
  · refine .inr ⟨S, hS, (runCont_answers c R _).after_receive (Slave.recv_received hr) (fun S' o => .echo hp hr)
      (fun hc => .inr (.inr (.inl (hc ▸ hp)))) fun ⟨hc, hpage⟩ => ⟨?_, .inl (hc ▸ hp)⟩⟩
    obtain ⟨rx, pending, held, rfl⟩ := Slave.recv_received hr
    exact hpage
  · refine .inr ⟨S, hS, answers_of_eeprom (o := none) (Slave.Turns.aborts hp hr) ?_⟩
    obtain ⟨rx, pending, held, rfl⟩ := Slave.recvData_err_received hr
    rfl
  · refine .inr ⟨S, hS, (exec_data_answers (getElem?_putSlave_active hS R) d).after_receive (Slave.recvData_ok_received hr)
      (fun S' o => .operand hp hr) ?_ ?_⟩ <;> obtain ⟨rx, pending, held, rfl⟩ := Slave.recvData_ok_received hr
    · exact fun hconfirm => .inr (.inr (.inr hconfirm))
    · rintro (hout | ⟨hpage, hrem⟩)
      · cases hp.symm.trans hout
      · exact ⟨hpage, .inr hrem⟩

/-! ## Every step -/

section
variable (s : State)

@[simp] theorem nextTurn_params : s.nextTurn.2.params = s.params := by obtain ⟨_, _, h⟩ := nextTurn_state s; rw [h]
@[simp] theorem nextTurn_slaves : s.nextTurn.2.slaves = s.slaves := by obtain ⟨_, _, h⟩ := nextTurn_state s; rw [h]
@[simp] theorem nextTurn_link : s.nextTurn.2.link = s.link := by obtain ⟨_, _, h⟩ := nextTurn_state s; rw [h]
@[simp] theorem nextTurn_master : s.nextTurn.2.master = s.master := by obtain ⟨_, _, h⟩ := nextTurn_state s; rw [h]
@[simp] theorem nextTurn_calls : s.nextTurn.2.calls = s.calls := by obtain ⟨_, _, h⟩ := nextTurn_state s; rw [h]
@[simp] theorem nextTurn_returns : s.nextTurn.2.returns = s.returns := by obtain ⟨_, _, h⟩ := nextTurn_state s; rw [h]

end

/-- Slave `k`'s turn is taken: it is the active one, and the agenda and the counter are as the choice of the turn leaves them. -/
def State.taken (s : State) (k : Nat) : State := { s.nextTurn.2 with active := k }

section
variable (s : State) (k : Nat)

@[simp] theorem State.taken_params : (s.taken k).params = s.params := nextTurn_params s
@[simp] theorem State.taken_slaves : (s.taken k).slaves = s.slaves := nextTurn_slaves s
@[simp] theorem State.taken_link : (s.taken k).link = s.link := nextTurn_link s
@[simp] theorem State.taken_master : (s.taken k).master = s.master := nextTurn_master s
@[simp] theorem State.taken_active : (s.taken k).active = k := rfl
@[simp] theorem State.taken_calls : (s.taken k).calls = s.calls := nextTurn_calls s
@[simp] theorem State.taken_returns : (s.taken k).returns = s.returns := nextTurn_returns s
@[simp] theorem State.taken_agenda : (s.taken k).agenda = s.nextTurn.2.agenda := rfl
@[simp] theorem State.taken_ticks : (s.taken k).ticks = s.nextTurn.2.ticks := rfl

end

/-- The slave whose turn is taken is the active one. -/
theorem State.taken_getElem?_active {s : State} {k : Nat} {S : Slave} (h : s.slaves[k]? = some S) :
    (s.taken k).slaves[(s.taken k).active]? = some S := by
  rw [State.taken_slaves]; exact h

/-- `t` is a state a step of `s` can answer. -/
inductive Stepped (s : State) : State → Prop where
  | waits : Stepped s s.nextTurn.2
  | slave {k : Nat} {S S' : Slave} {o : Option Byte} (hturn : s.nextTurn.1 = .slave k) (hS : s.slaves[k]? = some S)
      (h : S.Turns S' o) (hfree : (s.taken k).takesUsedAddress S S' = false) : Stepped s ((s.taken k).moved S' o)
  | slaveTimeout {k : Nat} {S : Slave} (hturn : s.nextTurn.1 = .slaveTimeout k) (hS : s.slaves[k]? = some S) : Stepped s ((s.taken k).moved S.abort none)
  | link {i : Instr} {bs : List Byte} {ext : List Word} {t : State} (hturn : s.nextTurn.1 = .link)
      (h : LinkRan i { s.nextTurn.2 with link := { s.link with h2x := bs } } t ext) : Stepped s t
  | master {cs : List Call} {bs : List Byte} {t : State} (hturn : s.nextTurn.1 = .master ∨ s.nextTurn.1 = .masterTimeout)
      (h : MasterRan { s.nextTurn.2 with calls := cs, link := { s.link with x2h := bs } } t) : Stepped s t

/-- The master's own states and its results are what a run of it can change. -/
theorem masterRan_finish (s : State) (r : Return) : MasterRan s (s.finish r) :=
  ⟨rfl, rfl, rfl, rfl, rfl, rfl, ⟨[], by simp⟩, [r], rfl, Nat.le_refl 1⟩

theorem masterRan_phase (s : State) (ph : MPhase) : MasterRan s { s with master := { s.master with phase := ph } } :=
  ⟨rfl, rfl, rfl, rfl, rfl, rfl, ⟨[], by simp⟩, [], by simp, Nat.zero_le 1⟩

/-- The master's turn: nothing, or a run of the master over a state with a call or a byte taken. -/
theorem fetchMaster_ran {s t : State} (h : (fetchMaster s).result = .next t) :
    t = s ∨ ∃ cs bs, MasterRan { s with calls := cs, link := { s.link with x2h := bs } } t := by
  cases hp : s.master.phase with
  | idle =>
    cases hc : s.calls with
    | nil => rw [fetchMaster_noCall hp hc] at h; cases h; exact .inl rfl
    | cons c cs =>
      rw [fetchMaster_start hp hc] at h
      exact .inr ⟨cs, s.link.x2h, startCall_ran h⟩
  | sleep call =>
    rw [fetchMaster_sleep hp] at h
    cases h
    exact .inr ⟨s.calls, s.link.x2h, masterRan_finish s .done⟩
  | recv call i out late wait =>
    cases hb : s.link.x2h with
    | nil =>
      rw [fetchMaster_noByte hp hb] at h; cases h; exact .inl rfl
    | cons b bs =>
      cases wait with
      | header =>
        rw [fetchMaster_header hp hb] at h
        exact .inr ⟨s.calls, bs, exec_drain_ran (.inl ⟨_, _, rfl⟩) h⟩
      | payload m c j =>
        rw [fetchMaster_payload hp hb] at h
        exact .inr ⟨s.calls, bs, exec_drain_ran (.inr ⟨_, rfl⟩) h⟩

theorem timeoutMaster_ran {s t : State} (h : timeoutMaster s = .next t) :
    t = s ∨ ∃ cs bs, MasterRan { s with calls := cs, link := { s.link with x2h := bs } } t := by
  cases hp : s.master.phase with
  | idle =>
    cases hc : s.calls with
    | nil => rw [timeoutMaster_noCall hp hc] at h; cases h; exact .inl rfl
    | cons c cs =>
      rw [timeoutMaster_start hp hc] at h
      exact .inr ⟨cs, s.link.x2h, startCall_ran h⟩
  | sleep call => rw [timeoutMaster_sleep hp] at h; cases h; exact .inl rfl
  | recv call i out late wait =>
    refine .inr ⟨s.calls, s.link.x2h, ?_⟩
    by_cases hb : s.link.x2h = []
    · rw [timeoutMaster_noByte hp hb] at h; cases h; exact masterRan_finish s (.err .timeout)
    · rw [timeoutMaster_byte hp hb] at h; cases h; exact masterRan_phase s _

/-- `X`'s turn: nothing, or a link byte, which always ends in a next state. -/
theorem fetchLink_ran (s : State) : (fetchLink s).result = .next s ∨ ∃ i bs ext t, (fetchLink s).result = .next t ∧
    LinkRan i { s with link := { s.link with h2x := bs } } t ext := by
  cases hf : s.link.fault with
  | true => rw [fetchLink_faulted hf]; exact .inl rfl
  | false =>
    cases hb : s.link.h2x with
    | nil => rw [fetchLink_empty hb]; exact .inl rfl
    | cons b bs =>
      obtain ⟨t, ext, hnext, hran⟩ := exec_link_ran (decodeLink_encode b).2 { s with link := { s.link with h2x := bs } }
      rw [fetchLink_byte hf hb]
      exact .inr ⟨_, bs, ext, t, hnext, hran⟩

/-- Every step goes one of these ways. -/
theorem step_stepped {s t : State} (h : step s = .next t) : Stepped s t := by
  rw [step_eq] at h
  cases hturn : s.nextTurn.1 with
  | slave k =>
    rw [hturn] at h
    obtain hw | ⟨S, hS, hans⟩ := fetchSlave_answers k s.nextTurn.2
    · cases hw.symm.trans h; exact .waits
    · rw [show (fetchSlave k s.nextTurn.2).result = .next t from h] at hans
      obtain ⟨S', o, hmove, hfree, rfl⟩ := hans.next
      exact .slave hturn (nextTurn_slaves s ▸ hS) hmove hfree
  | slaveTimeout k =>
    rw [hturn] at h
    obtain hw | ⟨S, hS, -, -, hf⟩ := timeoutSlave_cases k s.nextTurn.2
    · cases hw.symm.trans h; exact .waits
    · cases hf.symm.trans h; exact .slaveTimeout hturn (nextTurn_slaves s ▸ hS)
  | link =>
    rw [hturn] at h
    obtain hw | ⟨i, bs, ext, t', hnext, hran⟩ := fetchLink_ran s.nextTurn.2
    · cases hw.symm.trans h; exact .waits
    · cases hnext.symm.trans h; rw [nextTurn_link] at hran; exact .link hturn hran
  | master =>
    rw [hturn] at h
    obtain rfl | ⟨cs, bs, hran⟩ := fetchMaster_ran h
    · exact .waits
    · rw [nextTurn_link] at hran; exact .master (.inl hturn) hran
  | masterTimeout =>
    rw [hturn] at h
    obtain rfl | ⟨cs, bs, hran⟩ := timeoutMaster_ran h
    · exact .waits
    · rw [nextTurn_link] at hran; exact .master (.inr hturn) hran

/-! ## What a turn keeps of its slave -/

theorem Slave.Continues.keeps_board {S S' : Slave} {c : Cont} {o : Option Byte} (h : S.Continues c S' o) : S'.board = S.board := by
  cases h <;> rfl

theorem Slave.Turns.keeps_board {S S' : Slave} {o : Option Byte} (h : S.Turns S' o) : S'.board = S.board := by
  cases h with
  | command hp hr h => obtain ⟨rx, pending, held, rfl⟩ := Slave.takeMain_received hr; exact h.keeps.1
  | echo hp hr h => obtain ⟨rx, pending, held, rfl⟩ := Slave.recv_received hr; exact h.keeps_board
  | aborts hp hr => obtain ⟨rx, pending, held, rfl⟩ := Slave.recvData_err_received hr; rfl
  | operand hp hr h => obtain ⟨rx, pending, held, rfl⟩ := Slave.recvData_ok_received hr; exact h.keeps.1

/-- Only a commit writes the flash, and what it writes is the page's (R190, R195). -/
theorem Slave.Turns.flash_eq {S S' : Slave} {o : Option Byte} (h : S.Turns S' o) :
    S'.flash = S.flash ∨ (S.phase = .echo .toCommit ∧ ∃ p, S.page = some p ∧ S'.flash = S.flashAfter p) := by
  cases h with
  | command hp hr h =>
    obtain ⟨rx, pending, held, rfl⟩ := Slave.takeMain_received hr
    obtain ⟨-, -, -, -, -, -, hflash, -⟩ := h.keeps
    exact .inl hflash
  | echo hp hr h =>
    obtain ⟨rx, pending, held, rfl⟩ := Slave.recv_received hr
    cases h with
    | commits hpage => exact .inr ⟨hp, _, hpage, rfl⟩
    | resumes | switches | lastReply | nextReply => exact .inl rfl
  | aborts hp hr => obtain ⟨rx, pending, held, rfl⟩ := Slave.recvData_err_received hr; exact .inl rfl
  | operand hp hr h =>
    obtain ⟨rx, pending, held, rfl⟩ := Slave.recvData_ok_received hr
    obtain ⟨-, -, -, -, -, -, -, -, hflash⟩ := h.keeps
    exact .inl hflash

/-- Only a commit and a confirmed `ADDR_SET` write the EEPROM (R190, R166). -/
theorem Slave.Turns.eeprom_eq {S S' : Slave} {o : Option Byte} (h : S.Turns S' o) :
    S.phase = .echo .toCommit ∨ S'.eeprom = S.eeprom ∨ ∃ p, S.phase = .asConfirm p ∧ S.addressPending = false ∧
      S.rx.head? = some (Word.data p) ∧ S'.eeprom = S.eeprom.write 0 p := by
  cases h with
  | command hp hr h =>
    obtain ⟨rx, pending, held, rfl⟩ := Slave.takeMain_received hr
    obtain ⟨-, -, -, -, -, -, -, heeprom⟩ := h.keeps
    exact .inr (.inl heeprom)
  | echo hp hr h =>
    obtain ⟨rx, pending, held, rfl⟩ := Slave.recv_received hr
    cases h with
    | commits => exact .inl hp
    | resumes | switches | lastReply | nextReply => exact .inr (.inl rfl)
  | aborts hp hr => obtain ⟨rx, pending, held, rfl⟩ := Slave.recvData_err_received hr; exact .inr (.inl rfl)
  | @operand d _ _ _ hp hr h =>
    obtain ⟨ha, ws, hrx, rfl⟩ := Slave.recvData_ok hr
    cases h with
    | confirms hc => exact .inr (.inr ⟨d, hc, ha, by rw [hrx]; rfl, rfl⟩)
    | proposal | differs | address | lastAddress | opens | reads | writes => exact .inr (.inl rfl)

/-! ## Who writes `selected` -/

/-- The code of the instruction the main loop reads is the word it took (R102). -/
theorem decodeMain_word {sel : Bool} {mode : Mode} {reg : List Byte} {w : Word} {i : Instr} (h : decodeMain sel mode reg w = i) :
    encode i = .word w := h ▸ (decodeMain_encode sel mode reg w).1

/-- A command selects only on the slave's own address (R143). -/
theorem Slave.Runs.selects_own {S S' : Slave} {i : Instr} {o : Option Byte} (h : S.Runs i S' o) (h0 : S.selected = false)
    (h1 : S'.selected = true) : i = .addr S.address := by
  cases h with
  | selects => rfl
  | leaves | deselects => cases h1
  | ignored | startsId | nextId | replies | handlerEnds | handlerReplies => cases h0.symm.trans h1

/-- A command ends the selection only on another address or on `DESELECT` (R143, R146). -/
theorem Slave.Runs.leaves_selection {S S' : Slave} {i : Instr} {o : Option Byte} (h : S.Runs i S' o) (h1 : S.selected = true)
    (h0 : S'.selected = false) : (∃ a, i = .addr a ∧ a ≠ S.address) ∨ i = .deselect := by
  cases h with
  | leaves ha => exact .inl ⟨_, rfl, ha⟩
  | deselects => exact .inr rfl
  | selects => cases h0
  | ignored | startsId | nextId | replies | handlerEnds | handlerReplies => cases h1.symm.trans h0

theorem Slave.Turns.selects_own {S S' : Slave} {o : Option Byte} (h : S.Turns S' o) (h0 : S.selected = false)
    (h1 : S'.selected = true) : S.phase = .main ∧ ∃ R, S.takeMain = some (Word.address S.address, R) := by
  cases h with
  | @command w R _ _ hp hr h =>
    refine ⟨hp, R, ?_⟩
    obtain ⟨rx, pending, held, rfl⟩ := Slave.takeMain_received hr
    obtain rfl : Word.address S.address = w := Code.word.inj (decodeMain_word (h.selects_own h0 h1))
    exact hr
  | echo hp hr h =>
    obtain ⟨rx, pending, held, rfl⟩ := Slave.recv_received hr
    cases h with
    | switches => cases h1
    | resumes | commits | lastReply | nextReply => cases h0.symm.trans h1
  | aborts hp hr => obtain ⟨rx, pending, held, rfl⟩ := Slave.recvData_err_received hr; cases h0.symm.trans h1
  | operand hp hr h =>
    obtain ⟨rx, pending, held, rfl⟩ := Slave.recvData_ok_received hr
    obtain ⟨-, hsel, -⟩ := h.keeps
    cases (h0.symm.trans hsel.symm).trans h1

theorem Slave.Turns.leaves_selection {S S' : Slave} {o : Option Byte} (h : S.Turns S' o) (h1 : S.selected = true)
    (h0 : S'.selected = false) :
    (S.phase = .main ∧ ∃ w R, S.takeMain = some (w, R) ∧ ((w.isAddress = true ∧ w.payload ≠ S.address) ∨ w = 0x0FF)) ∨
      ∃ m, S.phase = .echo (.toModeSwitch m) := by
  cases h with
  | @command w R _ _ hp hr h =>
    refine .inl ⟨hp, w, R, hr, ?_⟩
    obtain ⟨rx, pending, held, rfl⟩ := Slave.takeMain_received hr
    obtain ⟨a, hi, ha⟩ | hi := h.leaves_selection h1 h0
    · obtain rfl : Word.address a = w := Code.word.inj (decodeMain_word hi)
      exact .inl ⟨Word.isAddress_address a, by rw [Word.payload_address]; exact ha⟩
    · exact .inr (Code.word.inj (decodeMain_word hi)).symm
  | echo hp hr h =>
    obtain ⟨rx, pending, held, rfl⟩ := Slave.recv_received hr
    cases h with
    | switches m => exact .inr ⟨m, hp⟩
    | resumes | commits | lastReply | nextReply => cases h1.symm.trans h0
  | aborts hp hr => obtain ⟨rx, pending, held, rfl⟩ := Slave.recvData_err_received hr; cases h1.symm.trans h0
  | operand hp hr h =>
    obtain ⟨rx, pending, held, rfl⟩ := Slave.recvData_ok_received hr
    obtain ⟨-, hsel, -⟩ := h.keeps
    cases (h1.symm.trans hsel.symm).trans h0

/-! ## What a step makes of a slave -/

/-- A slave a step has done nothing to but for its queue, an abort's phase included. -/
structure Slave.Untouched (S T : Slave) : Prop where
  board_eq : T.board = S.board
  selected_eq : T.selected = S.selected
  flash_eq : T.flash = S.flash
  eeprom_eq : T.eeprom = S.eeprom

/-- Where slave `j` is after a move of the active slave: it has moved, or it has heard the word. -/
theorem State.moved_getElem?_cases {s : State} {j : Nat} {A A' Q T : Slave} {o : Option Byte} (hA : s.slaves[s.active]? = some A)
    (hQ : s.slaves[j]? = some Q) (hT : (s.moved A' o).slaves[j]? = some T) :
    (j = s.active ∧ Q = A ∧ T = A'.heard o) ∨ (j ≠ s.active ∧ T = Q.heard o) := by
  by_cases hj : j = s.active
  · subst hj
    have hmoved := State.moved_getElem?_active hA A' o
    exact .inl ⟨rfl, Option.some.inj (hQ.symm.trans hA), Option.some.inj (hT.symm.trans hmoved)⟩
  · rw [State.moved_getElem?_other s A' o hj, hQ] at hT
    exact .inr ⟨hj, (Option.some.inj hT).symm⟩

theorem State.taken_moved_getElem? {s : State} {k j : Nat} {S S' Q T : Slave} {o : Option Byte} (hS : s.slaves[k]? = some S)
    (hQ : s.slaves[j]? = some Q) (hT : ((s.taken k).moved S' o).slaves[j]? = some T) :
    (j = k ∧ Q = S ∧ T = S'.heard o) ∨ (j ≠ k ∧ T = Q.heard o) :=
  State.moved_getElem?_cases (State.taken_getElem?_active hS) ((State.taken_slaves s k).symm ▸ hQ) hT

/-- A step leaves a slave untouched, or it was the slave's own turn. -/
theorem Stepped.slave_cases {s t : State} (h : Stepped s t) {k : Nat} {S T : Slave} (hS : s.slaves[k]? = some S)
    (hT : t.slaves[k]? = some T) : S.Untouched T ∨ (s.nextTurn.1 = .slave k ∧ ∃ S' o, S.Turns S' o ∧ T = S'.heard o) := by
  cases h with
  | waits =>
    rw [nextTurn_slaves] at hT
    obtain rfl : S = T := Option.some.inj (hS.symm.trans hT)
    exact .inl ⟨rfl, rfl, rfl, rfl⟩
  | slave hturn hA h hfree =>
    obtain ⟨rfl, rfl, rfl⟩ | ⟨-, rfl⟩ := State.taken_moved_getElem? hA hS hT
    · exact .inr ⟨hturn, _, _, h, rfl⟩
    · exact .inl ⟨rfl, rfl, rfl, rfl⟩
  | slaveTimeout _ hA =>
    obtain ⟨rfl, rfl, rfl⟩ | ⟨-, rfl⟩ := State.taken_moved_getElem? hA hS hT <;> exact .inl ⟨rfl, rfl, rfl, rfl⟩
  | link _ h =>
    rw [h.slaves_eq] at hT
    simp only [nextTurn_slaves, List.getElem?_map, hS, Option.map_some, Option.some.injEq] at hT
    subst hT
    exact .inl ⟨rfl, rfl, rfl, rfl⟩
  | master _ h =>
    rw [h.slaves_eq] at hT
    simp only [nextTurn_slaves, hS, Option.some.injEq] at hT
    subst hT
    exact .inl ⟨rfl, rfl, rfl, rfl⟩

/-! ## The rules over all steps -/

/-- Replacing an entry by one with the same `f` keeps the list of the `f`s. -/
theorem map_set_of_eq {α β : Type} {f : α → β} {l : List α} {k : Nat} {a b : α} (ha : l[k]? = some a) (hf : f b = f a) :
    (l.set k b).map f = l.map f := by
  obtain ⟨hk, rfl⟩ := List.getElem?_eq_some_iff.1 ha
  apply List.ext_getElem?
  intro j
  by_cases hj : j = k
  · subst hj; simp [hk, hf]
  · simp [List.getElem?_set_ne (Ne.symm hj)]

theorem moved_boards {s : State} {k : Nat} {S S' : Slave} (hS : s.slaves[k]? = some S) (hb : S'.board = S.board) (o : Option Byte) :
    ((s.taken k).moved S' o).slaves.map Slave.board = s.slaves.map Slave.board := by
  rw [State.moved_slaves, List.map_map, State.taken_slaves, State.taken_active]
  exact map_set_of_eq (f := Slave.board) hS hb

/-- Settles O10: no kind of step writes a parameter or a slave's board. -/
theorem stepKeepsConfiguration : Obligations.StepKeepsConfiguration := by
  intro s t hstep
  cases step_stepped hstep with
  | waits => exact ⟨nextTurn_params s, congrArg _ (nextTurn_slaves s)⟩
  | slave _ hS h _ => exact ⟨by simp, moved_boards hS h.keeps_board _⟩
  | slaveTimeout _ hS => exact ⟨by simp, moved_boards hS (Slave.abort_board _) none⟩
  | link _ h => exact ⟨h.params_eq.trans (nextTurn_params s), by rw [h.slaves_eq, List.map_map, nextTurn_slaves]; rfl⟩
  | master _ h => exact ⟨h.params_eq.trans (nextTurn_params s), by rw [h.slaves_eq, nextTurn_slaves]⟩

/-- Settles O11: an untouched slave keeps its media, and of a slave's own turns `Slave.Turns` says which write them. -/
theorem onlyCommitAndAddressSetWriteMedia : Obligations.OnlyCommitAndAddressSetWriteMedia := by
  intro s t hstep k S T hS hT a
  obtain hsame | ⟨hturn, S', o, h, rfl⟩ := (step_stepped hstep).slave_cases hS hT
  · exact ⟨fun hne => absurd (by rw [hsame.flash_eq]) hne, fun hne => absurd (by rw [hsame.eeprom_eq]) hne⟩
  · refine ⟨fun hne => ⟨hturn, ?flash⟩, fun hne => ⟨hturn, ?eeprom⟩⟩
    case flash => exact (h.flash_eq.resolve_left fun hf => hne (congrArg (Memory.read · a) hf)).1
    case eeprom =>
      obtain hc | heq | ⟨p, hp, hpend, hhead, heq⟩ := h.eeprom_eq
      · exact .inl hc
      · exact absurd (congrArg (Memory.read · a) heq) hne
      · have hread (x : Nat) : S'.eeprom.read x = if x = 0 then p else S.eeprom.read x := by rw [heq, Memory.read_write]
        refine .inr ⟨by_contra fun ha => hne ((hread a).trans (if_neg ha)), p, hp, hpend, hhead, (hread 0).trans (if_pos rfl)⟩

/-- Settles O12: an untouched slave keeps `selected`, and of a slave's own turns `Slave.Turns` says which write it. -/
theorem onlyAddressWordsDeselectAndModeSwitchWriteSelected :
    Obligations.OnlyAddressWordsDeselectAndModeSwitchWriteSelected := by
  intro s t hstep k S T hS hT
  obtain hsame | ⟨hturn, S', o, h, rfl⟩ := (step_stepped hstep).slave_cases hS hT
  · exact ⟨fun h0 h1 => absurd (h0.symm.trans (hsame.selected_eq.symm.trans h1)) Bool.false_ne_true,
      fun h1 h0 => absurd (h0.symm.trans (hsame.selected_eq.trans h1)) Bool.false_ne_true⟩
  · exact ⟨fun h0 h1 => ⟨hturn, h.selects_own h0 h1⟩, fun h1 h0 => ⟨hturn, h.leaves_selection h1 h0⟩⟩

/-- Settles O13: a slave's step is a move of that slave, which transmits nothing or the data word of one byte. -/
theorem slaveStepSendsAtMostOneDataWord : Obligations.SlaveStepSendsAtMostOneDataWord := by
  intro s t k hturn hstep
  cases step_stepped hstep with
  | waits =>
    exact ⟨⟨by simp, by simp, by simp, by simp, rfl, rfl⟩, .inl ⟨by simp, fun j _ => by simp⟩⟩
  | @slave k' S S' o hturn' hS h _ =>
    obtain rfl : k = k' := Turn.slave.inj (hturn.symm.trans hturn')
    refine ⟨⟨by simp, by simp, by simp, by simp, by simp, by simp⟩, ?_⟩
    have hothers (j : Nat) (hj : j ≠ k) := State.moved_getElem?_other (s.taken k) S' o hj
    rw [State.taken_slaves] at hothers
    obtain ⟨rfl, hlink⟩ | ⟨d, rfl, htook⟩ := (s.taken k).moved_link S' o
    · refine .inl ⟨hlink.trans (State.taken_link s k), fun j hj => (hothers j hj).trans ?_⟩
      rw [Slave.heard_none, Option.map_id, id]
    · rw [State.taken_params, State.taken_link] at htook
      exact .inr ⟨Word.data d, Word.isAddress_data d, htook, hothers⟩
  | slaveTimeout hturn' _ => cases hturn.symm.trans hturn'
  | link hturn' _ => cases hturn.symm.trans hturn'
  | master hturn' _ => rcases hturn' with h' | h' <;> cases hturn.symm.trans h'

/-- Settles O15: a run of the master writes bytes to the link and changes nothing of `X` or of a slave. -/
theorem masterTurnsLeaveTheBusAlone : Obligations.MasterTurnsLeaveTheBusAlone := by
  intro s t hturn hstep
  have hother {u : Turn} (hu : s.nextTurn.1 = u) (h1 : u ≠ .master) (h2 : u ≠ .masterTimeout) : False := by
    rcases hturn with h | h
    · exact h1 (hu.symm.trans h)
    · exact h2 (hu.symm.trans h)
  cases step_stepped hstep with
  | waits => simp
  | master _ h =>
    obtain ⟨bs, hlink⟩ := h.link_eq
    rw [hlink]
    exact ⟨h.slaves_eq.trans (nextTurn_slaves s), rfl, rfl, rfl⟩
  | slave hu | slaveTimeout hu | link hu => exact (hother hu nofun nofun).elim

/-! ## Selection by one address word -/

theorem distinct_ne {s : State} (hd : s.DistinctAddresses) {j k : Nat} {Q S : Slave} (hj : j ≠ k) (hQ : s.slaves[j]? = some Q)
    (hS : s.slaves[k]? = some S) : Q.address ≠ S.address := by
  intro heq
  have hjlt := (List.getElem?_eq_some_iff.1 hQ).1
  refine hj ((List.getElem?_inj (l := s.slaves.map Slave.address) (by simpa using hjlt) hd).1 ?_)
  rw [List.getElem?_map, List.getElem?_map, hQ, hS, Option.map_some, Option.map_some, heq]

/-- With distinct addresses no other slave answers for the active one (R42). -/
theorem sharesAddress_of_distinct {s : State} (hd : s.DistinctAddresses) {k : Nat} {S : Slave} (hS : s.slaves[k]? = some S) :
    s.sharesAddress k S = false :=
  sharesAddress_eq_false.2 fun _ _ hj hQ => distinct_ne hd hj hQ hS

/-- A slave that processes `ADDR a` is then selected if and only if the address is its own (R143). -/
theorem exec_addr_moves {s : State} {A : Slave} (hA : s.slaves[s.active]? = some A) (hd : s.DistinctAddresses) (a : Byte) :
    ∃ A' o, exec (.addr a) s = .next (s.moved A' o) ∧ A'.address = A.address ∧ (A'.selected = true ↔ A.address = a) := by
  by_cases ha : a = A.address
  · subst ha
    refine ⟨{ A with selected := true, phase := .echo .toMain }, some 0xA5,
      (exec_addr_own hA (sharesAddress_of_distinct hd hA)).trans ?_, rfl, iff_of_true rfl rfl⟩
    rw [reply_ack_eq_moved]; rfl
  · exact ⟨_, none, exec_addr_other hA ha, rfl, iff_of_false Bool.false_ne_true (Ne.symm ha)⟩

theorem moved_addresses {s : State} {S S' : Slave} (hS : s.slaves[s.active]? = some S) (h : S'.address = S.address) (o : Option Byte) :
    (s.moved S' o).slaves.map Slave.address = s.slaves.map Slave.address := by
  rw [State.moved_slaves, List.map_map]
  exact map_set_of_eq (f := Slave.address) hS h

theorem addrByEach_cons {s t : State} {a : Byte} {k : Nat} (h : exec (.addr a) { s with active := k } = .next t) (ks : List Nat) :
    addrByEach a (k :: ks) s = addrByEach a ks t := by
  rw [addrByEach, h]

/-- Once the slaves of `ks` have processed `ADDR a`, those are selected whose address it is; the others are as before. -/
theorem addrByEach_selects (a : Byte) (ks : List Nat) : ∀ s : State, s.DistinctAddresses → (∀ k ∈ ks, k < s.slaves.length) →
    ∃ t, addrByEach a ks s = .next t ∧ t.slaves.length = s.slaves.length ∧
      ∀ (j : Nat) (S T : Slave), s.slaves[j]? = some S → t.slaves[j]? = some T →
        T.address = S.address ∧ (T.selected = true ↔ if j ∈ ks then S.address = a else S.selected = true) := by
  induction ks with
  | nil =>
    intro s _ _
    refine ⟨s, rfl, rfl, fun j S T hS hT => ?_⟩
    obtain rfl := Option.some.inj (hS.symm.trans hT)
    exact ⟨rfl, by rw [if_neg List.not_mem_nil]⟩
  | cons k ks ih =>
    intro s hd hlt
    have hA := List.getElem?_eq_getElem (hlt k List.mem_cons_self)
    obtain ⟨A', o, hexec, haddr, hsel⟩ := exec_addr_moves (s := { s with active := k }) hA hd a
    let u := State.moved { s with active := k } A' o
    have hlen : u.slaves.length = s.slaves.length := by simp [u]
    have hdu : u.DistinctAddresses := by
      rw [State.DistinctAddresses, moved_addresses (s := { s with active := k }) hA haddr]
      exact hd
    obtain ⟨t, hrun, htlen, hkeeps⟩ := ih u hdu fun j hj => hlen ▸ hlt j (List.mem_cons_of_mem k hj)
    refine ⟨t, (addrByEach_cons hexec ks).trans hrun, htlen.trans hlen, fun j S T hS hT => ?_⟩
    obtain ⟨U, hU⟩ : ∃ U, u.slaves[j]? = some U :=
      ⟨_, List.getElem?_eq_getElem (hlen.symm ▸ (List.getElem?_eq_some_iff.1 hS).1)⟩
    obtain ⟨hTaddr, hTsel⟩ := hkeeps j U T hU hT
    obtain ⟨rfl, rfl, rfl⟩ | ⟨hj, rfl⟩ := State.moved_getElem?_cases (s := { s with active := k }) hA hS hU
    · refine ⟨hTaddr.trans haddr, hTsel.trans ?_⟩
      rw [if_pos List.mem_cons_self, Slave.heard_address, haddr]
      split
      · exact Iff.rfl
      · exact hsel
    · refine ⟨hTaddr, hTsel.trans ?_⟩
      simp only [List.mem_cons, show j ≠ k from hj, false_or]
      exact Iff.rfl

/-- Settles O16: the list of all indexes contains every slave's. -/
theorem addressWordSelectsExactlyItsSlave : Obligations.AddressWordSelectsExactlyItsSlave := by
  intro s a hd
  obtain ⟨t, hrun, hlen, hkeeps⟩ := addrByEach_selects a (List.range s.slaves.length) s hd fun k hk => List.mem_range.1 hk
  refine ⟨t, hrun, hlen, fun k S T hS hT => ?_⟩
  have hsel := (hkeeps k S T hS hT).2
  rwa [if_pos (List.mem_range.2 (List.getElem?_eq_some_iff.1 hS).1)] at hsel

end Sys2Proof.Machine
end

section
/-! The machine's invariant: it holds at launch, every step keeps it, and from it no step faults. The slave's part follows the relations
of a slave's turn, the master's part its run over the ring; BootloaderArea is never written because the page buffer has the class of
its base. -/

namespace Sys2Proof

/-- With one EEPROM range at most, `ee_offset` is injective: an address of the range lies above its first byte (R55). -/
theorem Board.eeInjective_of_range {b : Board} {r : MapRange} (h : ∀ q ∈ b.ranges, q.kind = .eepromArea → q = r) : b.EeInjective := by
  have hat (x : BitVec 32) (hx : b.classify x = some .eepromArea) : b.rangeAt x = some r := by
    obtain ⟨q, hq, hkind⟩ := Option.map_eq_some_iff.1 hx
    rw [hq, h q (List.mem_of_find?_eq_some hq) hkind]
  intro x y hx hy heq
  have hx' := (b.rangeAt_first_le (hat x hx)).trans (b.pageBase_add_offset x ▸ Nat.le_add_right _ _)
  have hy' := (b.rangeAt_first_le (hat y hy)).trans (b.pageBase_add_offset y ▸ Nat.le_add_right _ _)
  simp only [Board.eeOffset, hat x hx, hat y hy] at heq
  exact BitVec.eq_of_toNat_eq (by omega)

end Sys2Proof

namespace Sys2Proof.Machine

/-! ## Launch -/

/-- Settles O5: launch is `Slave.resetOf` of each board, `Master.reset` and `Link.reset`. -/
theorem launchLeavesEveryField : Obligations.LaunchLeavesEveryField := by
  intro p bs
  refine ⟨List.length_map _, fun k b hb => ⟨Slave.resetOf b, ?_, ?_⟩, rfl, rfl⟩
  · exact List.getElem?_map.trans (congrArg (Option.map Slave.resetOf) hb)
  · exact ⟨rfl, rfl, rfl, rfl, rfl, rfl, rfl, rfl, rfl, rfl, fun _ => rfl, fun _ => rfl⟩

theorem Slave.resetOf_inv {b : Board} (h : b.mediaOk = true) : (Slave.resetOf b).Inv := by
  simp only [Board.mediaOk, Bool.and_eq_true, List.all_eq_true, decide_eq_true_eq] at h
  obtain ⟨⟨hflash, heeprom⟩, hbound⟩ := h
  exact ⟨hflash, hbound, heeprom, Nat.zero_le _, nofun, fun _ => rfl, trivial⟩

theorem resetOf_inv (p : Params) {bs : List Board} (hmedia : ∀ b ∈ bs, b.mediaOk = true)
    (hdistinct : (bs.map fun b => b.eepromInit.read 0).Nodup) : (State.resetOf p bs).Inv where
  distinct := by
    rw [State.DistinctAddresses, State.resetOf, List.map_map]
    exact hdistinct
  slaves S hS := by
    obtain ⟨b, hb, rfl⟩ := List.mem_map.1 hS
    exact Slave.resetOf_inv (hmedia b hb)
  fifo_le := Nat.zero_le _
  ring_le := Nat.zero_le 5
  mphase_ok := trivial

/-- The two boards of `State.reset` meet the launch requirements (R283). -/
theorem exampleBoards_launchOk : LaunchOk [Config.exampleBoard 5, Config.exampleBoard 6] where
  distinct := by decide
  sameBaud b hb c hc := by
    simp only [List.mem_cons, List.not_mem_nil, or_false] at hb hc
    obtain rfl | rfl := hb <;> obtain rfl | rfl := hc <;> rfl
  descOk := by decide
  tableOk := by decide
  eeInjective b hb := by
    simp only [List.mem_cons, List.not_mem_nil, or_false] at hb
    obtain rfl | rfl := hb <;> exact Board.eeInjective_of_range (r := ⟨.eepromArea, 1024, 8, 0⟩) (by decide)
  mediaOk := by decide

/-- Settles O6: at launch every slave is in its main loop without a page, and the master is idle. -/
theorem launchMeetsInvariant : Obligations.LaunchMeetsInvariant :=
  ⟨fun p _ hmedia hdistinct => resetOf_inv p hmedia hdistinct,
    resetOf_inv _ exampleBoards_launchOk.mediaOk exampleBoards_launchOk.distinct, exampleBoards_launchOk⟩

/-! ## The slave's part -/

/-- The invariant of a slave but for its phase: canonical media, the cursor and the page buffer. -/
structure Slave.StoreOk (S : Slave) : Prop where
  flash_wf : S.flash.wf = true
  flash_bound : ∀ c ∈ S.flash, c.1 < 2 ^ 32
  eeprom_wf : S.eeprom.wf = true
  cursor_le : S.idCursor ≤ S.board.desc.length
  page_ok : ∀ p, S.page = some p → p.Ok S.board
  app_no_page : S.mode = .app → S.page = none

theorem Slave.inv_iff {S : Slave} : S.Inv ↔ S.StoreOk ∧ S.phase.Ok S :=
  ⟨fun h => ⟨⟨h.flash_wf, h.flash_bound, h.eeprom_wf, h.cursor_le, h.page_ok, h.app_no_page⟩, h.phase_ok⟩,
    fun ⟨h, hp⟩ => ⟨h.flash_wf, h.flash_bound, h.eeprom_wf, h.cursor_le, h.page_ok, h.app_no_page, hp⟩⟩

/-- A continuation relies on the selection, the mode and the page buffer alone. -/
theorem Cont.Ok.congr {S T : Slave} {c : Cont} (h : c.Ok S) (hsel : T.selected = S.selected) (hmode : T.mode = S.mode)
    (hpage : T.page = S.page) : c.Ok T := by
  cases c <;> simp only [Cont.Ok, Slave.InBuffer, hsel, hmode, hpage] at h ⊢ <;> exact h

/-- So does a phase that waits for an operand. -/
theorem Phase.Ok.congr {S T : Slave} {ph : Phase} (h : ph.Ok S) (hop : ph.awaitsOperand = true) (hsel : T.selected = S.selected)
    (hmode : T.mode = S.mode) (hpage : T.page = S.page) : ph.Ok T := by
  cases ph with
  | main | echo => cases hop
  | asProposal | asConfirm | bufAddr | bufCount | rdDummy | wrByte =>
    simp only [Phase.Ok, Cont.Ok, Slave.InBuffer, hsel, hmode, hpage] at h ⊢
    exact h

theorem Slave.StoreOk.received {S R : Slave} (h : S.StoreOk) (hR : S.Received R) : R.StoreOk := by
  obtain ⟨rx, pending, held, rfl⟩ := hR
  exact { h with }

/-- Words that arrive leave the invariant alone. -/
theorem Slave.Inv.append_rx {S : Slave} (h : S.Inv) (ext : List Word) : Slave.Inv { S with rx := S.rx ++ ext } := by
  obtain ⟨hstore, hphase⟩ := Slave.inv_iff.1 h
  refine Slave.inv_iff.2 ⟨{ hstore with }, ?_⟩
  cases hp : S.phase with
  | main => trivial
  | echo c =>
    rw [hp] at hphase
    exact ⟨fun hnil => hphase.1 (List.append_eq_nil_iff.1 hnil).1, hphase.2.congr rfl rfl rfl⟩
  | asProposal | asConfirm | bufAddr | bufCount | rdDummy | wrByte => rw [hp] at hphase; exact hphase.congr rfl rfl rfl rfl

/-- A slave that has gone back to its main loop. -/
theorem Slave.StoreOk.main_inv {S : Slave} (h : S.StoreOk) (hp : S.phase = .main) : (S.heard none).Inv := by
  rw [Slave.heard_none, id]
  exact Slave.inv_iff.2 ⟨h, by rw [hp]; trivial⟩

/-- A slave that has replied has its echo to discard (R113 (c)). -/
theorem Slave.StoreOk.echo_inv {S : Slave} {c : Cont} {d : Byte} (h : S.StoreOk) (hp : S.phase = .echo c) (hc : c.Ok S) :
    (S.heard (some d)).Inv := by
  refine Slave.inv_iff.2 ⟨{ h with }, ?_⟩
  rw [show (S.heard (some d)).phase = .echo c from hp]
  exact ⟨List.append_ne_nil_of_right_ne_nil _ (List.cons_ne_nil _ _), hc.congr rfl rfl rfl⟩

/-- A command of the main loop keeps the invariant. -/
theorem Slave.Runs.inv {S S' : Slave} {i : Instr} {o : Option Byte} (h : S.Runs i S' o) (hS : S.StoreOk) (hp : S.phase = .main) :
    (S'.heard o).Inv := by
  cases h with
  | ignored => exact hS.main_inv hp
  | selects => exact Slave.StoreOk.echo_inv { hS with } rfl trivial
  | leaves => exact Slave.StoreOk.main_inv { hS with } hp
  | deselects => exact Slave.StoreOk.echo_inv { hS with } rfl trivial
  | startsId => exact Slave.StoreOk.echo_inv { hS with cursor_le := Nat.zero_le _ } rfl trivial
  | nextId hb =>
    exact Slave.StoreOk.echo_inv { hS with cursor_le := (List.getElem?_eq_some_iff.1 hb).1 } rfl trivial
  | replies i hc => exact Slave.StoreOk.echo_inv { hS with } rfl (hc.congr rfl rfl rfl)
  | handlerEnds => exact Slave.StoreOk.main_inv { hS with } rfl
  | handlerReplies hi hsel hmode => exact Slave.StoreOk.echo_inv { hS with } rfl ⟨hsel, hmode⟩

/-- One more address byte stays below the power of 256 its place allows (R203). -/
theorem accAddress_lt {acc : BitVec 24} {i : Nat} (h : acc.toNat < 256 ^ i) (b : Byte) :
    (accAddress acc b).toNat < 256 ^ (i + 1) := by
  have hb := b.isLt
  have hmod := Nat.mod_le (acc.toNat * 256 + b.toNat) (2 ^ 24)
  rw [accAddress_toNat, pow_succ]
  omega

/-- An open page belongs to a slave in `Boot` mode. -/
theorem Slave.InBuffer.page {S : Slave} (h : S.InBuffer) (p : Option PageBuffer) : S.mode = .app → p = none := fun happ => by
  cases h.1.symm.trans happ

theorem Slave.StoreOk.with_page {S : Slave} (h : S.StoreOk) (hbuf : S.InBuffer) {p : PageBuffer} (hp : p.Ok S.board) :
    Slave.StoreOk { S with page := some p } :=
  { h with
    page_ok := fun _ hq => Option.some.inj hq ▸ hp
    app_no_page := hbuf.page _ }

theorem Dir.afterCount_ok {S : Slave} {dir : Dir} {cb : Byte} (hbuf : S.InBuffer) (hpage : S.page.isSome = true) :
    (dir.afterCount (countOf cb)).Ok S := by
  obtain ⟨h1, h2⟩ := countOf_range cb
  cases dir <;> exact ⟨hbuf, hpage, h1, h2⟩

/-- An operand word keeps the invariant. -/
theorem Slave.TakesOperand.inv {S S' : Slave} {d : Byte} {o : Option Byte} (h : S.TakesOperand d S' o) (hS : S.StoreOk)
    (hphase : S.phase.Ok S) : (S'.heard o).Inv := by
  cases h with
  | proposal hp => rw [hp] at hphase; exact Slave.StoreOk.echo_inv { hS with } rfl hphase
  | confirms hp =>
    exact Slave.StoreOk.echo_inv { hS with eeprom_wf := Memory.write_wf _ _ _ hS.eeprom_wf } rfl trivial
  | differs hp => exact Slave.StoreOk.echo_inv { hS with } rfl trivial
  | address hp hi =>
    rw [hp] at hphase
    obtain ⟨hbuf, -, hacc⟩ := hphase
    exact Slave.StoreOk.echo_inv { hS with } rfl ⟨hbuf, hi, accAddress_lt hacc d⟩
  | lastAddress hp => rw [hp] at hphase; exact Slave.StoreOk.echo_inv { hS with } rfl hphase.1
  | @opens dir addr reg hp hreg =>
    rw [hp] at hphase
    have hstore := hS.with_page hphase (S.opened_ok hreg)
    exact Slave.StoreOk.echo_inv { hstore with } rfl (Dir.afterCount_ok hphase rfl)
  | @reads rem p hp hpage =>
    rw [hp] at hphase
    obtain ⟨hbuf, -, -, hle⟩ := hphase
    have hstore := hS.with_page hbuf (PageBuffer.advance_ok (hS.page_ok p hpage))
    refine Slave.StoreOk.echo_inv { hstore with } rfl ?_
    split
    case isTrue hlt => exact ⟨hbuf, rfl, Nat.le_sub_one_of_lt hlt, (Nat.sub_le _ _).trans hle⟩
    case isFalse => trivial
  | @writes rem p hp hpage =>
    rw [hp] at hphase
    obtain ⟨hbuf, -, -, hle⟩ := hphase
    have hstore := hS.with_page hbuf (PageBuffer.put_ok (hS.page_ok p hpage) d)
    refine Slave.StoreOk.echo_inv { hstore with } rfl ?_
    split
    case isTrue hlt => exact ⟨hbuf, rfl, Nat.le_sub_one_of_lt hlt, (Nat.sub_le _ _).trans hle⟩
    case isFalse => exact ⟨hbuf, rfl⟩

/-- A continuation keeps the invariant. -/
theorem Slave.Continues.inv {S S' : Slave} {c : Cont} {o : Option Byte} (h : S.Continues c S' o) (hS : S.StoreOk) (hc : c.Ok S) :
    (S'.heard o).Inv := by
  cases h with
  | resumes hres =>
    rw [Slave.heard_none, id]
    refine Slave.inv_iff.2 ⟨{ hS with }, ?_⟩
    cases c <;> cases hres <;> exact Cont.Ok.congr hc rfl rfl rfl
  | @commits p hpage =>
    have hp := hS.page_ok p hpage
    have happ : S.mode = .app → some p.clean = none := fun happ => by cases hpage.symm.trans (hS.app_no_page happ)
    exact Slave.StoreOk.main_inv
      { flash_wf := Slave.flashAfter_wf p hS.flash_wf
        flash_bound := Slave.flashAfter_bound hp hS.flash_bound
        eeprom_wf := Slave.eepromAfter_wf p hS.eeprom_wf
        cursor_le := hS.cursor_le
        page_ok := fun _ hq => Option.some.inj hq ▸ PageBuffer.clean_ok hp
        app_no_page := happ } rfl
  | switches m =>
    exact Slave.StoreOk.main_inv
      { hS with cursor_le := Nat.zero_le _, page_ok := nofun, app_no_page := fun _ => rfl } rfl
  | lastReply => exact Slave.StoreOk.main_inv { hS with } rfl
  | nextReply => exact Slave.StoreOk.echo_inv { hS with } rfl hc

/-- A slave's turn keeps its invariant. -/
theorem Slave.Turns.inv {S S' : Slave} {o : Option Byte} (h : S.Turns S' o) (hS : S.Inv) : (S'.heard o).Inv := by
  obtain ⟨hstore, hphase⟩ := Slave.inv_iff.1 hS
  cases h with
  | @command w R _ _ hp hr h =>
    have hR := Slave.takeMain_received hr
    refine h.inv (hstore.received hR) ?_
    obtain ⟨rx, pending, held, rfl⟩ := hR
    exact hp
  | echo hp hr h =>
    have hR := Slave.recv_received hr
    rw [hp] at hphase
    refine h.inv (hstore.received hR) ?_
    obtain ⟨rx, pending, held, rfl⟩ := hR
    exact hphase.2.congr rfl rfl rfl
  | aborts hp hr =>
    have hR := hstore.received (Slave.recvData_err_received hr)
    exact Slave.StoreOk.main_inv { hR with } rfl
  | @operand d R _ _ hp hr h =>
    have hR := Slave.recvData_ok_received hr
    refine h.inv (hstore.received hR) ?_
    obtain ⟨rx, pending, held, rfl⟩ := hR
    exact hphase.congr hp rfl rfl rfl

/-! ## The master's part -/

/-- The master's part of the invariant. -/
structure State.MasterOk (s : State) : Prop where
  ring_le : s.master.ring.length ≤ 5
  phase_ok : s.master.phase.Ok s.master.ring

theorem masterOk_finish {s : State} (h : s.master.ring.length ≤ 5) (r : Return) : (s.finish r).MasterOk := ⟨h, trivial⟩

theorem masterOk_completeCall {s : State} (h : s.master.ring.length ≤ 5) (call : Call) (out : List Byte) :
    (s.completeCall call out).MasterOk := by
  obtain ⟨r, hr⟩ | ⟨a, rfl, hr⟩ := completeCall_eq s call out <;> rw [hr]
  · exact masterOk_finish h r
  · exact ⟨h, a, rfl⟩

/-- A run over a ring of at most five words stops in an allowed phase (R222). -/
theorem hostRecv_settle_masterOk {call : Call} (hcall : call.Ok) (late : Bool) (l : List Word) : ∀ (i : Nat) (out : List Byte) (s : State),
    i < call.exchanges.length → l.length ≤ 5 → ((hostRecv call i out l s).settle late).MasterOk := by
  induction l with
  | nil =>
    intro i out s hi _
    cases late with
    | false => rw [settle_empty_drain]; exact ⟨Nat.zero_le 5, hcall, hi, rfl⟩
    | true => rw [settle_empty_late]; exact ⟨Nat.zero_le 5, trivial⟩
  | cons w ws ih =>
    intro i out s hi hl
    have hws : ws.length ≤ 5 := (Nat.le_succ _).trans hl
    by_cases h : 0 < s.master.pendingEchoDiscards
    · rw [hostRecv_echo h]; exact ih i out _ hi hws
    · have h0 : s.master.pendingEchoDiscards = 0 := Nat.eq_zero_of_not_pos h
      cases hc : call.checkReply i out w with
      | error r => rw [hostRecv_error h0 hc]; exact masterOk_finish (s := { s with master := { s.master with ring := ws } }) hws r
      | ok out' =>
        cases he : call.exchanges[i + 1]? with
        | none =>
          rw [hostRecv_last h0 hc he]
          exact masterOk_completeCall (s := { s with master := { s.master with ring := ws } }) hws call out'
        | some e => rw [hostRecv_next h0 hc he]; exact ih (i + 1) out' _ (List.getElem?_eq_some_iff.1 he).1 hws

/-- What a master's turn may end in: a state with the master's part of the invariant, or the refusal of a list of the wrong length. -/
def MasterEnds (o : Out) : Prop := (∃ t, o = .next t ∧ t.MasterOk) ∨ o = .refused .writeListLength

theorem startCall_masterEnds {s : State} (h : s.master.ring.length ≤ 5) (late : Bool) (call : Call) :
    MasterEnds (startCall late call s) := by
  cases harg : call.argError with
  | some k => rw [startCall_argError harg]; exact .inl ⟨_, rfl, masterOk_finish h _⟩
  | none =>
    cases hlen : call.lengthOk with
    | false => rw [startCall_badLength harg hlen]; exact .inr rfl
    | true =>
      refine .inl ⟨_, startCall_begin harg hlen late s, ?_⟩
      cases he : call.exchanges[0]? with
      | some e =>
        rw [beginCall_exchange he]
        exact hostRecv_settle_masterOk ⟨harg, hlen⟩ late _ 0 [] _ (List.getElem?_eq_some_iff.1 he).1 h
      | none =>
        cases call with
        | hostSend w => exact masterOk_finish (s := s.hostSend w) h .done
        | writeBuffer | readBuffer | checkSlave | select | expectData | expect | hostRecv => cases he

/-- In the phase that reads a header the ring is empty; the header's count bounds what follows (R221). -/
theorem exec_drainHdr_masterEnds {s : State} (h : s.MasterOk) {call : Call} {i : Nat} {out : List Byte} {late : Bool}
    (hp : s.master.phase = .recv call i out late .header) (m : BitVec 5) (c : BitVec 3) : MasterEnds (exec (.drainHdr m c) s) := by
  have hok := h.phase_ok
  rw [hp] at hok
  obtain ⟨hcall, hi, hring⟩ := hok
  by_cases h5 : 5 < c.toNat
  · exact .inl ⟨_, exec_drainHdr_reserved hp h5 m, masterOk_finish h.ring_le _⟩
  · by_cases h0 : 0 < c.toNat
    · refine .inl ⟨_, exec_drainHdr_count hp h0 (Nat.not_lt.1 h5) m, h.ring_le, hcall, hi, h0, Nat.not_lt.1 h5, ?_⟩
      rw [show s.master.ring = [] from hring]; rfl
    · obtain rfl : c = 0 := BitVec.eq_of_toNat_eq (Nat.eq_zero_of_not_pos h0)
      exact .inl ⟨_, exec_drainHdr_zero hp m, hostRecv_settle_masterOk hcall late _ i out s hi h.ring_le⟩

/-- At payload byte `j` the ring holds `j` words, so that there is room for one more (R221, D31). -/
theorem exec_drainPayload_masterEnds {s : State} (h : s.MasterOk) {call : Call} {i : Nat} {out : List Byte} {late : Bool}
    {m : BitVec 5} {c j : Nat} (hp : s.master.phase = .recv call i out late (.payload m c j)) (p : Byte) :
    MasterEnds (exec (.drainPayload p) s) := by
  have hok := h.phase_ok
  rw [hp] at hok
  obtain ⟨hcall, hi, hjc, hc5, hring⟩ := hok
  have hroom : s.master.ring.length < 16 := by omega
  have hlen : (s.master.ring ++ [drainWord m c j p]).length = j + 1 := by rw [List.length_append, hring]; rfl
  by_cases hj : j + 1 < c
  · exact .inl ⟨_, exec_drainPayload_more hp hroom hj p, hlen.trans_le (by omega), hcall, hi, hj, hc5, hlen⟩
  · exact .inl ⟨_, exec_drainPayload_last hp hroom hj p, hostRecv_settle_masterOk hcall late _ i out s hi (by omega)⟩

/-- Every way the master's turn can end. -/
theorem fetchMaster_masterEnds {s : State} (h : s.MasterOk) : MasterEnds (fetchMaster s).result := by
  cases hp : s.master.phase with
  | idle =>
    cases hc : s.calls with
    | nil => rw [fetchMaster_noCall hp hc]; exact .inl ⟨s, rfl, h⟩
    | cons c cs => rw [fetchMaster_start hp hc]; exact startCall_masterEnds (s := { s with calls := cs }) h.ring_le false c
  | sleep call => rw [fetchMaster_sleep hp]; exact .inl ⟨_, rfl, masterOk_finish h.ring_le _⟩
  | recv call i out late wait =>
    cases hb : s.link.x2h with
    | nil => rw [fetchMaster_noByte hp hb]; exact .inl ⟨s, rfl, h⟩
    | cons b bs =>
      have h' : State.MasterOk { s with link := { s.link with x2h := bs } } := ⟨h.ring_le, h.phase_ok⟩
      cases wait with
      | header => rw [fetchMaster_header hp hb]; exact exec_drainHdr_masterEnds h' hp _ _
      | payload m c j => rw [fetchMaster_payload hp hb]; exact exec_drainPayload_masterEnds h' hp b

/-- Every way the master's timeout can end. -/
theorem timeoutMaster_masterEnds {s : State} (h : s.MasterOk) : MasterEnds (timeoutMaster s) := by
  cases hp : s.master.phase with
  | idle =>
    cases hc : s.calls with
    | nil => rw [timeoutMaster_noCall hp hc]; exact .inl ⟨s, rfl, h⟩
    | cons c cs => rw [timeoutMaster_start hp hc]; exact startCall_masterEnds (s := { s with calls := cs }) h.ring_le true c
  | sleep call => rw [timeoutMaster_sleep hp]; exact .inl ⟨s, rfl, h⟩
  | recv call i out late wait =>
    by_cases hb : s.link.x2h = []
    · rw [timeoutMaster_noByte hp hb]; exact .inl ⟨_, rfl, masterOk_finish h.ring_le _⟩
    · have hok := h.phase_ok
      rw [hp] at hok
      rw [timeoutMaster_byte hp hb]
      exact .inl ⟨_, rfl, h.ring_le, hok⟩

theorem State.Inv.masterOk {s : State} (h : s.Inv) : s.nextTurn.2.MasterOk := by
  constructor <;> rw [nextTurn_master]
  · exact h.ring_le
  · exact h.mphase_ok

/-- The master's turn and its timeout, as steps. -/
theorem step_masterEnds {s : State} (h : s.Inv) (hturn : s.nextTurn.1 = .master ∨ s.nextTurn.1 = .masterTimeout) :
    MasterEnds (step s) := by
  rw [step_eq]
  obtain hturn | hturn := hturn <;> rw [hturn]
  · exact fetchMaster_masterEnds h.masterOk
  · exact timeoutMaster_masterEnds h.masterOk

/-! ## The whole machine -/

/-- `X`'s FIFO stays within its depth (R39, R128). -/
theorem LinkTook.fifo_le {d : Nat} {X Y : Link} {w : Word} (h : LinkTook d X Y w) (hle : X.fifo.length ≤ d) : Y.fifo.length ≤ d := by
  by_cases hroom : X.fifo.length < d
  · rw [(h.room hroom).1, List.length_append]; exact hroom
  · rw [(h.full hroom).1]; exact hle

/-- A move that takes no address in use keeps the addresses distinct (R268). -/
theorem moved_distinct {s : State} {S S' : Slave} (hd : s.DistinctAddresses) (hS : s.slaves[s.active]? = some S)
    (hfree : s.takesUsedAddress S S' = false) (o : Option Byte) : (s.moved S' o).DistinctAddresses := by
  by_cases haddr : S'.address = S.address
  · rw [State.DistinctAddresses, moved_addresses hS haddr]; exact hd
  · have hnew := (takesUsedAddress_eq_false.1 hfree).resolve_left haddr
    have hmap : (s.moved S' o).slaves.map Slave.address = (s.slaves.map Slave.address).set s.active S'.address := by
      rw [State.moved_slaves, List.map_map, ← List.map_set]; rfl
    rw [State.DistinctAddresses, hmap]
    refine List.Nodup.set hd fun hmem => ?_
    obtain ⟨Q, hQ, hQaddr⟩ := List.mem_map.1 hmem
    obtain ⟨j, hj⟩ := List.mem_iff_getElem?.1 hQ
    by_cases hja : j = s.active
    · subst hja
      exact haddr (hQaddr.symm.trans (congrArg Slave.address (Option.some.inj (hj.symm.trans hS))))
    · exact hnew j Q hja hj hQaddr

/-- A move to a slave that meets its invariant keeps the machine's. -/
theorem State.Inv.moved {s : State} {S S' : Slave} {o : Option Byte} (h : s.Inv) (hS : s.slaves[s.active]? = some S)
    (hfree : s.takesUsedAddress S S' = false) (hS' : (S'.heard o).Inv) : (s.moved S' o).Inv where
  distinct := moved_distinct h.distinct hS hfree o
  slaves T hT := by
    rw [State.moved_slaves] at hT
    obtain ⟨Q, hQ, rfl⟩ := List.mem_map.1 hT
    obtain hQ | rfl := List.mem_or_eq_of_mem_set hQ
    · exact (h.slaves Q hQ).append_rx _
    · exact hS'
  fifo_le := by
    rw [State.moved_params]
    obtain ⟨-, hlink⟩ | ⟨d, -, htook⟩ := s.moved_link S' o
    · rw [hlink]; exact h.fifo_le
    · exact htook.fifo_le h.fifo_le
  ring_le := by rw [State.moved_master]; exact h.ring_le
  mphase_ok := by rw [State.moved_master]; exact h.mphase_ok

theorem State.Inv.taken {s : State} (h : s.Inv) (k : Nat) : (s.taken k).Inv where
  distinct := by rw [State.DistinctAddresses, State.taken_slaves]; exact h.distinct
  slaves := by rw [State.taken_slaves]; exact h.slaves
  fifo_le := by rw [State.taken_link, State.taken_params]; exact h.fifo_le
  ring_le := by rw [State.taken_master]; exact h.ring_le
  mphase_ok := by rw [State.taken_master]; exact h.mphase_ok

theorem State.Inv.nextTurn {s : State} (h : s.Inv) : s.nextTurn.2.Inv := { h.taken s.nextTurn.2.active with }

/-- An abort keeps a slave's invariant. -/
theorem Slave.Inv.abort {S : Slave} (h : S.Inv) : (S.abort.heard none).Inv := by
  obtain ⟨hstore, -⟩ := Slave.inv_iff.1 h
  exact Slave.StoreOk.main_inv { hstore with } rfl

theorem State.Inv.slave {s : State} (h : s.Inv) {k : Nat} {S : Slave} (hS : s.slaves[k]? = some S) : S.Inv :=
  h.slaves S (List.mem_of_getElem? hS)

/-- Settles O7: each kind of step keeps the part of the invariant it can touch. -/
theorem stepKeepsInvariant : Obligations.StepKeepsInvariant := by
  intro s t hinv hstep
  cases step_stepped hstep with
  | waits => exact hinv.nextTurn
  | slave _ hS h hfree => exact (hinv.taken _).moved (State.taken_getElem?_active hS) hfree (h.inv (hinv.slave hS))
  | slaveTimeout _ hS =>
    exact (hinv.taken _).moved (State.taken_getElem?_active hS) (takesUsedAddress_of_eeprom rfl _) (hinv.slave hS).abort
  | link _ h =>
    have hslaves := h.slaves_eq.trans (congrArg _ (nextTurn_slaves s))
    have hmaster := h.master_eq.trans (nextTurn_master s)
    have hparams := h.params_eq.trans (nextTurn_params s)
    refine ⟨?distinct, fun T hT => ?slaves, ?fifo, by rw [hmaster]; exact hinv.ring_le, by rw [hmaster]; exact hinv.mphase_ok⟩
    case distinct => rw [State.DistinctAddresses, hslaves, List.map_map]; exact hinv.distinct
    case slaves =>
      rw [hslaves] at hT
      obtain ⟨Q, hQ, rfl⟩ := List.mem_map.1 hT
      exact (hinv.slaves Q hQ).append_rx _
    case fifo =>
      have hle := h.fifo_le
      simp only [nextTurn_params] at hle
      rw [hparams]
      exact hle hinv.fifo_le
  | master hturn h =>
    have hslaves := h.slaves_eq.trans (nextTurn_slaves s)
    have hparams := h.params_eq.trans (nextTurn_params s)
    obtain ⟨bs, hlink⟩ := h.link_eq
    obtain ⟨t', hnext, hok⟩ | hrefused := step_masterEnds hinv hturn
    · obtain rfl : t' = t := Host.Outcome.next.inj (hnext.symm.trans hstep)
      refine ⟨?_, by rw [hslaves]; exact hinv.slaves, ?_, hok.ring_le, hok.phase_ok⟩
      · rw [State.DistinctAddresses, hslaves]; exact hinv.distinct
      · rw [hparams, hlink]; exact hinv.fifo_le
    · cases hrefused.symm.trans hstep

/-! ## No faults -/

/-- The invariant opens a page buffer wherever a turn uses one (R193 to R195). -/
theorem Slave.Inv.not_lacksPage {S : Slave} (h : S.Inv) : ¬ S.LacksPage := by
  rintro ⟨hpage, hp⟩
  have hphase := h.phase_ok
  have hsome : S.page.isSome = true := by
    obtain hp | ⟨rem, hp | hp⟩ := hp <;> rw [hp] at hphase
    · exact hphase.2.2
    · exact hphase.2.1
    · exact hphase.2.1
  rw [hpage] at hsome
  cases hsome

/-- With distinct addresses only the two turns that may write the address byte can be refused for a duplicate. -/
theorem State.Inv.mayDuplicate {s : State} (h : s.Inv) {k : Nat} {S : Slave} (hS : s.slaves[k]? = some S)
    (hmay : s.nextTurn.2.MayDuplicate k S) : S.phase = .echo .toCommit ∨ ∃ p, S.phase = .asConfirm p := by
  have hS' : s.nextTurn.2.slaves[k]? = some S := by rw [nextTurn_slaves]; exact hS
  have hd := h.nextTurn.distinct
  obtain hshare | hcol | hphase := hmay
  · cases (sharesAddress_of_distinct hd hS').symm.trans hshare
  · have halone : s.nextTurn.2.AnswersAlone k S := fun _ j Q hj hQ _ => distinct_ne hd hj hQ hS'
    cases (collides_eq_false.2 halone).symm.trans hcol
  · exact hphase

/-- From the invariant every step ends in a next state, in the refusal of a list of the wrong length, or in a refusal of a slave's
turn; the one of a duplicate address only where the slave may write its address byte. -/
theorem State.Inv.step_ends {s : State} (h : s.Inv) :
    (∃ t, step s = .next t) ∨ step s = .refused .writeListLength ∨ ∃ r, step s = .refused r ∧
      Refusal.OfSlave (∃ k S, s.nextTurn.1 = .slave k ∧ s.slaves[k]? = some S ∧
        (S.phase = .echo .toCommit ∨ ∃ p, S.phase = .asConfirm p)) r := by
  cases hturn : s.nextTurn.1 with
  | master => exact (step_masterEnds h (.inl hturn)).imp (fun ⟨t, ht, _⟩ => ⟨t, ht⟩) .inl
  | masterTimeout => exact (step_masterEnds h (.inr hturn)).imp (fun ⟨t, ht, _⟩ => ⟨t, ht⟩) .inl
  | link =>
    rw [step_eq, hturn]
    obtain hw | ⟨_, _, _, t, ht, _⟩ := fetchLink_ran s.nextTurn.2
    · exact .inl ⟨_, hw⟩
    · exact .inl ⟨t, ht⟩
  | slaveTimeout k =>
    rw [step_eq, hturn]
    obtain hw | ⟨_, _, _, _, ht⟩ := timeoutSlave_cases k s.nextTurn.2
    · exact .inl ⟨_, hw⟩
    · exact .inl ⟨_, ht⟩
  | slave k =>
    have hstep : step s = (fetchSlave k s.nextTurn.2).result := by rw [step_eq, hturn]; rfl
    rw [hstep]
    obtain hw | ⟨S, hS, hans⟩ := fetchSlave_answers k s.nextTurn.2
    · exact .inl ⟨_, hw⟩
    · rw [nextTurn_slaves] at hS
      generalize (fetchSlave k s.nextTurn.2).result = out at hans
      cases hans with
      | moves => exact .inl ⟨_, rfl⟩
      | faults hlacks => exact absurd hlacks (h.slave hS).not_lacksPage
      | @refuses r hr =>
        refine .inr (.inr ⟨r, rfl, ?_⟩)
        cases r with
        | duplicateAddress => exact ⟨k, S, rfl, hS, h.mayDuplicate hS hr⟩
        | unmappedPage | handlerOperands | handlerContract => trivial
        | notModelled | ringOverflow | writeListLength => exact hr.elim

/-- Settles O8: none of the ends of a step is a fault, and the refusals are named. -/
theorem stepNeverFaults : Obligations.StepNeverFaults := by
  intro s hinv
  obtain ⟨t, ht⟩ | hw | ⟨r, hr, hof⟩ := hinv.step_ends
  · rw [ht]; exact ⟨nofun, nofun, nofun, nofun⟩
  · rw [hw]; exact ⟨nofun, nofun, nofun, nofun⟩
  · rw [hr]
    refine ⟨nofun, fun he => ?_, fun m he => ?_, fun he => ?_⟩ <;> cases he <;> exact hof

/-! ## BootloaderArea -/

/-- A commit writes no flash byte of another class than AppArea (R57, R195): the page written has the class of its base throughout. -/
theorem Slave.flashAfter_read_protected {S : Slave} {p : PageBuffer} (hp : p.Ok S.board) {addr : BitVec 32}
    (haddr : S.board.classify addr = some .bootloaderArea) : (S.flashAfter p).read addr.toNat = S.flash.read addr.toNat := by
  rw [Slave.flashAfter_read hp.bytes_length, if_neg]
  rintro ⟨-, hreg, hlo, hhi⟩
  have hclass := S.board.classify_of_div (S.board.aligned_div hp.aligned hlo hhi)
  rw [haddr, hp.region_eq, hreg] at hclass
  cases hclass

/-- Settles O9: only a slave's commit writes its flash, and its page buffer meets the invariant. -/
theorem bootloaderAreaIsNeverWritten : Obligations.BootloaderAreaIsNeverWritten := by
  intro s t hinv hstep k S T hS hT addr haddr
  obtain hsame | ⟨-, S', o, h, rfl⟩ := (step_stepped hstep).slave_cases hS hT
  · rw [hsame.flash_eq]
  · obtain hflash | ⟨-, p, hpage, hflash⟩ := h.flash_eq
    · exact congrArg (Memory.read · addr.toNat) hflash
    · have hp := (hinv.slave hS).page_ok p hpage
      exact (congrArg (Memory.read · addr.toNat) hflash).trans (Slave.flashAfter_read_protected hp haddr)

end Sys2Proof.Machine
end
